-- ==== Sys2Proof/Word.lean ====
section
/-! DEFINITION. The words the block deals in (bytes, milliseconds, host command words) and the named alternatives
that the spec gives fixed numbers: speeds and frame commands, and the three kinds of encoded input. Spec: 00_scope.md R7, R10; 20_memory.md R54. -/

namespace Sys2Proof

/-- A byte of a frame or of the receive stream (20_memory.md R54). -/
abbrev Byte := BitVec 8

/-- A value of the 32-bit millisecond counter `now_ms`, or a timestamp taken from it (00_scope.md R7, R11). -/
abbrev Ms := BitVec 32

/-- A 40-bit host command word `cmd_word` (30_encoding.md R82). -/
abbrev CmdWord := BitVec 40

/-- The eleven speeds, in enumeration order; the order is the order of the wire ids 1 to 11 (30_encoding.md R75).
A `Speed` is always a decoded one: an id outside 1..11 is no speed (40_speed_caps.md R102). -/
inductive Speed
  | x1 | x2 | x3_3 | x4 | x5 | x6_6 | x8 | x10 | x13_3 | x16 | x20
deriving DecidableEq, Repr, Inhabited

/-- The nine recognized frame commands (30_encoding.md R73). -/
inductive Command
  | speedRequest | speedAnswer | speedNegotiate | speedAck | speedTest
  | speedResult | speedTest2 | speedResult2 | speedPush
deriving DecidableEq, Repr, Inhabited

/-- What an instruction is read from. The block has no instruction memory: an instruction is a whole candidate frame,
one received byte, or one host command word (00_scope.md R9). -/
inductive Encoded
  | frame (bytes : List Byte)
  | byte (b : Byte)
  | command (w : CmdWord)
deriving DecidableEq, Repr, Inhabited

end Sys2Proof
end

