-- ==== Sys2Proof/Syntax.lean ====
section
/-! DEFINITION. The instructions of the block: one constructor per row of spec/opcode_table.json (00_scope.md R9). -/

namespace Sys2Proof

/-- One constructor per row of the opcode table. Operands are the raw fields of the encoding: bytes of a payload
(30_encoding.md R74), the 4-bit speed field of a host word (R82). Judging them is the meaning's work (41_codec.md R128). -/
inductive Instr
  /-- SPEED_REQUEST frame, no payload (45_slave.md R210). -/
  | speedRequest
  /-- SPEED_ANSWER frame, payload M1, M2, C1, C2 (44_master.md R182). -/
  | speedAnswer (m1 m2 c1 c2 : Byte)
  /-- SPEED_NEGOTIATE frame, payload test id, target id (45_slave.md R211). -/
  | speedNegotiate (testId targetId : Byte)
  /-- SPEED_ACK frame, no payload (44_master.md R184). -/
  | speedAck
  /-- SPEED_TEST frame, an 8-byte payload (45_slave.md R212). -/
  | speedTest (pattern : List Byte)
  /-- SPEED_RESULT frame, an 8-byte payload (44_master.md R186). -/
  | speedResult (pattern : List Byte)
  /-- SPEED_TEST2 frame, no payload (45_slave.md R213). -/
  | speedTest2
  /-- SPEED_RESULT2 frame, no payload (44_master.md R187). -/
  | speedResult2
  /-- SPEED_PUSH frame, payload speed id (45_slave.md R214). -/
  | speedPush (speedId : Byte)
  /-- Received byte F0 (42_reassembler.md R141). -/
  | rxF0
  /-- Received byte F7 (42_reassembler.md R143 to R145). -/
  | rxF7
  /-- Received byte FE (42_reassembler.md R146). -/
  | rxFE
  /-- Any other received byte (42_reassembler.md R142, R144, R145). -/
  | rxByte (b : Byte)
  /-- Host op 0, reserved (46_host_ops.md R233). -/
  | reserved0
  /-- Host op 1 (46_host_ops.md R230). -/
  | setSupported (speed : BitVec 4) (cert : Bool)
  /-- Host op 2 (44_master.md R180). -/
  | negotiate (speed : BitVec 4) (timeout : Ms)
  /-- Host op 3 (44_master.md R181). -/
  | push (speed : BitVec 4)
  /-- Host op 4 (46_host_ops.md R231). -/
  | tick
  /-- Host op 5 (46_host_ops.md R232). -/
  | sendActiveSense
  /-- Host op 6, reserved (46_host_ops.md R233). -/
  | reserved6
  /-- Host op 7, reserved (46_host_ops.md R233). -/
  | reserved7
deriving DecidableEq, Repr, Inhabited

end Sys2Proof
end

