-- ==== Sys2Proof/WellFormed.lean ====
section
/-! DEFINITION. Which terms of `Instr` stand for an encoding: the length of a pattern payload (30_encoding.md R73, R74)
and the byte class of RX_BYTE (spec/opcode_table.json: every byte not matched by RX_F0, RX_F7 or RX_FE). -/

namespace Sys2Proof

/-- The length of a SpeedTest or SpeedResult payload (30_encoding.md R73). -/
def patternLength : Nat := 8

/-- A pattern payload has exactly eight bytes. -/
def wellFormedPattern (p : List Byte) : Bool := p.length == patternLength

/-- RX_BYTE is every byte but F0, F7 and FE. -/
def plainByte (b : Byte) : Bool := b != 0xF0 && b != 0xF7 && b != 0xFE

/-- The term is one that decoding can give. Every other operand is a field whose every value the encoding admits. -/
def wellFormed (i : Instr) : Bool :=
  match i with
  | .speedRequest => true
  | .speedAnswer _ _ _ _ => true
  | .speedNegotiate _ _ => true
  | .speedAck => true
  | .speedTest p => wellFormedPattern p
  | .speedResult p => wellFormedPattern p
  | .speedTest2 => true
  | .speedResult2 => true
  | .speedPush _ => true
  | .rxF0 => true
  | .rxF7 => true
  | .rxFE => true
  | .rxByte b => plainByte b
  | .reserved0 => true
  | .setSupported _ _ => true
  | .negotiate _ _ => true
  | .push _ => true
  | .tick => true
  | .sendActiveSense => true
  | .reserved6 => true
  | .reserved7 => true

end Sys2Proof
end

