-- ==== Sys2Proof/Decode.lean ====
section
/-! DEFINITION. The codec's decoder and encoder for frames (41_codec.md), the byte classes of the reassembler
(42_reassembler.md) and the host command word (30_encoding.md R82, R83); and the opcode table's own numbering of them. -/

namespace Sys2Proof

/-! ### Frame commands (30_encoding.md R73) -/

/-- The command id byte of a command. -/
def commandCode (c : Command) : Byte :=
  match c with
  | .speedRequest => 0x10
  | .speedAnswer => 0x11
  | .speedNegotiate => 0x12
  | .speedAck => 0x13
  | .speedTest => 0x14
  | .speedResult => 0x15
  | .speedTest2 => 0x16
  | .speedResult2 => 0x17
  | .speedPush => 0x20

/-- The payload length `n(cmd)` of a command. -/
def payloadLength (c : Command) : Nat :=
  match c with
  | .speedRequest => 0
  | .speedAnswer => 4
  | .speedNegotiate => 2
  | .speedAck => 0
  | .speedTest => 8
  | .speedResult => 8
  | .speedTest2 => 0
  | .speedResult2 => 0
  | .speedPush => 1

/-- The nine commands, in table order. -/
def allCommands : List Command :=
  [.speedRequest, .speedAnswer, .speedNegotiate, .speedAck, .speedTest, .speedResult, .speedTest2, .speedResult2, .speedPush]

/-- The command a byte names; every other byte is an unrecognized command id (30_encoding.md R79). -/
def commandOf (b : Byte) : Option Command := allCommands.find? (fun c => commandCode c == b)

/-- The manufacturer bytes `MFG` (30_encoding.md R71). -/
def manufacturer : List Byte := [0x00, 0x20, 0x3C, 0x00, 0x00]

/-- `TEST_PATTERN` (30_encoding.md R77). -/
def testPattern : List Byte := [0x55, 0x55, 0x55, 0x55, 0x00, 0x00, 0x00, 0x00]

/-! ### Building frames (41_codec.md R120) -/

/-- `frame(cmd, p)`: F0, the manufacturer bytes, the command id, the payload, F7. -/
def frameBytes (c : Command) (p : List Byte) : List Byte := [0xF0] ++ manufacturer ++ [commandCode c] ++ p ++ [0xF7]

/-! ### Checking frames (41_codec.md R122 to R128) -/

/-- Check (a), the delimiters (R122). -/
def checkDelimiters (f : List Byte) : Bool :=
  decide (2 ≤ f.length) && f.head? == some 0xF0 && f.getLast? == some 0xF7

/-- Check (b), the manufacturer (R123). -/
def checkManufacturer (f : List Byte) : Bool :=
  decide (6 ≤ f.length) && (f.drop 1).take 5 == manufacturer

/-- Check (c), the command id: the recognized command at byte 6, if any (R124). -/
def checkCommand (f : List Byte) : Option Command := (f[6]?).bind commandOf

/-- Check (d), the exact length (R125). -/
def checkLength (c : Command) (f : List Byte) : Bool := f.length == 8 + payloadLength c

/-- The payload `f[7 .. L-2]` of a frame (R126). -/
def framePayload (f : List Byte) : List Byte := (f.drop 7).dropLast

/-- Why a candidate frame is rejected. The block shows none of this: rejection is silent (R127). -/
inductive FrameError
  | badDelimiters | badManufacturer | unknownCommand | badLength
deriving DecidableEq, Repr

/-- The codec's answer (R126). -/
inductive Decoded
  | accept (i : Instr)
  | reject (why : FrameError)
deriving DecidableEq, Repr

/-- The instruction of a command and its payload, where the payload has the command's length (30_encoding.md R74). -/
def frameInstr (c : Command) (p : List Byte) : Option Instr :=
  match c with
  | .speedRequest =>
    match p with
    | [] => some .speedRequest
    | _ => none
  | .speedAnswer =>
    match p with
    | [m1, m2, c1, c2] => some (.speedAnswer m1 m2 c1 c2)
    | _ => none
  | .speedNegotiate =>
    match p with
    | [testId, targetId] => some (.speedNegotiate testId targetId)
    | _ => none
  | .speedAck =>
    match p with
    | [] => some .speedAck
    | _ => none
  | .speedTest => some (.speedTest p)
  | .speedResult => some (.speedResult p)
  | .speedTest2 =>
    match p with
    | [] => some .speedTest2
    | _ => none
  | .speedResult2 =>
    match p with
    | [] => some .speedResult2
    | _ => none
  | .speedPush =>
    match p with
    | [speedId] => some (.speedPush speedId)
    | _ => none

/-- `decode(f)`: accepted only if all four checks pass; total on any byte list (R122 to R126). -/
def decodeFrame (f : List Byte) : Decoded :=
  if !checkDelimiters f then .reject .badDelimiters
  else if !checkManufacturer f then .reject .badManufacturer
  else
    match checkCommand f with
    | none => .reject .unknownCommand
    | some c =>
      if !checkLength c f then .reject .badLength
      else
        match frameInstr c (framePayload f) with
        | some i => .accept i
        | none => .reject .badLength

/-! ### Byte classes (spec/opcode_table.json, format RX_BYTE) -/

/-- The row of a received byte. -/
def decodeByte (b : Byte) : Instr :=
  if b = 0xF0 then .rxF0
  else if b = 0xF7 then .rxF7
  else if b = 0xFE then .rxFE
  else .rxByte b

/-! ### Host command words (30_encoding.md R82, R83) -/

/-- `op = cmd_word[2:0]`. -/
def cmdOp (w : CmdWord) : BitVec 3 := w.extractLsb' 0 3

/-- `speed = cmd_word[6:3]`. -/
def cmdSpeed (w : CmdWord) : BitVec 4 := w.extractLsb' 3 4

/-- `cert = cmd_word[7]`. -/
def cmdCert (w : CmdWord) : Bool := w.getLsbD 7

/-- `timeout = cmd_word[39:8]`. -/
def cmdTimeout (w : CmdWord) : Ms := w.extractLsb' 8 32

/-- A word from its four fields. -/
def cmdWordOf (op : BitVec 3) (speed : BitVec 4) (cert : Bool) (timeout : Ms) : CmdWord :=
  timeout ++ BitVec.ofBool cert ++ speed ++ op

/-- The host operation of a command word; a field it does not use is ignored (R82). -/
def decodeCommand (w : CmdWord) : Instr :=
  match (cmdOp w).toNat with
  | 1 => .setSupported (cmdSpeed w) (cmdCert w)
  | 2 => .negotiate (cmdSpeed w) (cmdTimeout w)
  | 3 => .push (cmdSpeed w)
  | 4 => .tick
  | 5 => .sendActiveSense
  | 6 => .reserved6
  | 7 => .reserved7
  | _ => .reserved0

/-- The decoder, total on every encoded input; only a frame can be rejected, by name. -/
def decode (e : Encoded) : Decoded :=
  match e with
  | .frame f => decodeFrame f
  | .byte b => .accept (decodeByte b)
  | .command w => .accept (decodeCommand w)

/-! ### The encoder, from the same tables -/

/-- The encoding of an instruction. Fields a host operation does not use are written as zero. -/
def encode (i : Instr) : Encoded :=
  match i with
  | .speedRequest => .frame (frameBytes .speedRequest [])
  | .speedAnswer m1 m2 c1 c2 => .frame (frameBytes .speedAnswer [m1, m2, c1, c2])
  | .speedNegotiate a g => .frame (frameBytes .speedNegotiate [a, g])
  | .speedAck => .frame (frameBytes .speedAck [])
  | .speedTest p => .frame (frameBytes .speedTest p)
  | .speedResult p => .frame (frameBytes .speedResult p)
  | .speedTest2 => .frame (frameBytes .speedTest2 [])
  | .speedResult2 => .frame (frameBytes .speedResult2 [])
  | .speedPush x => .frame (frameBytes .speedPush [x])
  | .rxF0 => .byte 0xF0
  | .rxF7 => .byte 0xF7
  | .rxFE => .byte 0xFE
  | .rxByte b => .byte b
  | .reserved0 => .command (cmdWordOf 0 0 false 0)
  | .setSupported s c => .command (cmdWordOf 1 s c 0)
  | .negotiate s t => .command (cmdWordOf 2 s false t)
  | .push s => .command (cmdWordOf 3 s false 0)
  | .tick => .command (cmdWordOf 4 0 false 0)
  | .sendActiveSense => .command (cmdWordOf 5 0 false 0)
  | .reserved6 => .command (cmdWordOf 6 0 false 0)
  | .reserved7 => .command (cmdWordOf 7 0 false 0)

/-! ### The opcode table's numbering -/

/-- The `n` bytes of `w`, the high byte first: the table writes f[0] in the high byte (30_encoding.md R72). -/
def bytesHighFirst (n w : Nat) : List Byte :=
  match n with
  | 0 => []
  | k + 1 => bytesHighFirst k (w / 256) ++ [BitVec.ofNat 8 w]

/-- A 7-byte header with a recognized command id, completed to that command's frame with a payload of zeros and its
closing F7; any other byte list as it stands (log 6). -/
def completeFrame (h : List Byte) : List Byte :=
  if h.length = 7 then
    match checkCommand h with
    | some c => h ++ List.replicate (payloadLength c) 0x00 ++ [0xF7]
    | none => h
  else h

/-- The input that a table word of `nbits` bits stands for (log 6). At most 8 bits: the rows RX_F0, RX_F7, RX_FE (mask
FF), RX_BYTE (mask 00, no bits at all) and, below 8, the op field of a host word whose other bits are zero. Up to 40
bits: a host word. More: a frame's bytes, or its 7-byte header. -/
def tableInput (nbits w : Nat) : Encoded :=
  if nbits = 0 then .byte (BitVec.ofNat 8 w)
  else if nbits ≤ 8 then
    if w < 8 then .command (BitVec.ofNat 40 w) else .byte (BitVec.ofNat 8 w)
  else if nbits ≤ 40 then .command (BitVec.ofNat 40 w)
  else .frame (completeFrame (bytesHighFirst (nbits / 8) w))

/-- The instruction the decoder reads from a table word. -/
def decodeTableWord (nbits w : Nat) : Option Instr :=
  match decode (tableInput nbits w) with
  | .accept i => some i
  | .reject _ => none

end Sys2Proof
end

