-- ==== Sys2Proof/Config.lean ====
section
/-! DEFINITION. What an implementation fixes (the parameters of 00_scope.md R7, carried in State as plain data that no
step changes), the port sample of one step (10_state.md R38), and the one free value: what the environment offers in a
step for which State lists no sample. -/

namespace Sys2Proof

/-- `ROLE`, a build-time parameter (10_state.md R21). -/
inductive Role
  | master | slave | either
deriving DecidableEq, Repr, Inhabited

/-- `PROBE_POLICY` (00_scope.md R7; 44_master.md R183). -/
inductive ProbePolicy
  | successor | nextSupported | nextCertified
deriving DecidableEq, Repr, Inhabited

/-- The implementation parameters of 00_scope.md R7. `evFifoDepth = none` is the abstract model, which has no event FIFO
and never stalls; `some d` is the RTL with a FIFO of `d` entries (10_state.md R40, R41). -/
structure Config where
  role : Role
  rxBufCap : Nat
  wdRxTimeoutMs : Nat
  asTxPeriodMs : Nat
  settleMs : Nat
  testTimeoutMs : Nat
  breathBytes : Nat
  probePolicy : ProbePolicy
  evFifoDepth : Option Nat
deriving DecidableEq, Repr, Inhabited

/-- `STEP_EV_MAX` (43_engine_common.md R169). -/
def stepEvMax : Nat := 34

/-- `DEFAULT_TIMEOUT_MS`: the host's value for a NEGOTIATE word; no rule of the block reads it (00_scope.md R7; D31). -/
def hostDefaultTimeoutMs : Ms := 30

/-- A build with the values of 00_scope.md R7 for a given role, in the abstract model (no FIFO). -/
def Config.standard (role : Role) : Config where
  role := role
  rxBufCap := 16
  wdRxTimeoutMs := 300
  asTxPeriodMs := 250
  settleMs := 10
  testTimeoutMs := 30
  breathBytes := 16
  probePolicy := .nextSupported
  evFifoDepth := none

/-- The builds R7 admits: a receive buffer of at least 16 bytes and, in the RTL, a FIFO of at least `STEP_EV_MAX`. -/
def Config.legal (c : Config) : Bool :=
  decide (16 ≤ c.rxBufCap) &&
    (match c.evFifoDepth with
      | none => true
      | some d => decide (stepEvMax ≤ d))

/-- The numeric literals have the source's values, which R7 makes normative. -/
def Config.literalsAsGiven (c : Config) : Bool :=
  c.wdRxTimeoutMs == 300 && c.asTxPeriodMs == 250 && c.settleMs == 10 && c.testTimeoutMs == 30 && c.breathBytes == 16

/-- The input ports of the block in one step (10_state.md R38). `rxData` is read only where `rxValid`, `cmdWord` only
where `cmdValid`. -/
structure PortSample where
  rst : Bool
  nowMs : Ms
  rxValid : Bool
  rxData : Byte
  cmdValid : Bool
  cmdWord : CmdWord
  evReady : Bool
deriving DecidableEq, Repr, Inhabited

/-- FREE VALUE (log 1): the ports of the `n`-th step that runs with no sample listed in State. It has no body, so
nothing can be proved of it: such a step may see any input. -/
opaque Config.unlistedSample : Nat → PortSample

end Sys2Proof
end

