-- ==== Sys2Proof/Machine/State.lean ====
section
/-! DEFINITION. The machine's state as plain data: every register of 10_state.md R20, the event FIFO of R40, the build
parameters, and the model's own fields that carry a step's inputs and results (00_scope.md R8). -/

namespace Sys2Proof.Machine

/-- A capability set: the four bytes M1, M2, C1, C2 (10_state.md R22). -/
structure Caps where
  m1 : Byte
  m2 : Byte
  c1 : Byte
  c2 : Byte
deriving DecidableEq, Repr, Inhabited

/-- `test_state` (10_state.md R27). -/
inductive TestState
  | idle | awaitingTest | awaitingTest2
deriving DecidableEq, Repr, Inhabited

/-- `seq_state` (10_state.md R31). -/
inductive SeqState
  | idle | waitAnswer | waitAck | settle | waitResult | waitResult2
deriving DecidableEq, Repr, Inhabited

/-- `NEG_DONE` causes (30_encoding.md R84). -/
inductive Cause
  | ok | noAnswer | speedUnsupported | noProbeSpeed | noAck | testTimeout | test2Timeout | testBadPattern
deriving DecidableEq, Repr, Inhabited

/-- `CMD_REJECTED` reasons (30_encoding.md R85). -/
inductive Reason
  | reservedOp | badSpeedId | role
deriving DecidableEq, Repr, Inhabited

/-- The output events (10_state.md R39). -/
inductive Event
  | tx (b : Byte)
  | baud (rate : BitVec 32)
  | speedChanged (s : Speed)
  | speedRequested
  | negDone (ok : Bool) (cause : Cause)
  | cmdRejected (op : BitVec 3) (reason : Reason)
deriving DecidableEq, Repr, Inhabited

/-- The reasons a step stops the machine: none. "The block has no trap mechanism" and every error is handled by the rule
that detects it (60_exceptions.md R258), so this type has no constructor; its being empty is safe. -/
inductive Fault
deriving DecidableEq, Repr

/-- The reasons a step is refused. -/
inductive Refusal
  /-- Raised by `exec` for an instruction that has no meaning yet; no arm raises it now. Safe: the model stops. -/
  | notModelled (mnemonic : String)
deriving DecidableEq, Repr

/-- The state. Registers and their rules are listed in INVENTORY.md under "State". -/
structure State where
  /-- The build (00_scope.md R7, 10_state.md R21). No step changes it. -/
  cfg : Config
  /-- `local_caps` (R22, R23). -/
  localCaps : Caps
  /-- `current_speed` (R24). -/
  currentSpeed : Speed
  /-- `last_rx_time` (R25). -/
  lastRxTime : Ms
  /-- `last_as_tx_time` (R26). -/
  lastAsTxTime : Ms
  /-- `test_state` (R27). -/
  testState : TestState
  /-- `pending_test_id` (R28). -/
  pendingTest : Speed
  /-- `pending_target_id` (R28). -/
  pendingTarget : Speed
  /-- `rx_buf`, `RX_BUF_CAP` bytes (R29). -/
  rxBuf : List Byte
  /-- `rx_len` (R30). -/
  rxLen : Nat
  /-- `seq_state` (R31). -/
  seqState : SeqState
  /-- `seq_t0` (R32). -/
  seqT0 : Ms
  /-- `seq_timeout` (R33). -/
  seqTimeout : Ms
  /-- `seq_target` (R34). -/
  seqTarget : Speed
  /-- `seq_test` (R35). -/
  seqTest : Speed
  /-- The event FIFO of the RTL, head first (R40); stays empty in the abstract model. -/
  fifo : List Event
  /-- Model's own: `now`, the value of `now_ms` sampled by the step (43_engine_common.md R160; log 2). -/
  now : Ms
  /-- Model's own: the events of the latest step, in emission order (00_scope.md R8; log 2). -/
  events : List Event
  /-- Model's own: the latest step took the offered byte (R8, R160; log 2). -/
  takenRx : Bool
  /-- Model's own: the latest step took the offered command (R8, R160; log 2). -/
  takenCmd : Bool
  /-- Model's own: the port samples of the steps to come, the next step's first (10_state.md R38; log 1). -/
  inputs : List PortSample
  /-- Model's own: how many steps have run with no sample listed (log 1). -/
  unlisted : Nat
deriving DecidableEq, Repr

/-- The outcome of a meaning or a step. -/
abbrev Result := Host.Outcome State Fault Refusal

/-- The state a build has right after reset (70_reset_and_hazards.md R280). `rx_buf` is unspecified there: zeros, log 4.
The model's own fields: log 1 and log 2. -/
def State.resetOf (c : Config) : State where
  cfg := c
  localCaps := ⟨0x00, 0x00, 0x00, 0x00⟩
  currentSpeed := .x1
  lastRxTime := 0
  lastAsTxTime := 0
  testState := .idle
  pendingTest := .x1
  pendingTarget := .x1
  rxBuf := List.replicate c.rxBufCap 0x00
  rxLen := 0
  seqState := .idle
  seqT0 := 0
  seqTimeout := 0
  seqTarget := .x1
  seqTest := .x1
  fifo := []
  now := 0
  events := []
  takenRx := false
  takenCmd := false
  inputs := []
  unlisted := 0

/-- The machine right after reset, for the build of log 3: ROLE = EITHER, the parameters of R7, the abstract model. -/
def State.reset : State := State.resetOf (Config.standard .either)

end Sys2Proof.Machine
end

