-- ==== Sys2Proof/Machine/Operands.lean ====
section
/-! DEFINITION. What operands mean: the speed table (40_speed_caps.md R100 to R103), the capability set (R104 to R111),
the probe speed (44_master.md R183), time arithmetic (00_scope.md R11) and role permissions (43_engine_common.md R166). -/

namespace Sys2Proof.Machine

/-! ### Speed table -/

/-- `Speed` in enumeration order (30_encoding.md R75). -/
def allSpeeds : List Speed := [.x1, .x2, .x3_3, .x4, .x5, .x6_6, .x8, .x10, .x13_3, .x16, .x20]

/-- `id_for` as a number (40_speed_caps.md R101). -/
def idFor (s : Speed) : Nat :=
  match s with
  | .x1 => 1
  | .x2 => 2
  | .x3_3 => 3
  | .x4 => 4
  | .x5 => 5
  | .x6_6 => 6
  | .x8 => 7
  | .x10 => 8
  | .x13_3 => 9
  | .x16 => 10
  | .x20 => 11

/-- The wire id byte of a speed (R101). -/
def idByte (s : Speed) : Byte := BitVec.ofNat 8 (idFor s)

/-- `baud_for` (R100). -/
def baudFor (s : Speed) : BitVec 32 :=
  match s with
  | .x1 => 31250
  | .x2 => 62500
  | .x3_3 => 103125
  | .x4 => 125000
  | .x5 => 156250
  | .x6_6 => 206250
  | .x8 => 250000
  | .x10 => 312500
  | .x13_3 => 415625
  | .x16 => 500000
  | .x20 => 625000

/-- The speed with a given id, if any. -/
def speedOfId (n : Nat) : Option Speed :=
  match n with
  | 1 => some .x1
  | 2 => some .x2
  | 3 => some .x3_3
  | 4 => some .x4
  | 5 => some .x5
  | 6 => some .x6_6
  | 7 => some .x8
  | 8 => some .x10
  | 9 => some .x13_3
  | 10 => some .x16
  | 11 => some .x20
  | _ => none

/-- `from_id` of a wire byte (R102). -/
def fromId (b : Byte) : Option Speed := speedOfId b.toNat

/-- The speed of the 4-bit field of a host word; `none` exactly where `valid_id` fails (R111). -/
def fromField (b : BitVec 4) : Option Speed := speedOfId b.toNat

/-- `next_higher` (R103). -/
def nextHigher (s : Speed) : Option Speed := speedOfId (idFor s + 1)

/-! ### Capability set -/

/-- The byte pair of a capability bit (30_encoding.md R76). -/
inductive CapPair
  | first | second
deriving DecidableEq, Repr

/-- `capbit`: the byte pair and bit of a speed; 1× has none (30_encoding.md R76). -/
def capBit (s : Speed) : Option (CapPair × Nat) :=
  match s with
  | .x1 => none
  | .x2 => some (.first, 0)
  | .x3_3 => some (.first, 1)
  | .x4 => some (.first, 2)
  | .x5 => some (.first, 3)
  | .x6_6 => some (.first, 4)
  | .x8 => some (.first, 5)
  | .x10 => some (.first, 6)
  | .x13_3 => some (.second, 0)
  | .x16 => some (.second, 1)
  | .x20 => some (.second, 2)

/-- `supbyte` (40_speed_caps.md R104). -/
def supByte (c : Caps) (p : CapPair) : Byte :=
  match p with
  | .first => c.m1
  | .second => c.m2

/-- `certbyte` (R104). -/
def certByte (c : Caps) (p : CapPair) : Byte :=
  match p with
  | .first => c.c1
  | .second => c.c2

/-- `has` (R105): 1× always, an undecoded id never. -/
def has (c : Caps) (s : Option Speed) : Bool :=
  match s with
  | none => false
  | some v =>
    match capBit v with
    | none => true
    | some (p, k) => (supByte c p).getLsbD k

/-- `is_certified` (R106): reads only the certification bit. -/
def isCertified (c : Caps) (s : Option Speed) : Bool :=
  match s with
  | none => false
  | some v =>
    match capBit v with
    | none => true
    | some (p, k) => (certByte c p).getLsbD k

/-- A byte with bit `k` set. -/
def withBit (b : Byte) (k : Nat) : Byte := b ||| BitVec.twoPow 8 k

/-- A set with one support bit added. -/
def addSupport (c : Caps) (p : CapPair) (k : Nat) : Caps :=
  match p with
  | .first => { c with m1 := withBit c.m1 k }
  | .second => { c with m2 := withBit c.m2 k }

/-- A set with one certification bit added. -/
def addCert (c : Caps) (p : CapPair) (k : Nat) : Caps :=
  match p with
  | .first => { c with c1 := withBit c.c1 k }
  | .second => { c with c2 := withBit c.c2 k }

/-- `add` (R107): bits are only added; 1× has no bit. -/
def addCap (c : Caps) (s : Speed) (certified : Bool) : Caps :=
  match capBit s with
  | none => c
  | some (p, k) => if certified then addCert (addSupport c p k) p k else addSupport c p k

/-- `bytes(c)`, the SpeedAnswer payload order (R108). -/
def capsBytes (c : Caps) : List Byte := [c.m1, c.m2, c.c1, c.c2]

/-- `caps_from_bytes` (R108): all eight bits of each byte are kept. -/
def capsFromBytes (p0 p1 p2 p3 : Byte) : Caps := ⟨p0, p1, p2, p3⟩

/-! ### Probe speed -/

/-- The smallest speed above `t` that satisfies `ok`. -/
def smallestAbove (t : Speed) (ok : Speed → Bool) : Option Speed :=
  allSpeeds.find? (fun v => decide (idFor t < idFor v) && ok v)

/-- `select_test` (44_master.md R183). -/
def selectTest (policy : ProbePolicy) (rc : Caps) (t : Speed) : Option Speed :=
  if t = .x1 then some .x1
  else if isCertified rc (some t) then some t
  else
    match policy with
    | .successor => nextHigher t
    | .nextSupported => smallestAbove t (fun v => has rc (some v))
    | .nextCertified => smallestAbove t (fun v => has rc (some v) && isCertified rc (some v))

/-! ### Time -/

/-- `elapsed(a, b) = (a - b) mod 2^32` (00_scope.md R11). -/
def elapsed (a b : Ms) : Nat := (a - b).toNat

/-! ### Roles (60_exceptions.md R261: `may_originate`, `may_answer`) -/

/-- `ROLE ≠ SLAVE`: the build may originate NEGOTIATE and PUSH and handles master responses. -/
def mayOriginate (r : Role) : Bool :=
  match r with
  | .master => true
  | .slave => false
  | .either => true

/-- `ROLE ≠ MASTER`: the build answers slave commands. -/
def mayAnswer (r : Role) : Bool :=
  match r with
  | .master => false
  | .slave => true
  | .either => true

end Sys2Proof.Machine
end

