-- ==== Sys2Proof/Machine/Ops.lean ====
section
/-! DEFINITION. The shared operations: emission (00_scope.md R12), commit (43_engine_common.md R164), the end of a
negotiation (44_master.md R193), the writes of the receive buffer (42_reassembler.md), the inputs of a step and the event
FIFO (10_state.md R38 to R41). The block takes no exception and returns from none (60_exceptions.md R258, R259), so no
such operation exists. -/

namespace Sys2Proof.Machine

/-- Run `f` on the next state of a result. -/
def andThen (r : Result) (f : State → Result) : Result :=
  match r with
  | .next s => f s
  | .fault e => .fault e
  | .refused e => .refused e

/-! ### Emission -/

/-- Append events to this step's output list, in order. -/
def emitAll (es : List Event) (s : State) : State := { s with events := s.events ++ es }

/-- `emit(e)`. -/
def emit (e : Event) (s : State) : State := emitAll [e] s

/-- `emit_tx(b)`. -/
def emitTx (b : Byte) (s : State) : State := emit (.tx b) s

/-- `emit_frame(cmd, p)` (41_codec.md R120): the frame's bytes, contiguous, in order. -/
def emitFrame (c : Command) (p : List Byte) (s : State) : State := emitAll ((frameBytes c p).map Event.tx) s

/-! ### Engine -/

/-- `commit(s)` (43_engine_common.md R164), in full even when the speed does not change. -/
def commit (v : Speed) (s : State) : State :=
  emitAll [.baud (baudFor v), .speedChanged v] { s with currentSpeed := v }

/-- `finish(ok, cause)` (44_master.md R193). -/
def finish (ok : Bool) (cause : Cause) (s : State) : State :=
  emit (.negDone ok cause) { s with seqState := .idle }

/-- Enter a wait state of the sequencer: `seq_t0 <- now; seq_state <- w` (10_state.md R32). -/
def enterWait (w : SeqState) (s : State) : State := { s with seqT0 := s.now, seqState := w }

/-- `test_state <- t`. -/
def setTestState (t : TestState) (s : State) : State := { s with testState := t }

/-- Emit the Active Sensing byte: `emit_tx(FE); last_as_tx_time <- now` (10_state.md R26). -/
def emitActiveSense (s : State) : State := { emitTx 0xFE s with lastAsTxTime := s.now }

/-- `emit(CMD_REJECTED(op, reason))`; nothing else changes (60_exceptions.md R255). -/
def rejectCommand (op : BitVec 3) (r : Reason) (s : State) : State := emit (.cmdRejected op r) s

/-! ### Receive buffer -/

/-- `last_rx_time <- now` (42_reassembler.md R140). -/
def stampRx (s : State) : State := { s with lastRxTime := s.now }

/-- `rx_buf[0] <- F0; rx_len <- 1` (R141). -/
def startFrame (s : State) : State := { s with rxBuf := s.rxBuf.set 0 0xF0, rxLen := 1 }

/-- `rx_buf[rx_len] <- b; rx_len <- rx_len + 1` (R142). -/
def storeByte (b : Byte) (s : State) : State := { s with rxBuf := s.rxBuf.set s.rxLen b, rxLen := s.rxLen + 1 }

/-- `rx_len <- 0`: the reassembler is outside a frame (R143, R145). -/
def leaveFrame (s : State) : State := { s with rxLen := 0 }

/-- The candidate `rx_buf[0 .. rx_len-1]` (R143). -/
def candidate (s : State) : List Byte := s.rxBuf.take s.rxLen

/-- A byte other than F0 that ends no frame: ignored outside a frame (R144), an overflow at a full buffer (R145), else
stored (R142). -/
def storeOrDrop (b : Byte) (s : State) : State :=
  if s.rxLen = 0 then s
  else if s.rxLen = s.cfg.rxBufCap then leaveFrame s
  else storeByte b s

/-! ### Inputs and readiness -/

/-- The port sample of the coming step: the first listed one, else the free value (log 1). -/
def currentSample (s : State) : PortSample :=
  match s.inputs with
  | p :: _ => p
  | [] => Config.unlistedSample s.unlisted

/-- The sample is used up. -/
def dropSample (s : State) : State :=
  match s.inputs with
  | _ :: rest => { s with inputs := rest }
  | [] => { s with unlisted := s.unlisted + 1 }

/-- `space`: always in the abstract model; in the RTL, at least `STEP_EV_MAX` free FIFO entries (10_state.md R41). -/
def space (s : State) : Bool :=
  match s.cfg.evFifoDepth with
  | none => true
  | some d => decide (s.fifo.length + stepEvMax ≤ d)

/-- `rx_ready` of a step with `rst = 0` (R41). -/
def rxReady (s : State) : Bool := space s && s.seqState != .settle

/-- `cmd_ready` of a step with `rst = 0` (R41). -/
def cmdReady (s : State) : Bool := space s && s.seqState == .idle

/-! ### The frame of a step -/

/-- Start of a step: sample `now`, no events yet, note what is taken (43_engine_common.md R160). -/
def beginStep (nowMs : Ms) (rx cmd : Bool) (s : State) : State :=
  { s with now := nowMs, events := [], takenRx := rx, takenCmd := cmd }

/-- The FIFO's head leaves it in a step with `ev_ready = 1` (10_state.md R40). -/
def popFifo (evReady : Bool) (s : State) : State :=
  { s with fifo := if evReady then s.fifo.tail else s.fifo }

/-- The step's events enter the FIFO behind what it holds (R40); the abstract model has no FIFO. -/
def pushFifo (s : State) : State :=
  { s with fifo := if s.cfg.evFifoDepth.isSome then s.fifo ++ s.events else s.fifo }

/-- A stall: nothing is taken, no register changes, no event; only the FIFO's head may leave (R41; log 7). -/
def stall (evReady : Bool) (s : State) : State :=
  popFifo evReady { s with events := [], takenRx := false, takenCmd := false }

/-- A step with `rst = 1`: the table of 70_reset_and_hazards.md R280, no event, an empty FIFO. The build stays (R281),
and so do the model's own input fields. -/
def resetStep (s : State) : State :=
  { State.resetOf s.cfg with now := s.now, inputs := s.inputs, unlisted := s.unlisted }

end Sys2Proof.Machine
end

