-- ==== Sys2Proof/Machine/HostOps.lean ====
section
/-! DEFINITION. The host operations (46_host_ops.md; NEGOTIATE and PUSH 44_master.md R180, R181), each with the checks of
R236 in their order: reserved op, then role, then speed id. -/

namespace Sys2Proof.Machine

/-- RESERVED_0 (46_host_ops.md R233). -/
def execReserved0 (s : State) : Result := .next (rejectCommand 0 .reservedOp s)

/-- SET_SUPPORTED (R230, R234), any role. -/
def execSetSupported (speed : BitVec 4) (cert : Bool) (s : State) : Result :=
  match fromField speed with
  | none => .next (rejectCommand 1 .badSpeedId s)
  | some v => .next { s with localCaps := addCap s.localCaps v cert }

/-- Start a negotiation (44_master.md R180). -/
def startNegotiation (target : Speed) (timeout : Ms) (s : State) : State :=
  enterWait .waitAnswer (emitFrame .speedRequest [] { s with seqTarget := target, seqTimeout := timeout })

/-- NEGOTIATE (R180; 46_host_ops.md R234, R235). -/
def execNegotiate (speed : BitVec 4) (timeout : Ms) (s : State) : Result :=
  if !mayOriginate s.cfg.role then .next (rejectCommand 2 .role s)
  else
    match fromField speed with
    | none => .next (rejectCommand 2 .badSpeedId s)
    | some v => .next (startNegotiation v timeout s)

/-- PUSH (44_master.md R181; 46_host_ops.md R234, R235): the frame goes out at the old rate, then the commit. -/
def execPush (speed : BitVec 4) (s : State) : Result :=
  if !mayOriginate s.cfg.role then .next (rejectCommand 3 .role s)
  else
    match fromField speed with
    | none => .next (rejectCommand 3 .badSpeedId s)
    | some v => .next (commit v (emitFrame .speedPush [idByte v] s))

/-- TICK, the active-sensing watchdog (46_host_ops.md R231): the revert excludes the keep-alive byte. -/
def execTick (s : State) : Result :=
  if s.currentSpeed = .x1 then .next s
  else if elapsed s.now s.lastRxTime > s.cfg.wdRxTimeoutMs then .next (setTestState .idle (commit .x1 s))
  else if elapsed s.now s.lastAsTxTime > s.cfg.asTxPeriodMs then .next (emitActiveSense s)
  else .next s

/-- SEND_ACTIVE_SENSE (R232). -/
def execSendActiveSense (s : State) : Result :=
  if s.currentSpeed = .x1 then .next s else .next (emitActiveSense s)

/-- RESERVED_6 (R233). -/
def execReserved6 (s : State) : Result := .next (rejectCommand 6 .reservedOp s)

/-- RESERVED_7 (R233). -/
def execReserved7 (s : State) : Result := .next (rejectCommand 7 .reservedOp s)

end Sys2Proof.Machine
end

