-- ==== Sys2Proof/Machine/Master.lean ====
section
/-! DEFINITION. The responses a master handles, each only in its own wait state (44_master.md R182 to R187, R192), and
the sequencer's time rules, run in the SEQ phase of every step (43_engine_common.md R162; 44_master.md R185, R188 to
R191). -/

namespace Sys2Proof.Machine

/-- Send SpeedNegotiate and await the Ack (44_master.md R182, step 4). -/
def requestNegotiation (test : Speed) (s : State) : State :=
  enterWait .waitAck (emitFrame .speedNegotiate [idByte test, idByte s.seqTarget] { s with seqTest := test })

/-- SPEED_ANSWER (R182): the target must be supported by the peer, then a probe speed must exist. -/
def execSpeedAnswer (m1 m2 c1 c2 : Byte) (s : State) : Result :=
  if mayOriginate s.cfg.role && s.seqState == .waitAnswer then
    if !has (capsFromBytes m1 m2 c1 c2) (some s.seqTarget) then .next (finish false .speedUnsupported s)
    else
      match selectTest s.cfg.probePolicy (capsFromBytes m1 m2 c1 c2) s.seqTarget with
      | none => .next (finish false .noProbeSpeed s)
      | some test => .next (requestNegotiation test s)
  else .next s

/-- SPEED_ACK (R184): without a live test commit and succeed, else the breathing bytes and `SETTLE`. -/
def execSpeedAck (s : State) : Result :=
  if mayOriginate s.cfg.role && s.seqState == .waitAck then
    if s.seqTarget = .x1 || s.seqTest = s.seqTarget then .next (finish true .ok (commit s.seqTarget s))
    else .next (enterWait .settle (emitAll (List.replicate s.cfg.breathBytes (.tx 0x00)) s))
  else .next s

/-- SPEED_RESULT (R186): the master checks the pattern. -/
def execSpeedResult (pattern : List Byte) (s : State) : Result :=
  if mayOriginate s.cfg.role && s.seqState == .waitResult then
    if pattern = testPattern then .next (enterWait .waitResult2 (emitFrame .speedTest2 [] s))
    else .next (finish false .testBadPattern (commit .x1 s))
  else .next s

/-- SPEED_RESULT2 (R187). -/
def execSpeedResult2 (s : State) : Result :=
  if mayOriginate s.cfg.role && s.seqState == .waitResult2 then
    .next (finish true .ok (commit s.seqTarget s))
  else .next s

/-! ### The SEQ phase -/

/-- The end of `SETTLE` (R185): commit the test speed, then SpeedTest at the test rate. -/
def endSettle (s : State) : State :=
  enterWait .waitResult (emitFrame .speedTest testPattern (commit s.seqTest s))

/-- The SEQ phase, on the `seq_state` the RX phase leaves (43_engine_common.md R162). -/
def seqTime (s : State) : Result :=
  match s.seqState with
  | .idle => .next s
  | .waitAnswer =>
    if elapsed s.now s.seqT0 > s.seqTimeout.toNat then .next (finish false .noAnswer s) else .next s
  | .waitAck =>
    if elapsed s.now s.seqT0 > s.seqTimeout.toNat then .next (finish false .noAck s) else .next s
  | .settle =>
    if elapsed s.now s.seqT0 ≥ s.cfg.settleMs then .next (endSettle s) else .next s
  | .waitResult =>
    if elapsed s.now s.seqT0 > s.cfg.testTimeoutMs then .next (finish false .testTimeout (commit .x1 s)) else .next s
  | .waitResult2 =>
    if elapsed s.now s.seqT0 > s.cfg.testTimeoutMs then .next (finish false .test2Timeout (commit .x1 s)) else .next s

end Sys2Proof.Machine
end

