-- ==== Sys2Proof/Machine/Slave.lean ====
section
/-! DEFINITION. The frames a slave answers, and SpeedPush, which every role handles (45_slave.md). Each meaning first
tests its condition of 43_engine_common.md R167; where it is false the frame is ignored (45_slave.md R215). -/

namespace Sys2Proof.Machine

/-- SPEED_REQUEST (45_slave.md R210). -/
def execSpeedRequest (s : State) : Result :=
  if mayAnswer s.cfg.role then
    .next (emit .speedRequested (emitFrame .speedAnswer (capsBytes s.localCaps) s))
  else .next s

/-- The direct path of SpeedNegotiate: the Ack goes out at the old rate, then the commit (45_slave.md R211). -/
def acceptDirectly (target : Speed) (s : State) : State :=
  setTestState .idle (commit target (emitFrame .speedAck [] s))

/-- The test path of SpeedNegotiate (R211). -/
def acceptForTest (test target : Speed) (s : State) : State :=
  setTestState .awaitingTest { emitFrame .speedAck [] s with pendingTest := test, pendingTarget := target }

/-- SPEED_NEGOTIATE (R211), in any `test_state`, and with `ROLE = EITHER` during a negotiation too (43_engine_common.md R168;
log 19: 44_master.md R194 does not reckon with its commit). -/
def execSpeedNegotiate (testId targetId : Byte) (s : State) : Result :=
  if mayAnswer s.cfg.role then
    match fromId targetId with
    | none => .next s
    | some tg =>
      if !has s.localCaps (some tg) then .next s
      else if tg = .x1 || (isCertified s.localCaps (some tg) && fromId testId == some tg) then
        .next (acceptDirectly tg s)
      else
        match fromId testId with
        | none => .next s
        | some ts => .next (acceptForTest ts tg s)
  else .next s

/-- SPEED_TEST (R212): on the pattern the commit comes before the SpeedResult; any other payload is a failed test.
With `ROLE = EITHER` it runs during a negotiation too (log 19). -/
def execSpeedTest (pattern : List Byte) (s : State) : Result :=
  if mayAnswer s.cfg.role && s.testState == .awaitingTest then
    if pattern = testPattern then
      .next (setTestState .awaitingTest2 (emitFrame .speedResult testPattern (commit s.pendingTest s)))
    else .next (setTestState .idle (commit .x1 s))
  else .next s

/-- SPEED_TEST2 (R213): the SpeedResult2 comes before the commit. With `ROLE = EITHER` it runs during a negotiation too
(log 19). -/
def execSpeedTest2 (s : State) : Result :=
  if mayAnswer s.cfg.role && s.testState == .awaitingTest2 then
    .next (setTestState .idle (commit s.pendingTarget (emitFrame .speedResult2 [] s)))
  else .next s

/-- SPEED_PUSH (R214): any role, any state, a master in the middle of a negotiation too (log 19: 44_master.md R194 does not
reckon with its commit); `has_local(none)` is false. -/
def execSpeedPush (speedId : Byte) (s : State) : Result :=
  match fromId speedId with
  | none => .next s
  | some v => if has s.localCaps (some v) then .next (commit v s) else .next s

end Sys2Proof.Machine
end

