-- ==== Sys2Proof/Machine/Reassembler.lean ====
section
/-! DEFINITION. The SysEx reassembler: one meaning per byte class (42_reassembler.md), and the dispatch of an accepted
frame to its handler within the same RX phase (R147; 43_engine_common.md R167). -/

namespace Sys2Proof.Machine

/-- Dispatch of an accepted frame (43_engine_common.md R167). The codec accepts only frames; for the other instructions
there is nothing to do. -/
def dispatchFrame (i : Instr) (s : State) : Result :=
  match i with
  | .speedRequest => execSpeedRequest s
  | .speedAnswer m1 m2 c1 c2 => execSpeedAnswer m1 m2 c1 c2 s
  | .speedNegotiate a g => execSpeedNegotiate a g s
  | .speedAck => execSpeedAck s
  | .speedTest p => execSpeedTest p s
  | .speedResult p => execSpeedResult p s
  | .speedTest2 => execSpeedTest2 s
  | .speedResult2 => execSpeedResult2 s
  | .speedPush x => execSpeedPush x s
  | .rxF0 => .next s
  | .rxF7 => .next s
  | .rxFE => .next s
  | .rxByte _ => .next s
  | .reserved0 => .next s
  | .setSupported _ _ => .next s
  | .negotiate _ _ => .next s
  | .push _ => .next s
  | .tick => .next s
  | .sendActiveSense => .next s
  | .reserved6 => .next s
  | .reserved7 => .next s

/-- The end of a frame: F7 is stored, the reassembler leaves the frame, and the candidate is decoded and dispatched, or
dropped silently (42_reassembler.md R143; 41_codec.md R127). -/
def endFrame (s : State) : Result :=
  match decodeFrame (candidate (storeByte 0xF7 s)) with
  | .accept i => dispatchFrame i (leaveFrame (storeByte 0xF7 s))
  | .reject _ => .next (leaveFrame (storeByte 0xF7 s))

/-- RX_F0 (R140, R141): a frame starts, whatever `rx_len` is. -/
def execRxF0 (s : State) : Result := .next (startFrame (stampRx s))

/-- RX_F7 (R140, R143 to R145): ignored outside a frame, an overflow at a full buffer, else the end of the frame. -/
def execRxF7 (s : State) : Result :=
  if s.rxLen = 0 then .next (stampRx s)
  else if s.rxLen = s.cfg.rxBufCap then .next (leaveFrame (stampRx s))
  else endFrame (stampRx s)

/-- RX_FE (R140, R146): no effect of its own; inside a frame it is stored like any byte. -/
def execRxFE (s : State) : Result := .next (storeOrDrop 0xFE (stampRx s))

/-- RX_BYTE (R140, R142, R144, R145). -/
def execRxByte (b : Byte) (s : State) : Result := .next (storeOrDrop b (stampRx s))

end Sys2Proof.Machine
end

