-- ==== Sys2Proof/Machine/Dispatch.lean ====
section
/-! DEFINITION. exec: one arm per constructor of Instr. -/

namespace Sys2Proof.Machine

def exec (i : Instr) (s : State) : Host.Outcome State Fault Refusal :=
  match i with
  | .speedRequest => Sys2Proof.Machine.execSpeedRequest s
  | .speedAnswer m1 m2 c1 c2 => Sys2Proof.Machine.execSpeedAnswer m1 m2 c1 c2 s
  | .speedNegotiate testId targetId => Sys2Proof.Machine.execSpeedNegotiate testId targetId s
  | .speedAck => Sys2Proof.Machine.execSpeedAck s
  | .speedTest pattern => Sys2Proof.Machine.execSpeedTest pattern s
  | .speedResult pattern => Sys2Proof.Machine.execSpeedResult pattern s
  | .speedTest2 => Sys2Proof.Machine.execSpeedTest2 s
  | .speedResult2 => Sys2Proof.Machine.execSpeedResult2 s
  | .speedPush speedId => Sys2Proof.Machine.execSpeedPush speedId s
  | .rxF0 => Sys2Proof.Machine.execRxF0 s
  | .rxF7 => Sys2Proof.Machine.execRxF7 s
  | .rxFE => Sys2Proof.Machine.execRxFE s
  | .rxByte b => Sys2Proof.Machine.execRxByte b s
  | .reserved0 => Sys2Proof.Machine.execReserved0 s
  | .setSupported speed cert => Sys2Proof.Machine.execSetSupported speed cert s
  | .negotiate speed timeout => Sys2Proof.Machine.execNegotiate speed timeout s
  | .push speed => Sys2Proof.Machine.execPush speed s
  | .tick => Sys2Proof.Machine.execTick s
  | .sendActiveSense => Sys2Proof.Machine.execSendActiveSense s
  | .reserved6 => Sys2Proof.Machine.execReserved6 s
  | .reserved7 => Sys2Proof.Machine.execReserved7 s

end Sys2Proof.Machine
end

