-- ==== Sys2Proof/Machine/Phases.lean ====
section
/-! DEFINITION. A step on one sample of the ports (43_engine_common.md R160): reset, stall, or the phases RX, SEQ and CMD,
each run through `exec` on the decoded input; and how an encoded input is placed for the next step (log 5). -/

namespace Sys2Proof.Machine

/-- The RX phase: the offered byte, if it is taken (43_engine_common.md R161). -/
def rxPhase (taken : Bool) (b : Byte) (s : State) : Result :=
  if taken then exec (decodeByte b) s else .next s

/-- The CMD phase: the offered command word, if it is taken (R163). -/
def cmdPhase (taken : Bool) (w : CmdWord) (s : State) : Result :=
  if taken then exec (decodeCommand w) s else .next s

/-- The three phases, each on the state the one before it leaves; readiness is that of the step's start. -/
def phases (p : PortSample) (s : State) : Result :=
  andThen
    (rxPhase (p.rxValid && rxReady s) p.rxData
      (beginStep p.nowMs (p.rxValid && rxReady s) (p.cmdValid && cmdReady s) s))
    (fun s1 => andThen (seqTime s1) (fun s2 => cmdPhase (p.cmdValid && cmdReady s) p.cmdWord s2))

/-- A step on a given sample of the ports. -/
def stepOn (p : PortSample) (s : State) : Result :=
  if p.rst then .next (resetStep s)
  else if !space s then .next (stall p.evReady s)
  else andThen (phases p s) (fun t => .next (pushFifo (popFifo p.evReady t)))

/-! ### Placing an instruction for the next step -/

/-- The sample that offers one byte. Its `ev_ready` is 0 (log 5; a program line sets its own, log 21). -/
def byteSample (nowMs : Ms) (b : Byte) : PortSample :=
  { rst := false, nowMs := nowMs, rxValid := true, rxData := b, cmdValid := false, cmdWord := 0, evReady := false }

/-- The sample that offers one command word. Its `ev_ready` is 0 (log 5; a program line sets its own, log 21). -/
def commandSample (nowMs : Ms) (w : CmdWord) : PortSample :=
  { rst := false, nowMs := nowMs, rxValid := false, rxData := 0, cmdValid := true, cmdWord := w, evReady := false }

/-- The receive buffer holding all of a frame but its last byte, at `rx_len` its length. -/
def withFrameBody (body : List Byte) (s : State) : State :=
  { s with rxBuf := body ++ s.rxBuf.drop body.length, rxLen := body.length }

/-- The state with an encoded input placed so that the very next step runs it: a byte or a command word as the next
sample; a frame as the buffer's contents and its closing byte as the next sample (log 5). -/
def withInput (e : Encoded) (s : State) : State :=
  match e with
  | .byte b => { s with inputs := byteSample s.now b :: s.inputs }
  | .command w => { s with inputs := commandSample s.now w :: s.inputs }
  | .frame f =>
    { withFrameBody f.dropLast s with inputs := byteSample s.now (f.getLast?.getD 0x00) :: s.inputs }

/-- A state that can take the input: where a port is not ready (a negotiation in progress for a command, `SETTLE` for a
byte, a full FIFO), the sequencer is put back to IDLE and the FIFO emptied, and nothing else (log 5). -/
def madeReady (e : Encoded) (s : State) : State :=
  match e with
  | .command _ => if cmdReady s then s else { s with seqState := .idle, fifo := if space s then s.fifo else [] }
  | _ => if rxReady s then s else { s with seqState := .idle, fifo := if space s then s.fifo else [] }

end Sys2Proof.Machine
end

