-- ==== Sys2Proof/Machine/Step.lean ====
section
/-! DEFINITION. The step of the machine, and `withFetchWord`, which places an instruction where the next step takes its
input. -/

namespace Sys2Proof.Machine

/-- One step: the coming sample is used up and the step runs on it. -/
def step (s : State) : Host.Outcome State Fault Refusal :=
  stepOn (currentSample s) (dropSample s)

/-- `s` with the table word `w` of `nbits` bits placed so that `step` runs it next. -/
def State.withFetchWord (s : State) (nbits w : Nat) : State :=
  withInput (tableInput nbits w) (madeReady (tableInput nbits w) s)

end Sys2Proof.Machine
end

