-- ==== Sys2Proof/Machine/Assembly.lean ====
section
/-! DEFINITION. The input syntax of 30_encoding.md R86: its terms, the text each is written as, and what each stands for:
a frame's bytes, a command word, the port samples of a line. -/

namespace Sys2Proof.Machine

/-- A speed operand: a name, or `#n` for a wire id that may be out of range. `w` is the width of the field it goes into. -/
inductive SpeedText (w : Nat)
  | named (s : Speed)
  | raw (n : BitVec w)
deriving DecidableEq, Repr

/-- A frame by its mnemonic. SPEED_TEST and SPEED_RESULT without operands carry `TEST_PATTERN`. -/
inductive FrameText
  | speedRequest
  | speedAnswer (m1 m2 c1 c2 : Byte)
  | speedNegotiate (test target : SpeedText 8)
  | speedAck
  | speedTest
  | speedTestOf (p0 p1 p2 p3 p4 p5 p6 p7 : Byte)
  | speedResult
  | speedResultOf (p0 p1 p2 p3 p4 p5 p6 p7 : Byte)
  | speedTest2
  | speedResult2
  | speedPush (speed : SpeedText 8)
deriving DecidableEq, Repr

/-- A host command by its mnemonic; `raw` is `.cmd`. -/
inductive CommandText
  | setSupported (speed : SpeedText 4) (cert : Bool)
  | negotiate (speed : SpeedText 4) (timeout : Ms)
  | push (speed : SpeedText 4)
  | tick
  | sendActiveSense
  | raw (w : CmdWord)
deriving DecidableEq, Repr

/-- A program line at time `t`. -/
inductive Line
  | rx (t : Ms) (b : Byte)
  | rxFrame (t : Ms) (f : FrameText)
  | rxBytes (t : Ms) (bytes : List Byte)
  | command (t : Ms) (c : CommandText)
  | both (t : Ms) (b : Byte) (c : CommandText)
  | idle (t : Ms)
deriving DecidableEq, Repr

/-! ### What they stand for -/

/-- The id in the field. -/
def speedTextId {w : Nat} (x : SpeedText w) : BitVec w :=
  match x with
  | .named s => BitVec.ofNat w (idFor s)
  | .raw n => n

/-- The frame's instruction. -/
def frameTextInstr (f : FrameText) : Instr :=
  match f with
  | .speedRequest => .speedRequest
  | .speedAnswer m1 m2 c1 c2 => .speedAnswer m1 m2 c1 c2
  | .speedNegotiate a g => .speedNegotiate (speedTextId a) (speedTextId g)
  | .speedAck => .speedAck
  | .speedTest => .speedTest testPattern
  | .speedTestOf p0 p1 p2 p3 p4 p5 p6 p7 => .speedTest [p0, p1, p2, p3, p4, p5, p6, p7]
  | .speedResult => .speedResult testPattern
  | .speedResultOf p0 p1 p2 p3 p4 p5 p6 p7 => .speedResult [p0, p1, p2, p3, p4, p5, p6, p7]
  | .speedTest2 => .speedTest2
  | .speedResult2 => .speedResult2
  | .speedPush x => .speedPush (speedTextId x)

/-- The frame's bytes. -/
def frameTextBytes (f : FrameText) : List Byte :=
  match f with
  | .speedRequest => frameBytes .speedRequest []
  | .speedAnswer m1 m2 c1 c2 => frameBytes .speedAnswer [m1, m2, c1, c2]
  | .speedNegotiate a g => frameBytes .speedNegotiate [speedTextId a, speedTextId g]
  | .speedAck => frameBytes .speedAck []
  | .speedTest => frameBytes .speedTest testPattern
  | .speedTestOf p0 p1 p2 p3 p4 p5 p6 p7 => frameBytes .speedTest [p0, p1, p2, p3, p4, p5, p6, p7]
  | .speedResult => frameBytes .speedResult testPattern
  | .speedResultOf p0 p1 p2 p3 p4 p5 p6 p7 => frameBytes .speedResult [p0, p1, p2, p3, p4, p5, p6, p7]
  | .speedTest2 => frameBytes .speedTest2 []
  | .speedResult2 => frameBytes .speedResult2 []
  | .speedPush x => frameBytes .speedPush [speedTextId x]

/-- The command word. -/
def commandTextWord (c : CommandText) : CmdWord :=
  match c with
  | .setSupported s cert => cmdWordOf 1 (speedTextId s) cert 0
  | .negotiate s t => cmdWordOf 2 (speedTextId s) false t
  | .push s => cmdWordOf 3 (speedTextId s) false 0
  | .tick => cmdWordOf 4 0 false 0
  | .sendActiveSense => cmdWordOf 5 0 false 0
  | .raw w => w

/-- The offers of a line: one step, or one step for each byte, all at the line's time. -/
def lineOffers (l : Line) : List PortSample :=
  match l with
  | .rx t b => [byteSample t b]
  | .rxFrame t f => (frameTextBytes f).map (byteSample t)
  | .rxBytes t bytes => bytes.map (byteSample t)
  | .command t c => [commandSample t (commandTextWord c)]
  | .both t b c => [{ byteSample t b with cmdValid := true, cmdWord := commandTextWord c }]
  | .idle t => [{ byteSample t 0x00 with rxValid := false }]

/-- The samples of a line. R86 names only `now`, the byte and the command of a step; `ev_ready` is a parameter here, the same
in every step of a program, and `rst` is 0 (log 21). -/
def lineSamples (evReady : Bool) (l : Line) : List PortSample :=
  (lineOffers l).map (fun p : PortSample => { p with evReady := evReady })

/-- A build right after reset with a program of lines to come (log 21). -/
def programState (c : Config) (evReady : Bool) (program : List Line) : State :=
  { State.resetOf c with inputs := program.flatMap (lineSamples evReady) }

/-! ### How they are written -/

/-- The name of a speed. -/
def speedLabel (s : Speed) : String :=
  match s with
  | .x1 => "1x"
  | .x2 => "2x"
  | .x3_3 => "3.3x"
  | .x4 => "4x"
  | .x5 => "5x"
  | .x6_6 => "6.6x"
  | .x8 => "8x"
  | .x10 => "10x"
  | .x13_3 => "13.3x"
  | .x16 => "16x"
  | .x20 => "20x"

/-- A speed operand as text. -/
def speedTextString {w : Nat} (x : SpeedText w) : String :=
  match x with
  | .named s => speedLabel s
  | .raw n => "#" ++ toString n.toNat

/-- A hex digit, in upper case. -/
def hexDigit (n : Nat) : String := ((["0", "1", "2", "3", "4", "5", "6", "7", "8", "9", "A", "B", "C", "D", "E", "F"])[n]?).getD "?"

/-- The last `k` hex digits of a number. -/
def hexText (k n : Nat) : String :=
  match k with
  | 0 => ""
  | j + 1 => hexText j (n / 16) ++ hexDigit (n % 16)

/-- Bytes as two hex digits each, with a separator. -/
def bytesText (sep : String) (bytes : List Byte) : String := sep.intercalate (bytes.map (fun b => hexText 2 b.toNat))

/-- A frame as text. -/
def frameTextString (f : FrameText) : String :=
  match f with
  | .speedRequest => "SPEED_REQUEST"
  | .speedAnswer m1 m2 c1 c2 => "SPEED_ANSWER " ++ bytesText ", " [m1, m2, c1, c2]
  | .speedNegotiate a g => "SPEED_NEGOTIATE " ++ speedTextString a ++ ", " ++ speedTextString g
  | .speedAck => "SPEED_ACK"
  | .speedTest => "SPEED_TEST"
  | .speedTestOf p0 p1 p2 p3 p4 p5 p6 p7 => "SPEED_TEST " ++ bytesText ", " [p0, p1, p2, p3, p4, p5, p6, p7]
  | .speedResult => "SPEED_RESULT"
  | .speedResultOf p0 p1 p2 p3 p4 p5 p6 p7 => "SPEED_RESULT " ++ bytesText ", " [p0, p1, p2, p3, p4, p5, p6, p7]
  | .speedTest2 => "SPEED_TEST2"
  | .speedResult2 => "SPEED_RESULT2"
  | .speedPush x => "SPEED_PUSH " ++ speedTextString x

/-- A host command as text. -/
def commandTextString (c : CommandText) : String :=
  match c with
  | .setSupported s cert => "SET_SUPPORTED " ++ speedTextString s ++ ", " ++ (if cert then "1" else "0")
  | .negotiate s t => "NEGOTIATE " ++ speedTextString s ++ ", " ++ toString t.toNat
  | .push s => "PUSH " ++ speedTextString s
  | .tick => "TICK"
  | .sendActiveSense => "SEND_ACTIVE_SENSE"
  | .raw w => ".cmd 0x" ++ hexText 10 w.toNat

/-- A line as text. -/
def lineString (l : Line) : String :=
  match l with
  | .rx t b => "@" ++ toString t.toNat ++ " rx " ++ bytesText " " [b]
  | .rxFrame t f => "@" ++ toString t.toNat ++ " rx " ++ frameTextString f
  | .rxBytes t bytes => "@" ++ toString t.toNat ++ " rx .bytes " ++ bytesText " " bytes
  | .command t c => "@" ++ toString t.toNat ++ " cmd " ++ commandTextString c
  | .both t b c => "@" ++ toString t.toNat ++ " rx " ++ bytesText " " [b] ++ " ; cmd " ++ commandTextString c
  | .idle t => "@" ++ toString t.toNat ++ " idle"

end Sys2Proof.Machine
end

