-- ==== Sys2Proof/Machine/Flags.lean ====
section
/-! DEFINITION. The block has no flag register (10_state.md R36): its status is the level outputs, each a function of the
state (R37), the readiness outputs (R41) and the event port (R39, R40). With the register and event codes of R27, R31,
R39 and 30_encoding.md R84, R85. -/

namespace Sys2Proof.Machine

/-- The code of `test_state` (10_state.md R27). -/
def testStateCode (t : TestState) : BitVec 2 :=
  match t with
  | .idle => 0
  | .awaitingTest => 1
  | .awaitingTest2 => 2

/-- The code of `seq_state` (R31). -/
def seqStateCode (q : SeqState) : BitVec 3 :=
  match q with
  | .idle => 0
  | .waitAnswer => 1
  | .waitAck => 2
  | .settle => 3
  | .waitResult => 4
  | .waitResult2 => 5

/-- The code of a `NEG_DONE` cause (30_encoding.md R84). -/
def causeCode (c : Cause) : BitVec 4 :=
  match c with
  | .ok => 0
  | .noAnswer => 1
  | .speedUnsupported => 2
  | .noProbeSpeed => 3
  | .noAck => 4
  | .testTimeout => 5
  | .test2Timeout => 6
  | .testBadPattern => 7

/-- The code of a `CMD_REJECTED` reason (R85). -/
def reasonCode (r : Reason) : BitVec 2 :=
  match r with
  | .reservedOp => 1
  | .badSpeedId => 2
  | .role => 3

/-- `current_speed_id[3:0]` (R37). -/
def currentSpeedId (s : State) : BitVec 4 := BitVec.ofNat 4 (idFor s.currentSpeed)

/-- `baud_rate[19:0]` (R37). -/
def baudRate (s : State) : BitVec 20 := (baudFor s.currentSpeed).setWidth 20

/-- `busy` (R36, R37). -/
def busy (s : State) : Bool := s.seqState != .idle

/-- `test_state_o[1:0]` (R37). -/
def testStateOut (s : State) : BitVec 2 := testStateCode s.testState

/-- `rx_ready` of the coming step: 0 where `rst = 1` (R41). -/
def rxReadyPort (s : State) : Bool := !(currentSample s).rst && rxReady s

/-- `cmd_ready` of the coming step: 0 where `rst = 1` (R41). -/
def cmdReadyPort (s : State) : Bool := !(currentSample s).rst && cmdReady s

/-- `ev_kind` of an event (R39). -/
def evKind (e : Event) : BitVec 3 :=
  match e with
  | .tx _ => 0
  | .baud _ => 1
  | .speedChanged _ => 2
  | .speedRequested => 3
  | .negDone _ _ => 4
  | .cmdRejected _ _ => 5

/-- `ev_data` of an event; bits R40 does not list are 0. -/
def evData (e : Event) : BitVec 20 :=
  match e with
  | .tx b => b.setWidth 20
  | .baud r => r.setWidth 20
  | .speedChanged v => BitVec.ofNat 20 (idFor v)
  | .speedRequested => 0
  | .negDone ok c => (BitVec.ofBool ok ++ causeCode c).setWidth 20
  | .cmdRejected op r => (reasonCode r ++ (0 : BitVec 1) ++ op).setWidth 20

/-- The event port: `ev_kind` and `ev_data` of the FIFO's head; `none` where `ev_valid = 0`, for which the spec gives the
other two no value (R38, R40; log 13). -/
def evPort (s : State) : Option (BitVec 3 × BitVec 20) := s.fifo.head?.map (fun e => (evKind e, evData e))

/-- `ev_valid`. -/
def evValid (s : State) : Bool := (evPort s).isSome

end Sys2Proof.Machine
end

