-- ==== Sys2Proof/Machine/Duties.lean ====
section
/-! DEFINITION. The duties of the environment (70_reset_and_hazards.md R283 to R291) as named premises, never as faults
(60_exceptions.md R258): on the samples it offers, on true time, and on what a transport does with the output stream. What
a premise speaks of that the block cannot see (true time, the speeds an end supports, the transport's own acts) is its
parameter (log 15). -/

namespace Sys2Proof.Machine

/-! ### Offers (R284, R286) -/

/-- The coming step takes the offered byte (10_state.md R41). -/
def takesByte (s : State) : Bool := (currentSample s).rxValid && rxReadyPort s

/-- The coming step takes the offered command (R41). -/
def takesCommand (s : State) : Bool := (currentSample s).cmdValid && cmdReadyPort s

/-- R286, bytes: a byte offered and not taken by the step from `s` to `t` is offered again, unchanged. -/
def holdsByte (s t : State) : Bool :=
  !((currentSample s).rxValid && !t.takenRx)
    || ((currentSample t).rxValid && (currentSample t).rxData == (currentSample s).rxData)

/-- R286, R284: a command offered and not taken is offered again, unchanged. While `busy = 1` this is the wider reading of R284's
"holds its next command": the host may keep it on the port (log 25). -/
def holdsCommand (s t : State) : Bool :=
  !((currentSample s).cmdValid && !t.takenCmd)
    || ((currentSample t).cmdValid && (currentSample t).cmdWord == (currentSample s).cmdWord)

/-- R284, the stricter reading of "holds its next command": the host keeps it back and offers none while `busy = 1`. That the
duty forbids the offer and not only its being taken is the model's choice (log 25). -/
def noReentry (s : State) : Bool := !(busy s) || !(currentSample s).cmdValid

/-- R291: the consumer leaves no event at the FIFO's head for more than `most` steps in a row; at `waited` it has lain there
for so many. How fast a consumer must drain no source says, so `most` is a parameter, and stalls are allowed: at
`EV_FIFO_DEPTH = 34` even a consumer with `ev_ready = 1` in every step meets one after any event (log 23). -/
def drainsFifo (most waited : Nat) (run : List State) : Bool :=
  match run with
  | [] => true
  | s :: rest =>
    let p := currentSample s
    let w := if s.fifo == [] || p.evReady || p.rst then 0 else waited + 1
    decide (w ≤ most) && drainsFifo most w rest

/-- The stronger premise of a claim about an RTL that never stalls: there is room for a step (R291; 10_state.md R41). That the
duty asks for it is not what R291 says (log 23). -/
def neverStalls (s : State) : Bool := space s

/-! ### True time (R287, R288) -/

/-- R287 from the sample `a` on. -/
def clockTrueFrom (a : Nat × PortSample) (run : List (Nat × PortSample)) : Bool :=
  match run with
  | [] => true
  | b :: rest =>
    decide (a.1 ≤ b.1) && elapsed b.2.nowMs a.2.nowMs == (b.1 - a.1) % 2 ^ 32 && clockTrueFrom b rest

/-- R287: the samples of successive steps, each with the true time of its step in milliseconds: `now_ms` advances from one
to the next by the true elapsed time modulo 2^32. -/
def clockTrue (run : List (Nat × PortSample)) : Bool :=
  match run with
  | [] => true
  | a :: rest => clockTrueFrom a rest

/-- The coming step is a stall (10_state.md R41). -/
def isStall (s : State) : Bool := !(currentSample s).rst && !space s

/-- R287, last clause: from true time `last` of one step that is no stall on, steps that are no stalls come at least once in
a millisecond. A run is the states before its steps, each with the true time of the step. -/
def stepsEachMillisecond (last : Nat) (run : List (Nat × State)) : Bool :=
  match run with
  | [] => true
  | e :: rest => decide (e.1 ≤ last + 1) && stepsEachMillisecond (if isStall e.2 then last else e.1) rest

/-- The coming step takes a TICK. -/
def takesTick (s : State) : Bool := takesCommand s && cmdOp (currentSample s).cmdWord == 4

/-- R288: from true time `last` of one TICK on, the next is taken before more than `gap` milliseconds have passed. No source
gives the gap. -/
def ticksWithin (gap last : Nat) (run : List (Nat × State)) : Bool :=
  match run with
  | [] => true
  | e :: rest => decide (e.1 ≤ last + gap) && ticksWithin gap (if takesTick e.2 then e.1 else last) rest

/-! ### Boot (R283) -/

/-- One boot: the reset steps, the configuration, and what follows up to the next reset, each as the states before its steps,
with the true times; and the bit rate the transport is set to. -/
structure Boot where
  rate : BitVec 32
  resets : List State
  config : List (Nat × State)
  rest : List (Nat × State)
deriving DecidableEq, Repr

/-- Each state is what the step of the one before it answers. -/
def isRun (run : List State) : Bool :=
  match run with
  | [] => true
  | s :: rest =>
    (match rest, step s with
      | [], _ => true
      | t :: _, .next u => u == t
      | _ :: _, .fault _ => false
      | _ :: _, .refused _ => false) && isRun rest

/-- The states of a boot, in order. -/
def bootRun (b : Boot) : List State := b.resets ++ (b.config ++ b.rest).map (·.2)

/-- The coming step takes SET_SUPPORTED for this speed and this certification. -/
def configures (v : Speed) (cert : Bool) (s : State) : Bool :=
  takesCommand s && decodeCommand (currentSample s).cmdWord == .setSupported (BitVec.ofNat 4 (idFor v)) cert

/-- The sample offers NEGOTIATE, PUSH or TICK. -/
def usesLink (p : PortSample) : Bool :=
  p.cmdValid && (cmdOp p.cmdWord == 2 || cmdOp p.cmdWord == 3 || cmdOp p.cmdWord == 4)

/-- The bytes the peer sent, as a run's offers show them: an offer that repeats `held`, the one byte offered and not taken in
the step before, is that byte offered again (R286) and not another. -/
def sentBytes (held : Option Byte) (run : List State) : List Byte :=
  match run with
  | [] => []
  | s :: rest =>
    let p := currentSample s
    (if p.rxValid && held != some p.rxData then [p.rxData] else [])
      ++ sentBytes (if p.rxValid && !takesByte s then some p.rxData else none) rest

/-- The 7-byte header of a command's frames (30_encoding.md R72). -/
def frameHeader (c : Command) : List Byte := [0xF0] ++ manufacturer ++ [commandCode c]

/-- A frame of `c` begins among the bytes the peer sent during the configuration. Bytes offered only in the reset steps, which
the block ignores, do not count, which is the model's choice (log 26). -/
def frameBegins (c : Command) (b : Boot) : Bool :=
  let sent := sentBytes none ((b.config ++ b.rest).map (·.2))
  (List.range (sentBytes none (b.config.map (·.2))).length).any (fun k => (frameHeader c).isPrefixOf (sent.drop k))

/-- R283. `supported` is what this end supports above 1×, each with its certification. In order: at least one reset step,
with the transport at 31250 baud; then the clock runs; then SET_SUPPORTED is taken for each supported speed, before the peer
sends a SpeedRequest or SpeedNegotiate; and only then NEGOTIATE, PUSH or TICK are offered (log 15). -/
def bootOrder (supported : List (Speed × Bool)) (b : Boot) : Bool :=
  b.rate == baudFor .x1 && b.resets != [] && isRun (bootRun b)
    && b.resets.all (fun s => (currentSample s).rst) && (b.config ++ b.rest).all (fun e => !(currentSample e.2).rst)
    && clockTrue ((b.config ++ b.rest).map (fun e => (e.1, currentSample e.2)))
    && supported.all (fun e => b.config.any (fun q => configures e.1 e.2 q.2))
    && !frameBegins .speedRequest b && !frameBegins .speedNegotiate b
    && b.config.all (fun e => !usesLink (currentSample e.2))

/-! ### The transport (R285, R289) -/

/-- The bytes of an event list, each with the bit rate at which it is to be sent: `BAUD` divides the byte stream
(20_memory.md R59(c)). -/
def sentAtRate (r : BitVec 32) (es : List Event) : List (BitVec 32 × Byte) :=
  match es with
  | [] => []
  | .tx b :: rest => (r, b) :: sentAtRate r rest
  | .baud q :: rest => sentAtRate q rest
  | .speedChanged _ :: rest => sentAtRate r rest
  | .speedRequested :: rest => sentAtRate r rest
  | .negDone _ _ :: rest => sentAtRate r rest
  | .cmdRejected _ _ :: rest => sentAtRate r rest

/-- What is done to the transmit side, in order: a byte of the block's is sent, a byte of the environment's own is put into
the stream, the bit rate is changed. -/
inductive TransmitAct
  | sends (b : Byte)
  | ownByte (b : Byte)
  | setsRate (r : BitVec 32)
deriving DecidableEq, Repr

/-- R285: in the state `s`, while `busy = 1` or `test_state ≠ Idle`, the environment puts no byte of its own into the
transmit stream; else it may. -/
def noApplicationTraffic (s : State) (acts : List TransmitAct) : Bool :=
  !(busy s || s.testState != .idle) || acts.all (fun a => match a with
    | .sends _ => true
    | .ownByte _ => false
    | .setsRate _ => true)

/-- A byte at the front of the first of a list of segments. -/
def consByte (b : Byte) (segments : List (BitVec 32 × List Byte)) : List (BitVec 32 × List Byte) :=
  match segments with
  | [] => []
  | (r, bs) :: rest => (r, b :: bs) :: rest

/-- The byte stream of an event list, divided at each `BAUD`: each segment's rate and bytes. -/
def emittedSegments (r : BitVec 32) (es : List Event) : List (BitVec 32 × List Byte) :=
  match es with
  | [] => [(r, [])]
  | .tx b :: rest => consByte b (emittedSegments r rest)
  | .baud q :: rest => (r, []) :: emittedSegments q rest
  | .speedChanged _ :: rest => emittedSegments r rest
  | .speedRequested :: rest => emittedSegments r rest
  | .negDone _ _ :: rest => emittedSegments r rest
  | .cmdRejected _ _ :: rest => emittedSegments r rest

/-- The block's bytes that a transport has sent, divided at each change of its rate. -/
def sentSegments (r : BitVec 32) (acts : List TransmitAct) : List (BitVec 32 × List Byte) :=
  match acts with
  | [] => [(r, [])]
  | .sends b :: rest => consByte b (sentSegments r rest)
  | .ownByte _ :: rest => sentSegments r rest
  | .setsRate q :: rest => (r, []) :: sentSegments q rest

/-- Each sent segment stands at the rate of the emitted one and holds the first of its bytes, in order. -/
def segmentsFit (emitted sent : List (BitVec 32 × List Byte)) : Bool :=
  match emitted, sent with
  | _, [] => true
  | [], _ :: _ => false
  | a :: as, b :: bs => a.1 == b.1 && b.2.isPrefixOf a.2 && segmentsFit as bs

/-- R289, R285, transmit side: a transport that started at rate `r` changes its rate only on `BAUD` events, in their order,
and each between the bytes emitted before it and those emitted after it. What it has sent of a segment is the first of its
bytes: at a change of rate the rest, then in flight, may have been sent or dropped, the open `BAUD_SWITCH_POLICY`
(20_memory.md R60; log 22). -/
def transmitsInPlace (r : BitVec 32) (es : List Event) (acts : List TransmitAct) : Bool :=
  segmentsFit (emittedSegments r es) (sentSegments r acts)

/-- What the receive side sees, in order, each at its true time: a `BAUD` event, and a byte received at some rate. -/
inductive ReceiveEntry
  | baud (time : Nat) (r : BitVec 32)
  | byte (time : Nat) (b : Byte) (r : BitVec 32)
deriving DecidableEq, Repr

/-- R289, receive side: a byte is received at the rate of the last `BAUD` event, or at a rate that a `BAUD` event has replaced,
until `near` milliseconds after that event. `replaced` holds each such rate with the true time of its event. The rule says
"near that event" and gives no figure, so `near` is a parameter; a second event within `near` does not cut the first one's
time short (log 22). -/
def receivesNear (near : Nat) (rate : BitVec 32) (replaced : List (BitVec 32 × Nat)) (entries : List ReceiveEntry) : Bool :=
  match entries with
  | [] => true
  | .baud time r :: rest => receivesNear near r ((rate, time) :: replaced) rest
  | .byte time _ r :: rest =>
    (r == rate || replaced.any (fun q => q.1 == r && decide (time ≤ q.2 + near))) && receivesNear near rate replaced rest

end Sys2Proof.Machine
end

