-- ==== Sys2Proof/Safety.lean ====
section
/-! DEFINITION. What claims are stated in: the invariants of 70_reset_and_hazards.md R281, runs and their output stream,
the end of a run (R293), listeners of the output stream, and the comparisons of states. The environment's duties are in
Sys2Proof/Machine/Duties.lean. -/

namespace Sys2Proof.Machine

/-! ### Invariants (70_reset_and_hazards.md R281) -/

/-- Every certification bit set has its support bit set, and no reserved bit is set (10_state.md R22, R23). -/
def capsSound (c : Caps) : Bool :=
  c.c1 &&& ~~~c.m1 == 0 && c.c2 &&& ~~~c.m2 == 0 && c.m1 &&& 0x80 == 0 && c.m2 &&& 0xF8 == 0
    && c.c1 &&& 0x80 == 0 && c.c2 &&& 0xF8 == 0

/-- `rx_buf` has `RX_BUF_CAP` bytes, `rx_len ≤ RX_BUF_CAP`, and a frame in progress starts with F0 (10_state.md R29, R30). -/
def bufferSound (s : State) : Bool :=
  s.rxBuf.length == s.cfg.rxBufCap && decide (s.rxLen ≤ s.cfg.rxBufCap)
    && (s.rxLen == 0 || s.rxBuf.head? == some 0xF0)

/-- A master's `test_state` stays Idle and a slave's `seq_state` stays IDLE (10_state.md R27, R31). -/
def roleSound (s : State) : Bool :=
  (mayAnswer s.cfg.role || s.testState == .idle) && (mayOriginate s.cfg.role || s.seqState == .idle)

/-- The probe speed fits the negotiation's position: a 1× target has no other probe (44_master.md R183, R184), and a live
test runs only for another speed than the target. -/
def probeSound (s : State) : Bool :=
  match s.seqState with
  | .idle => true
  | .waitAnswer => true
  | .waitAck => s.seqTarget != .x1 || s.seqTest == .x1
  | .settle => s.seqTarget != .x1 && s.seqTest != s.seqTarget
  | .waitResult => s.seqTarget != .x1 && s.seqTest != s.seqTarget
  | .waitResult2 => s.seqTarget != .x1 && s.seqTest != s.seqTarget

/-- The FIFO holds at most its depth, and nothing in the abstract model (10_state.md R40; 43_engine_common.md R169). -/
def fifoSound (s : State) : Bool :=
  match s.cfg.evFifoDepth with
  | none => s.fifo == []
  | some d => decide (s.fifo.length ≤ d)

/-- The build is one that 00_scope.md R7 admits, with the source's literals. -/
def buildSound (s : State) : Bool := s.cfg.legal && s.cfg.literalsAsGiven

/-- The block's own invariants, together. -/
def stateSound (s : State) : Bool :=
  buildSound s && capsSound s.localCaps && bufferSound s && roleSound s && probeSound s && fifoSound s

/-! ### Runs -/

/-- `k` steps; a run of this block never stops (60_exceptions.md R258). -/
def runSteps (k : Nat) (s : State) : Result :=
  match k with
  | 0 => .next s
  | k + 1 => andThen (step s) (runSteps k)

/-- The output event stream of `k` steps (00_scope.md R8; 20_memory.md R57). -/
def outputStream (k : Nat) (s : State) : List Event :=
  match k with
  | 0 => []
  | k + 1 =>
    match step s with
    | .next t => t.events ++ outputStream k t
    | .fault _ => []
    | .refused _ => []

/-- A run is over: no input is pending, no negotiation is in progress, the FIFO is empty (70_reset_and_hazards.md R293). The
pending inputs are the listed samples of the steps to come: an offer of the last one that was not taken is pending only
where it is listed again, as R286 asks (log 24). -/
def runOver (s : State) : Bool := s.inputs == [] && s.seqState == .idle && s.fifo == []

/-- The frame that the coming step's byte completes and the codec accepts (42_reassembler.md R143; 41_codec.md R126). -/
def completedFrame (s : State) : Option Instr :=
  if (currentSample s).rxValid && rxReadyPort s && (currentSample s).rxData == 0xF7 && s.rxLen != 0
      && s.rxLen != s.cfg.rxBufCap then
    match decodeFrame (candidate (storeByte 0xF7 s)) with
    | .accept i => some i
    | .reject _ => none
  else none

/-- The frames whose rules in 45_slave.md (R211 to R214) can commit a speed. -/
def slaveRuleCommits (i : Instr) : Bool :=
  match i with
  | .speedNegotiate _ _ => true
  | .speedTest _ => true
  | .speedTest2 => true
  | .speedPush _ => true
  | .speedRequest => false
  | .speedAnswer _ _ _ _ => false
  | .speedAck => false
  | .speedResult _ => false
  | .speedResult2 => false
  | .rxF0 => false
  | .rxF7 => false
  | .rxFE => false
  | .rxByte _ => false
  | .reserved0 => false
  | .setSupported _ _ => false
  | .negotiate _ _ => false
  | .push _ => false
  | .tick => false
  | .sendActiveSense => false
  | .reserved6 => false
  | .reserved7 => false

/-- `k` steps of a negotiation in progress that only the rules 44_master.md R194 is derived from (R180 to R193) can end or
commit in: no reset, and no frame completed whose rule in 45_slave.md can commit (log 19). -/
def undisturbed (k : Nat) (s : State) : Bool :=
  match k with
  | 0 => true
  | k + 1 =>
    busy s && !(currentSample s).rst && !(completedFrame s).any slaveRuleCommits
      && (match step s with
        | .next t => undisturbed k t
        | .fault _ => false
        | .refused _ => false)

/-- What a consumer of the FIFO receives in a step: its head, where `ev_ready = 1` and the step is no reset (R40). -/
def consumedIn (s : State) : List Event :=
  if (currentSample s).evReady && !(currentSample s).rst then s.fifo.head?.toList else []

/-! ### Feeding bytes, and comparing states -/

/-- The meanings of a byte list's byte classes, one after the other, at one `now` (42_reassembler.md R149). -/
def feedBytes (bytes : List Byte) (s : State) : Result :=
  match bytes with
  | [] => .next s
  | b :: rest => andThen (exec (decodeByte b) s) (feedBytes rest)

/-- The speed a listener of the output stream believes in: that of the last `SPEED_CHANGED`. -/
def speedAfter (v : Speed) (es : List Event) : Speed :=
  match es with
  | [] => v
  | .speedChanged w :: rest => speedAfter w rest
  | _ :: rest => speedAfter v rest

/-- The bit rate of a transport that follows the output stream: that of the last `BAUD`. -/
def rateAfter (r : BitVec 32) (es : List Event) : BitVec 32 :=
  match es with
  | [] => r
  | .baud q :: rest => rateAfter q rest
  | _ :: rest => rateAfter r rest

/-- The number of `NEG_DONE` events in a list. -/
def negDoneCount (es : List Event) : Nat :=
  es.countP (fun e => match e with
    | .negDone _ _ => true
    | _ => false)

/-- The state without its receive buffer and its capacity. -/
def withoutBuffer (s : State) : State :=
  { s with cfg := { s.cfg with rxBufCap := 0 }, rxBuf := [], rxLen := 0 }

/-- Two reassemblers of different capacity that can still dispatch the same frames: both outside a frame, both in the same
frame, or one in a frame already too long to be accepted that the other has dropped (42_reassembler.md R148). -/
def sameFrameInProgress (s t : State) : Prop :=
  (s.rxLen = 0 ∧ t.rxLen = 0) ∨ (s.rxLen ≠ 0 ∧ t.rxLen ≠ 0 ∧ candidate s = candidate t)
    ∨ (s.rxLen = 0 ∧ 16 ≤ t.rxLen) ∨ (16 ≤ s.rxLen ∧ t.rxLen = 0)

/-- States that differ at most in the receive buffer's capacity and in what R148 allows of its contents. -/
def sameButCapacity (s t : State) : Prop :=
  withoutBuffer s = withoutBuffer t ∧ sameFrameInProgress s t

/-- A port sample at a clock `d` milliseconds further on. -/
def laterSample (d : Ms) (p : PortSample) : PortSample := { p with nowMs := p.nowMs + d }

/-- A state whose clock and timestamps all stand `d` milliseconds further on, modulo 2^32. -/
def laterState (d : Ms) (s : State) : State :=
  { s with
    lastRxTime := s.lastRxTime + d, lastAsTxTime := s.lastAsTxTime + d, seqT0 := s.seqT0 + d, now := s.now + d,
    inputs := s.inputs.map (laterSample d) }

/-- The steps of the sequencer that 44_master.md R195 draws, and staying where it is. -/
def sequencerPath (a b : SeqState) : Bool :=
  a == b ||
  (match a, b with
    | .idle, .waitAnswer => true
    | .waitAnswer, .idle => true
    | .waitAnswer, .waitAck => true
    | .waitAck, .idle => true
    | .waitAck, .settle => true
    | .settle, .waitResult => true
    | .waitResult, .waitResult2 => true
    | .waitResult, .idle => true
    | .waitResult2, .idle => true
    | _, _ => false)

end Sys2Proof.Machine
end

