-- ==== Sys2Proof/Certificates/Slice0/Obligations.lean ====
section
/-! DEFINITION. The statements for the provers. -/

open Sys2Proof Sys2Proof.Machine

/-! ### Encoding and the codec -/

/-- Decoding the encoding of a well-formed instruction gives it back, for every instruction and operand (41_codec.md
R121, R126; 30_encoding.md R82). -/
def Obligations.DecodeOfEncodeGivesTheInstruction : Prop :=
  ∀ i : Instr, wellFormed i = true → decode (encode i) = .accept i

/-- An accepted frame is the encoding of the well-formed instruction it decodes to, so no two frames share one; a received
byte is the encoding of its row. -/
def Obligations.DecodedInputIsItsEncoding : Prop :=
  (∀ (f : List Byte) (i : Instr), decodeFrame f = .accept i → wellFormed i = true ∧ encode i = .frame f) ∧
  (∀ b : Byte, wellFormed (decodeByte b) = true ∧ encode (decodeByte b) = .byte b)

/-- A candidate is accepted only if the four checks pass, and then with the payload `f[7 .. L-2]` (R122 to R126). -/
def Obligations.CodecAcceptsExactlyTheFourChecks : Prop :=
  ∀ (f : List Byte) (i : Instr), decodeFrame f = .accept i ↔
    (2 ≤ f.length ∧ f[0]? = some 0xF0 ∧ f[f.length - 1]? = some 0xF7) ∧
    (6 ≤ f.length ∧ (f.drop 1).take 5 = [0x00, 0x20, 0x3C, 0x00, 0x00]) ∧
    ∃ c : Command, f[6]? = some (commandCode c) ∧ f.length = 8 + payloadLength c ∧
      frameInstr c ((f.drop 7).take (f.length - 8)) = some i

/-- Every frame the block builds has the frame layout and passes the codec with its own command and payload (R120, R121). -/
def Obligations.BuiltFramesPassTheCodec : Prop :=
  ∀ (c : Command) (p : List Byte), p.length = payloadLength c →
    (frameBytes c p)[0]? = some 0xF0 ∧ ((frameBytes c p).drop 1).take 5 = [0x00, 0x20, 0x3C, 0x00, 0x00] ∧
    (frameBytes c p)[6]? = some (commandCode c) ∧ (frameBytes c p).getLast? = some 0xF7 ∧
    (frameBytes c p).length = 8 + payloadLength c ∧
    ∃ i, frameInstr c p = some i ∧ decodeFrame (frameBytes c p) = .accept i

/-- A few words written out from the spec decode to the instructions they stand for. -/
def Obligations.WrittenWordsDecode : Prop :=
  decodeFrame [0xF0, 0x00, 0x20, 0x3C, 0x00, 0x00, 0x12, 0x07, 0x04, 0xF7] = .accept (.speedNegotiate 0x07 0x04) ∧
  decodeFrame [0xF0, 0x00, 0x20, 0x3C, 0x00, 0x00, 0x20, 0x04, 0xF7] = .accept (.speedPush 0x04) ∧
  decodeFrame [0xF0, 0x00, 0x20, 0x3D, 0x00, 0x00, 0x20, 0x02, 0xF7] = .reject .badManufacturer ∧
  decodeByte 0xFE = .rxFE ∧ decodeByte 0x80 = .rxByte 0x80 ∧
  decodeCommand 0x0000001E22 = .negotiate 4 30 ∧ decodeCommand 0x0000000091 = .setSupported 2 true ∧
  decodeCommand 0x000000003B = .push 7

/-- A field of the command word that the operation does not use is ignored (30_encoding.md R82, R83). -/
def Obligations.UnusedCommandBitsAreIgnored : Prop :=
  ∀ w v : CmdWord,
    (∀ k, k < 3 → w.getLsbD k = v.getLsbD k) →
    (cmdOp w = 1 ∨ cmdOp w = 2 ∨ cmdOp w = 3 → ∀ k, 3 ≤ k → k < 7 → w.getLsbD k = v.getLsbD k) →
    (cmdOp w = 1 → w.getLsbD 7 = v.getLsbD 7) →
    (cmdOp w = 2 → ∀ k, 8 ≤ k → k < 40 → w.getLsbD k = v.getLsbD k) →
    decodeCommand w = decodeCommand v

/-- Every frame and command of the input syntax decodes to the instruction its mnemonic and operands name (30_encoding.md
R86). -/
def Obligations.AssembledInputsDecode : Prop :=
  (∀ f : FrameText, decodeFrame (frameTextBytes f) = .accept (frameTextInstr f)) ∧
  (∀ (s : SpeedText 4) (cert : Bool), decodeCommand (commandTextWord (.setSupported s cert)) = .setSupported (speedTextId s) cert) ∧
  (∀ (s : SpeedText 4) (t : Ms), decodeCommand (commandTextWord (.negotiate s t)) = .negotiate (speedTextId s) t) ∧
  (∀ s : SpeedText 4, decodeCommand (commandTextWord (.push s)) = .push (speedTextId s)) ∧
  decodeCommand (commandTextWord .tick) = .tick ∧ decodeCommand (commandTextWord .sendActiveSense) = .sendActiveSense ∧
  (∀ v : Speed, speedOfId (speedTextId (.named v : SpeedText 4)).toNat = some v ∧ fromId (speedTextId (.named v)) = some v)

/-! ### Speed table, capability set, probe speed -/

/-- `baud_for`, `id_for`, `from_id` and `next_higher` (40_speed_caps.md R100 to R103). -/
def Obligations.SpeedTableValues : Prop :=
  allSpeeds.map (fun s => (idFor s, (baudFor s).toNat)) =
    [(1, 31250), (2, 62500), (3, 103125), (4, 125000), (5, 156250), (6, 206250), (7, 250000), (8, 312500), (9, 415625),
      (10, 500000), (11, 625000)] ∧
  (∀ s : Speed, s ∈ allSpeeds) ∧
  (∀ (b : Byte) (s : Speed), fromId b = some s ↔ b.toNat = idFor s) ∧
  (∀ s t : Speed, nextHigher s = some t ↔ idFor t = idFor s + 1)

/-- `has` and `is_certified` read one bit each: bits 0 to 6 of M1/C1 for ids 2 to 8, bits 0 to 2 of M2/C2 for ids 9 to 11;
1× is always there and an undecoded id never (40_speed_caps.md R104 to R106). -/
def Obligations.CapabilityQueriesReadTheirBit : Prop :=
  ∀ (c : Caps) (s : Speed),
    has c none = false ∧ isCertified c none = false ∧
    has c (some s) = (if idFor s = 1 then true else if idFor s ≤ 8 then c.m1.getLsbD (idFor s - 2) else c.m2.getLsbD (idFor s - 9)) ∧
    isCertified c (some s) =
      (if idFor s = 1 then true else if idFor s ≤ 8 then c.c1.getLsbD (idFor s - 2) else c.c2.getLsbD (idFor s - 9))

/-- `add` sets the support bit of `s`, its certification bit where asked, and leaves every other bit as it was; 1× has no
bit (40_speed_caps.md R107). -/
def Obligations.AddSetsOnlyItsOwnBits : Prop :=
  ∀ (c : Caps) (s : Speed) (cert : Bool) (k : Nat), k < 8 →
    (addCap c s cert).m1.getLsbD k = (c.m1.getLsbD k || (decide (2 ≤ idFor s ∧ idFor s ≤ 8) && k == idFor s - 2)) ∧
    (addCap c s cert).m2.getLsbD k = (c.m2.getLsbD k || (decide (9 ≤ idFor s) && k == idFor s - 9)) ∧
    (addCap c s cert).c1.getLsbD k = (c.c1.getLsbD k || (cert && decide (2 ≤ idFor s ∧ idFor s ≤ 8) && k == idFor s - 2)) ∧
    (addCap c s cert).c2.getLsbD k = (c.c2.getLsbD k || (cert && decide (9 ≤ idFor s) && k == idFor s - 9))

/-- The laws of the capability set: the byte round trip, what `add` makes true, idempotence, commutativity, and the
invariant that a certification bit has its support bit (40_speed_caps.md R109). -/
def Obligations.CapabilitySetLaws : Prop :=
  (∀ c : Caps, (match capsBytes c with
    | [a, b, d, e] => capsFromBytes a b d e = c
    | _ => False)) ∧
  (∀ (c : Caps) (s : Speed) (x : Bool), has (addCap c s x) (some s) = true) ∧
  (∀ (c : Caps) (s : Speed), isCertified (addCap c s true) (some s) = true) ∧
  (∀ (c : Caps) (s : Speed) (x : Bool), addCap (addCap c s x) s x = addCap c s x) ∧
  (∀ (c : Caps) (s t : Speed) (x y : Bool), addCap (addCap c s x) t y = addCap (addCap c t y) s x) ∧
  (∀ (c : Caps) (s : Speed) (x : Bool), (∀ v, isCertified c (some v) = true → has c (some v) = true) →
    ∀ v, isCertified (addCap c s x) (some v) = true → has (addCap c s x) (some v) = true) ∧
  (∀ (c d : Caps) (s : Speed) (p : CapPair) (k : Nat), capBit s = some (p, k) →
    ((supByte c p).getLsbD k = (supByte d p).getLsbD k → has c (some s) = has d (some s)) ∧
    ((certByte c p).getLsbD k = (certByte d p).getLsbD k → isCertified c (some s) = isCertified d (some s)))

/-- The probe speed: 1× for a 1× target, the target where certified, else the successor, the smallest higher supported
speed, or the smallest higher supported and certified speed, by policy (44_master.md R183). -/
def Obligations.ProbeSpeedIsTheSmallestAllowed : Prop :=
  ∀ (policy : ProbePolicy) (rc : Caps) (t v : Speed),
    selectTest policy rc t = some v ↔
      (t = .x1 ∧ v = .x1) ∨ (t ≠ .x1 ∧ isCertified rc (some t) = true ∧ v = t) ∨
      (t ≠ .x1 ∧ isCertified rc (some t) = false ∧ policy = .successor ∧ idFor v = idFor t + 1) ∨
      (t ≠ .x1 ∧ isCertified rc (some t) = false ∧ policy = .nextSupported ∧ idFor t < idFor v ∧ has rc (some v) = true ∧
        ∀ w : Speed, idFor t < idFor w → has rc (some w) = true → idFor v ≤ idFor w) ∨
      (t ≠ .x1 ∧ isCertified rc (some t) = false ∧ policy = .nextCertified ∧ idFor t < idFor v ∧
        has rc (some v) = true ∧ isCertified rc (some v) = true ∧
        ∀ w : Speed, idFor t < idFor w → has rc (some w) = true → isCertified rc (some w) = true → idFor v ≤ idFor w)

/-! ### Received bytes -/

/-- RX_F0: the timestamp, and a frame starts whatever `rx_len` is (42_reassembler.md R140, R141). -/
def Obligations.StartByteStartsAFrame : Prop :=
  ∀ s : State, exec .rxF0 s = .next { s with lastRxTime := s.now, rxBuf := s.rxBuf.set 0 0xF0, rxLen := 1 }

/-- RX_BYTE and RX_FE: ignored outside a frame but for the timestamp, an overflow at a full buffer, else stored
(42_reassembler.md R140, R142, R144, R145, R146). -/
def Obligations.BodyByteIsStoredIgnoredOrOverflows : Prop :=
  ∀ (b : Byte) (i : Instr) (s : State), i = .rxByte b ∨ (i = .rxFE ∧ b = 0xFE) →
    exec i s =
      if s.rxLen = 0 then .next { s with lastRxTime := s.now }
      else if s.rxLen = s.cfg.rxBufCap then .next { s with lastRxTime := s.now, rxLen := 0 }
      else .next { s with lastRxTime := s.now, rxBuf := s.rxBuf.set s.rxLen b, rxLen := s.rxLen + 1 }

/-- RX_F7 outside a frame changes only the timestamp; at a full buffer it is an overflow (R140, R144, R145). -/
def Obligations.EndByteOutsideAFrameOrAtAFullBuffer : Prop :=
  ∀ s : State,
    (s.rxLen = 0 → exec .rxF7 s = .next { s with lastRxTime := s.now }) ∧
    (s.rxLen ≠ 0 → s.rxLen = s.cfg.rxBufCap → exec .rxF7 s = .next { s with lastRxTime := s.now, rxLen := 0 })

/-- RX_F7 inside a frame: the candidate is the stored bytes and F7; the reassembler leaves the frame; an accepted frame
runs its instruction in the same step, a rejected one changes nothing more (R143, R147; 41_codec.md R127). -/
def Obligations.EndByteRunsTheDecodedFrame : Prop :=
  ∀ s : State, s.rxLen ≠ 0 → s.rxLen < s.cfg.rxBufCap → s.rxBuf.length = s.cfg.rxBufCap →
    match decodeFrame (s.rxBuf.take s.rxLen ++ [0xF7]) with
    | .accept i => ∃ t,
        exec i { s with lastRxTime := s.now, rxBuf := s.rxBuf.set s.rxLen 0xF7, rxLen := 0 } = .next t ∧
        exec .rxF7 s = .next t
    | .reject _ =>
        exec .rxF7 s = .next { s with lastRxTime := s.now, rxBuf := s.rxBuf.set s.rxLen 0xF7, rxLen := 0 }

/-- Feeding the bytes of a frame instruction's encoding, one at a time, runs exactly that instruction, whatever frame was in
progress before; its payload may hold no F0 and no F7, which would restart or end the frame (42_reassembler.md R141 to
R143, R147). -/
def Obligations.FrameFedByteByByteRunsItsInstruction : Prop :=
  ∀ (i : Instr) (f : List Byte) (s : State), wellFormed i = true → encode i = .frame f →
    (∀ b ∈ (f.drop 7).dropLast, b ≠ 0xF0 ∧ b ≠ 0xF7) →
    16 ≤ s.cfg.rxBufCap → s.rxBuf.length = s.cfg.rxBufCap →
    feedBytes f s =
      exec i { s with lastRxTime := s.now, rxBuf := f ++ s.rxBuf.drop f.length, rxLen := 0 }

/-- A frame that the codec rejects, or that overflows, leaves the state as it was but for the timestamp and the contents of
the receive buffer: FrameRejected and BufferOverflow are silent (60_exceptions.md R251, R252; 41_codec.md R127). -/
def Obligations.BadFrameLeavesOnlyTheTimestamp : Prop :=
  ∀ (body : List Byte) (s : State), (∀ b ∈ body, b ≠ 0xF0 ∧ b ≠ 0xF7) →
    (s.cfg.rxBufCap < body.length + 2 ∨ ∃ why, decodeFrame ([0xF0] ++ body ++ [0xF7]) = .reject why) →
    2 ≤ s.cfg.rxBufCap → s.rxBuf.length = s.cfg.rxBufCap → s.rxLen = 0 →
    ∃ buf : List Byte, buf.length = s.rxBuf.length ∧
      feedBytes ([0xF0] ++ body ++ [0xF7]) s = .next { s with lastRxTime := s.now, rxBuf := buf }

/-! ### Frames a slave answers, and SpeedPush -/

/-- SPEED_REQUEST: the answer carries the capability bytes, then SPEED_REQUESTED; no register changes (45_slave.md R210,
R215). -/
def Obligations.SpeedRequestIsAnswered : Prop :=
  ∀ s : State, exec .speedRequest s =
    if s.cfg.role = .master then .next s
    else .next { s with events := s.events ++
      [.tx 0xF0, .tx 0x00, .tx 0x20, .tx 0x3C, .tx 0x00, .tx 0x00, .tx 0x11, .tx s.localCaps.m1, .tx s.localCaps.m2,
        .tx s.localCaps.c1, .tx s.localCaps.c2, .tx 0xF7, .speedRequested] }

/-- SPEED_NEGOTIATE: an undecodable or unsupported target, or an undecodable test id on the test path, is ignored; a 1×
target, or a certified one that is its own test speed, is acked and committed; else the Ack and `AwaitingTest`
(45_slave.md R211). -/
def Obligations.SpeedNegotiateOutcome : Prop :=
  ∀ (a g : Byte) (s : State), exec (.speedNegotiate a g) s =
    if s.cfg.role = .master then .next s
    else
      match fromId g, fromId a with
      | none, _ => .next s
      | some tg, ts =>
        if has s.localCaps (some tg) = false then .next s
        else if tg = .x1 ∨ (isCertified s.localCaps (some tg) = true ∧ ts = some tg) then
          .next { s with
            currentSpeed := tg, testState := .idle,
            events := s.events ++
              [.tx 0xF0, .tx 0x00, .tx 0x20, .tx 0x3C, .tx 0x00, .tx 0x00, .tx 0x13, .tx 0xF7, .baud (baudFor tg),
                .speedChanged tg] }
        else
          match ts with
          | none => .next s
          | some v =>
            .next { s with
              pendingTest := v, pendingTarget := tg, testState := .awaitingTest,
              events := s.events ++
                [.tx 0xF0, .tx 0x00, .tx 0x20, .tx 0x3C, .tx 0x00, .tx 0x00, .tx 0x13, .tx 0xF7] }

/-- SPEED_TEST: on the pattern, commit the pending test speed, then SpeedResult at that rate; else a failed test
(45_slave.md R212, R215). -/
def Obligations.SpeedTestOutcome : Prop :=
  ∀ (p : List Byte) (s : State), exec (.speedTest p) s =
    if s.cfg.role = .master ∨ s.testState ≠ .awaitingTest then .next s
    else if p = [0x55, 0x55, 0x55, 0x55, 0x00, 0x00, 0x00, 0x00] then
      .next { s with
        currentSpeed := s.pendingTest, testState := .awaitingTest2,
        events := s.events ++
          [.baud (baudFor s.pendingTest), .speedChanged s.pendingTest, .tx 0xF0, .tx 0x00, .tx 0x20, .tx 0x3C, .tx 0x00,
            .tx 0x00, .tx 0x15, .tx 0x55, .tx 0x55, .tx 0x55, .tx 0x55, .tx 0x00, .tx 0x00, .tx 0x00, .tx 0x00, .tx 0xF7] }
    else
      .next { s with
        currentSpeed := .x1, testState := .idle, events := s.events ++ [.baud 31250, .speedChanged .x1] }

/-- SPEED_TEST2: SpeedResult2 at the test rate, then commit the pending target (45_slave.md R213, R215). -/
def Obligations.SpeedTest2Outcome : Prop :=
  ∀ s : State, exec .speedTest2 s =
    if s.cfg.role = .master ∨ s.testState ≠ .awaitingTest2 then .next s
    else
      .next { s with
        currentSpeed := s.pendingTarget, testState := .idle,
        events := s.events ++
          [.tx 0xF0, .tx 0x00, .tx 0x20, .tx 0x3C, .tx 0x00, .tx 0x00, .tx 0x17, .tx 0xF7,
            .baud (baudFor s.pendingTarget), .speedChanged s.pendingTarget] }

/-- SPEED_PUSH, in every role and state: commit a supported speed, ignore any other id (45_slave.md R214). -/
def Obligations.SpeedPushOutcome : Prop :=
  ∀ (x : Byte) (s : State), exec (.speedPush x) s =
    match fromId x with
    | none => .next s
    | some v =>
      if has s.localCaps (some v) = true then
        .next { s with currentSpeed := v, events := s.events ++ [.baud (baudFor v), .speedChanged v] }
      else .next s

/-! ### Responses a master handles, and the sequencer's time rules -/

/-- SPEED_ANSWER: the target must be supported, a probe speed must exist; then SpeedNegotiate and `WAIT_ACK`
(44_master.md R182, R192, R193). -/
def Obligations.SpeedAnswerOutcome : Prop :=
  ∀ (m1 m2 c1 c2 : Byte) (s : State), exec (.speedAnswer m1 m2 c1 c2) s =
    if s.cfg.role = .slave ∨ s.seqState ≠ .waitAnswer then .next s
    else if has ⟨m1, m2, c1, c2⟩ (some s.seqTarget) = false then
      .next { s with seqState := .idle, events := s.events ++ [.negDone false .speedUnsupported] }
    else
      match selectTest s.cfg.probePolicy ⟨m1, m2, c1, c2⟩ s.seqTarget with
      | none => .next { s with seqState := .idle, events := s.events ++ [.negDone false .noProbeSpeed] }
      | some v =>
        .next { s with
          seqTest := v, seqT0 := s.now, seqState := .waitAck,
          events := s.events ++
            [.tx 0xF0, .tx 0x00, .tx 0x20, .tx 0x3C, .tx 0x00, .tx 0x00, .tx 0x12, .tx (BitVec.ofNat 8 (idFor v)),
              .tx (BitVec.ofNat 8 (idFor s.seqTarget)), .tx 0xF7] }

/-- SPEED_ACK: without a live test, commit the target and succeed; else the breathing zeros and `SETTLE` (44_master.md
R184, R192). -/
def Obligations.SpeedAckOutcome : Prop :=
  ∀ s : State, exec .speedAck s =
    if s.cfg.role = .slave ∨ s.seqState ≠ .waitAck then .next s
    else if s.seqTarget = .x1 ∨ s.seqTest = s.seqTarget then
      .next { s with
        currentSpeed := s.seqTarget, seqState := .idle,
        events := s.events ++ [.baud (baudFor s.seqTarget), .speedChanged s.seqTarget, .negDone true .ok] }
    else
      .next { s with
        seqT0 := s.now, seqState := .settle, events := s.events ++ List.replicate s.cfg.breathBytes (.tx 0x00) }

/-- SPEED_RESULT: on the pattern SpeedTest2 and `WAIT_RESULT2`; else commit 1× and fail (44_master.md R186, R192). -/
def Obligations.SpeedResultOutcome : Prop :=
  ∀ (p : List Byte) (s : State), exec (.speedResult p) s =
    if s.cfg.role = .slave ∨ s.seqState ≠ .waitResult then .next s
    else if p = [0x55, 0x55, 0x55, 0x55, 0x00, 0x00, 0x00, 0x00] then
      .next { s with
        seqT0 := s.now, seqState := .waitResult2,
        events := s.events ++ [.tx 0xF0, .tx 0x00, .tx 0x20, .tx 0x3C, .tx 0x00, .tx 0x00, .tx 0x16, .tx 0xF7] }
    else
      .next { s with
        currentSpeed := .x1, seqState := .idle,
        events := s.events ++ [.baud 31250, .speedChanged .x1, .negDone false .testBadPattern] }

/-- SPEED_RESULT2: commit the target and succeed (44_master.md R187, R192). -/
def Obligations.SpeedResult2Outcome : Prop :=
  ∀ s : State, exec .speedResult2 s =
    if s.cfg.role = .slave ∨ s.seqState ≠ .waitResult2 then .next s
    else
      .next { s with
        currentSpeed := s.seqTarget, seqState := .idle,
        events := s.events ++ [.baud (baudFor s.seqTarget), .speedChanged s.seqTarget, .negDone true .ok] }

/-- The end of `SETTLE`: after `SETTLE_MS`, commit the test speed, then SpeedTest at that rate (44_master.md R185). -/
def Obligations.SettleEndsWithSpeedTest : Prop :=
  ∀ s : State, s.seqState = .settle → seqTime s =
    if (s.now - s.seqT0).toNat < s.cfg.settleMs then .next s
    else
      .next { s with
        currentSpeed := s.seqTest, seqT0 := s.now, seqState := .waitResult,
        events := s.events ++
          [.baud (baudFor s.seqTest), .speedChanged s.seqTest, .tx 0xF0, .tx 0x00, .tx 0x20, .tx 0x3C, .tx 0x00, .tx 0x00,
            .tx 0x14, .tx 0x55, .tx 0x55, .tx 0x55, .tx 0x55, .tx 0x00, .tx 0x00, .tx 0x00, .tx 0x00, .tx 0xF7] }

/-- The four deadlines fail a wait when more than its limit has elapsed; the two test waits also commit 1× (44_master.md
R188 to R191). -/
def Obligations.DeadlinesEndTheirWait : Prop :=
  ∀ s : State,
    (s.seqState = .idle → seqTime s = .next s) ∧
    (s.seqState = .waitAnswer → seqTime s =
      if s.seqTimeout.toNat < (s.now - s.seqT0).toNat then
        .next { s with seqState := .idle, events := s.events ++ [.negDone false .noAnswer] }
      else .next s) ∧
    (s.seqState = .waitAck → seqTime s =
      if s.seqTimeout.toNat < (s.now - s.seqT0).toNat then
        .next { s with seqState := .idle, events := s.events ++ [.negDone false .noAck] }
      else .next s) ∧
    (s.seqState = .waitResult → seqTime s =
      if s.cfg.testTimeoutMs < (s.now - s.seqT0).toNat then
        .next { s with
          currentSpeed := .x1, seqState := .idle,
          events := s.events ++ [.baud 31250, .speedChanged .x1, .negDone false .testTimeout] }
      else .next s) ∧
    (s.seqState = .waitResult2 → seqTime s =
      if s.cfg.testTimeoutMs < (s.now - s.seqT0).toNat then
        .next { s with
          currentSpeed := .x1, seqState := .idle,
          events := s.events ++ [.baud 31250, .speedChanged .x1, .negDone false .test2Timeout] }
      else .next s)

/-! ### Host operations -/

/-- SET_SUPPORTED: `add` to the local capabilities, no event; an id outside 1..11 is rejected (46_host_ops.md R230, R234). -/
def Obligations.SetSupportedOutcome : Prop :=
  ∀ (v : BitVec 4) (cert : Bool) (s : State), exec (.setSupported v cert) s =
    match speedOfId v.toNat with
    | none => .next { s with events := s.events ++ [.cmdRejected 1 .badSpeedId] }
    | some w => .next { s with localCaps := addCap s.localCaps w cert }

/-- NEGOTIATE: the role check, the speed check, then SpeedRequest and `WAIT_ANSWER` (44_master.md R180; 46_host_ops.md
R234, R235, R236). -/
def Obligations.NegotiateOutcome : Prop :=
  ∀ (v : BitVec 4) (timeout : Ms) (s : State), exec (.negotiate v timeout) s =
    if s.cfg.role = .slave then .next { s with events := s.events ++ [.cmdRejected 2 .role] }
    else
      match speedOfId v.toNat with
      | none => .next { s with events := s.events ++ [.cmdRejected 2 .badSpeedId] }
      | some w =>
        .next { s with
          seqTarget := w, seqTimeout := timeout, seqT0 := s.now, seqState := .waitAnswer,
          events := s.events ++ [.tx 0xF0, .tx 0x00, .tx 0x20, .tx 0x3C, .tx 0x00, .tx 0x00, .tx 0x10, .tx 0xF7] }

/-- PUSH: the role check, the speed check, then SpeedPush at the old rate and the commit (44_master.md R181;
46_host_ops.md R234, R235, R236). -/
def Obligations.PushOutcome : Prop :=
  ∀ (v : BitVec 4) (s : State), exec (.push v) s =
    if s.cfg.role = .slave then .next { s with events := s.events ++ [.cmdRejected 3 .role] }
    else
      match speedOfId v.toNat with
      | none => .next { s with events := s.events ++ [.cmdRejected 3 .badSpeedId] }
      | some w =>
        .next { s with
          currentSpeed := w,
          events := s.events ++
            [.tx 0xF0, .tx 0x00, .tx 0x20, .tx 0x3C, .tx 0x00, .tx 0x00, .tx 0x20, .tx (v.setWidth 8), .tx 0xF7,
              .baud (baudFor w), .speedChanged w] }

/-- TICK: at 1× nothing; the revert where nothing was received for more than `WD_RX_TIMEOUT_MS`; else the keep-alive byte
after more than `AS_TX_PERIOD_MS` (46_host_ops.md R231). -/
def Obligations.TickOutcome : Prop :=
  ∀ s : State, exec .tick s =
    if s.currentSpeed = .x1 then .next s
    else if s.cfg.wdRxTimeoutMs < (s.now - s.lastRxTime).toNat then
      .next { s with
        currentSpeed := .x1, testState := .idle, events := s.events ++ [.baud 31250, .speedChanged .x1] }
    else if s.cfg.asTxPeriodMs < (s.now - s.lastAsTxTime).toNat then
      .next { s with lastAsTxTime := s.now, events := s.events ++ [.tx 0xFE] }
    else .next s

/-- SEND_ACTIVE_SENSE: FE and its timestamp, except at 1× (46_host_ops.md R232). -/
def Obligations.SendActiveSenseOutcome : Prop :=
  ∀ s : State, exec .sendActiveSense s =
    if s.currentSpeed = .x1 then .next s
    else .next { s with lastAsTxTime := s.now, events := s.events ++ [.tx 0xFE] }

/-- The reserved operations are rejected with reason 1 and change nothing else (46_host_ops.md R233). -/
def Obligations.ReservedOpsAreRejected : Prop :=
  ∀ s : State,
    exec .reserved0 s = .next { s with events := s.events ++ [.cmdRejected 0 .reservedOp] } ∧
    exec .reserved6 s = .next { s with events := s.events ++ [.cmdRejected 6 .reservedOp] } ∧
    exec .reserved7 s = .next { s with events := s.events ++ [.cmdRejected 7 .reservedOp] }

/-! ### The step -/

/-- A step that is neither reset nor stall runs the decoded instructions: the taken byte's, then the sequencer's time rule,
then the taken command's, each on the state the one before left; (43_engine_common.md R160 to R163); then the FIFO's head
leaves, before the step's events enter (10_state.md R40; the order of the two is the model's reading, log 8). That the inputs
are listed in the state is the model's own (log 1). -/
def Obligations.StepRunsTheDecodedInstructions : Prop :=
  ∀ (s : State) (p : PortSample) (rest : List PortSample) (byteInstr cmdInstr : Instr),
    s.inputs = p :: rest → p.rst = false → space s = true →
    decode (.byte p.rxData) = .accept byteInstr → decode (.command p.cmdWord) = .accept cmdInstr →
    ∀ (rx cmd : Bool), rx = (p.rxValid && s.seqState != .settle) → cmd = (p.cmdValid && s.seqState == .idle) →
    step s =
      andThen (if rx then exec byteInstr { s with inputs := rest, now := p.nowMs, events := [], takenRx := rx, takenCmd := cmd }
        else .next { s with inputs := rest, now := p.nowMs, events := [], takenRx := rx, takenCmd := cmd })
      (fun s1 => andThen (seqTime s1)
        (fun s2 => andThen (if cmd then exec cmdInstr s2 else .next s2)
          (fun s3 => .next (pushFifo (popFifo p.evReady s3)))))

/-- A step with `rst = 1` loads the reset table, whatever else is offered, and emits nothing; the build stays
(70_reset_and_hazards.md R280, R281). The contents of `rx_buf`, 00, are the model's choice (log 4). -/
def Obligations.ResetStepLoadsTheTable : Prop :=
  ∀ (s : State) (p : PortSample) (rest : List PortSample), s.inputs = p :: rest → p.rst = true →
    step s = .next
      { cfg := s.cfg, localCaps := ⟨0x00, 0x00, 0x00, 0x00⟩, currentSpeed := .x1, lastRxTime := 0, lastAsTxTime := 0,
        testState := .idle, pendingTest := .x1, pendingTarget := .x1, rxBuf := List.replicate s.cfg.rxBufCap 0x00,
        rxLen := 0, seqState := .idle, seqT0 := 0, seqTimeout := 0, seqTarget := .x1, seqTest := .x1, fifo := [],
        now := s.now, events := [], takenRx := false, takenCmd := false, inputs := rest, unlisted := s.unlisted }

/-- A step without room for 34 events in the FIFO is a stall: no register changes, nothing is taken, no event
(10_state.md R41). That the FIFO's head may still leave it is the model's reading (log 7). -/
def Obligations.StallChangesNothing : Prop :=
  ∀ (s : State) (p : PortSample) (rest : List PortSample) (d : Nat), s.inputs = p :: rest → p.rst = false →
    s.cfg.evFifoDepth = some d → d < s.fifo.length + 34 →
    step s = .next
      { s with
        inputs := rest, events := [], takenRx := false, takenCmd := false,
        fifo := if p.evReady then s.fifo.tail else s.fifo }

/-- Every instruction completes: no meaning ends in a fault or a refusal (60_exceptions.md R250, R258). -/
def Obligations.EveryInstructionCompletes : Prop :=
  ∀ (i : Instr) (s : State), ∃ t, exec i s = .next t

/-- No step stops the block, on any state and any input (R250, R258). -/
def Obligations.EveryStepCompletes : Prop :=
  ∀ s : State, ∃ t, step s = .next t

/-- What a step takes: a byte unless in `SETTLE`, a command only in `IDLE`, and nothing where the FIFO has no room or in a
reset (10_state.md R41). -/
def Obligations.StepTakesWhatIsReady : Prop :=
  ∀ s t : State, step s = .next t →
    t.takenRx = ((currentSample s).rxValid && !(currentSample s).rst && space s && s.seqState != .settle) ∧
    t.takenCmd = ((currentSample s).cmdValid && !(currentSample s).rst && space s && s.seqState == .idle)

/-- A step that takes nothing and meets no deadline changes no register and emits nothing (60_exceptions.md R265). The FIFO of
a build without one is empty in every run; in a state that holds entries there all the same, the head leaves as in any other
step, which is the model's choice (log 8). -/
def Obligations.IdleStepChangesNoRegister : Prop :=
  ∀ (s : State) (p : PortSample) (rest : List PortSample), s.inputs = p :: rest →
    p.rst = false → p.rxValid = false → p.cmdValid = false → s.cfg.evFifoDepth = none → s.seqState = .idle →
    step s = .next { s with
      inputs := rest, now := p.nowMs, events := [], takenRx := false, takenCmd := false,
      fifo := if p.evReady then s.fifo.tail else s.fifo }

/-- One step emits at most 34 events (43_engine_common.md R169), with the source's 16 breathing bytes. -/
def Obligations.StepEmitsAtMost34Events : Prop :=
  ∀ s t : State, s.cfg.breathBytes = 16 → step s = .next t → t.events.length ≤ 34

/-- The event FIFO loses, repeats and reorders nothing: what it held and what the step emitted is what was consumed and
what it holds (10_state.md R40; 20_memory.md R57, R59). It covers stalls too: that the head may leave in one is the model's
reading (log 7), and that it leaves before the events enter is another (log 8). -/
def Obligations.FifoKeepsEveryEventInOrder : Prop :=
  ∀ s t : State, step s = .next t → (currentSample s).rst = false → s.cfg.evFifoDepth.isSome = true →
    s.fifo ++ t.events = consumedIn s ++ t.fifo

/-- The reset state of every build that R7 admits satisfies the block's invariants (70_reset_and_hazards.md R281). Which
build `State.reset` is, is the model's choice (log 3). -/
def Obligations.ResetSatisfiesTheInvariants : Prop :=
  stateSound State.reset = true ∧
  ∀ c : Config, c.legal = true → c.literalsAsGiven = true → stateSound (State.resetOf c) = true

/-- Every step keeps the block's invariants, from every state that has them and on every input (R281). -/
def Obligations.EveryStepKeepsTheInvariants : Prop :=
  ∀ s t : State, stateSound s = true → step s = .next t → stateSound t = true

/-- `current_speed` changes only with its announcement: a listener that follows the `SPEED_CHANGED` events knows it, and a
transport that follows the `BAUD` events runs at `baud_for(current_speed)` (43_engine_common.md R164; 10_state.md R24). -/
def Obligations.SpeedFollowsTheOutputStream : Prop :=
  ∀ s t : State, step s = .next t → (currentSample s).rst = false →
    speedAfter s.currentSpeed t.events = t.currentSpeed ∧
    rateAfter (baudFor s.currentSpeed) t.events = baudFor t.currentSpeed

/-- Where a rule emits a frame and commits, the frame goes out at the rate its rule says: SpeedPush, the SpeedAck of every
direct accept and SpeedResult2 at the old rate, SpeedResult and SpeedTest at the test rate; and the speed afterwards is the one
committed (43_engine_common.md R164, R165; 20_memory.md R59). -/
def Obligations.FramesGoOutAtTheirRate : Prop :=
  ∀ (s t : State) (v : Speed), s.events = [] →
    (s.cfg.role ≠ .slave → exec (.push (BitVec.ofNat 4 (idFor v))) s = .next t →
      sentAtRate (baudFor s.currentSpeed) t.events =
        (frameBytes .speedPush [BitVec.ofNat 8 (idFor v)]).map (fun b => (baudFor s.currentSpeed, b)) ∧ t.currentSpeed = v) ∧
    (∀ a : Byte, s.cfg.role ≠ .master →
      v = .x1 ∨ (has s.localCaps (some v) = true ∧ isCertified s.localCaps (some v) = true ∧ a = idByte v) →
      exec (.speedNegotiate a (idByte v)) s = .next t →
      sentAtRate (baudFor s.currentSpeed) t.events =
        (frameBytes .speedAck []).map (fun b => (baudFor s.currentSpeed, b)) ∧ t.currentSpeed = v) ∧
    (s.cfg.role ≠ .master → s.testState = .awaitingTest2 → exec .speedTest2 s = .next t →
      sentAtRate (baudFor s.currentSpeed) t.events =
        (frameBytes .speedResult2 []).map (fun b => (baudFor s.currentSpeed, b)) ∧ t.currentSpeed = s.pendingTarget) ∧
    (s.cfg.role ≠ .master → s.testState = .awaitingTest → exec (.speedTest testPattern) s = .next t →
      sentAtRate (baudFor s.currentSpeed) t.events =
        (frameBytes .speedResult testPattern).map (fun b => (baudFor s.pendingTest, b)) ∧ t.currentSpeed = s.pendingTest) ∧
    (s.seqState = .settle → s.cfg.settleMs ≤ elapsed s.now s.seqT0 → seqTime s = .next t →
      sentAtRate (baudFor s.currentSpeed) t.events =
        (frameBytes .speedTest testPattern).map (fun b => (baudFor s.seqTest, b)) ∧ t.currentSpeed = s.seqTest)

/-- Only a taken SET_SUPPORTED changes the local capabilities, and it clears no bit (10_state.md R23). -/
def Obligations.CapabilitiesOnlyGrow : Prop :=
  ∀ s t : State, step s = .next t → (currentSample s).rst = false →
    (t.localCaps = s.localCaps ∨ (t.takenCmd = true ∧ cmdOp (currentSample s).cmdWord = 1)) ∧
    ∀ v : Speed, (has s.localCaps (some v) = true → has t.localCaps (some v) = true) ∧
      (isCertified s.localCaps (some v) = true → isCertified t.localCaps (some v) = true)

/-- No step changes the build: `ROLE` is immutable, also over a reset (10_state.md R21; 70_reset_and_hazards.md R281). -/
def Obligations.BuildNeverChanges : Prop :=
  ∀ s t : State, step s = .next t → t.cfg = s.cfg

/-- `last_rx_time` is the time of the last taken byte (10_state.md R25; 42_reassembler.md R140), and `last_as_tx_time` is
written only with `now` (10_state.md R26). -/
def Obligations.TimestampsFollowTheirEvents : Prop :=
  ∀ s t : State, step s = .next t → (currentSample s).rst = false →
    t.lastRxTime = (if t.takenRx then (currentSample s).nowMs else s.lastRxTime) ∧
    (t.lastAsTxTime = s.lastAsTxTime ∨
      (t.lastAsTxTime = (currentSample s).nowMs ∧ Event.tx 0xFE ∈ t.events ∧ t.takenCmd = true))

/-- The sequencer moves only along the paths of R195, and stays IDLE in a slave (44_master.md R195; 10_state.md R31). -/
def Obligations.SequencerMovesOnlyAlongItsPaths : Prop :=
  ∀ s t : State, step s = .next t → (currentSample s).rst = false → 0 < s.cfg.settleMs →
    sequencerPath s.seqState t.seqState = true ∧
    (s.cfg.role = .slave → s.seqState = .idle → t.seqState = .idle)

/-- How `test_state` moves (45_slave.md R211, R212, R213, R216; 10_state.md R27): into `AwaitingTest` only in a step that
takes a byte, never in a master, with the bytes of SpeedAck first among the events; into `AwaitingTest2` only from `AwaitingTest`, with
the commit of the pending test speed first; back to `Idle` only with a commit. A master's test state does not move, given that
it is Idle (`roleSound`); in a state that no run reaches it moves at most to Idle. -/
def Obligations.TestStateMovesOnlyAlongItsPaths : Prop :=
  ∀ s t : State, step s = .next t → (currentSample s).rst = false →
    (s.testState ≠ t.testState →
      (t.testState = .awaitingTest → t.takenRx = true ∧ s.cfg.role ≠ .master ∧
        (frameBytes .speedAck []).map Event.tx <+: t.events) ∧
      (t.testState = .awaitingTest2 → s.testState = .awaitingTest ∧
        [.baud (baudFor s.pendingTest), .speedChanged s.pendingTest] <+: t.events) ∧
      (t.testState = .idle → ∃ v, [.baud (baudFor v), .speedChanged v] <:+: t.events) ∧
      (s.cfg.role = .master → t.testState = .idle)) ∧
    (s.cfg.role = .master → roleSound s = true → t.testState = s.testState)

/-- The outcome of a negotiation: `ok` exactly with cause 0, and then `current_speed` is the target; after cause 5, 6 or 7
it is 1×, announced just before; causes 2 and 3 leave it in that step, and so do 1 and 4 where the step takes no byte
(44_master.md R182, R188 to R191, R193). For causes 1 to 4 this is less than 44_master.md R194 says: SpeedPush, and with
`ROLE = EITHER` a slave's frames, may commit during the negotiation by 45_slave.md R211 to R214, which the model follows (log
19); FailedNegotiationLeavesTheSpeed says when R194's words hold. -/
def Obligations.NegotiationOutcomeFixesTheSpeed : Prop :=
  ∀ (s t : State) (ok : Bool) (c : Cause), step s = .next t → (currentSample s).rst = false →
    Event.negDone ok c ∈ t.events →
    t.seqState = .idle ∧ (ok = true ↔ c = .ok) ∧
    (c = .ok → t.currentSpeed = s.seqTarget) ∧
    (c = .testTimeout ∨ c = .test2Timeout ∨ c = .testBadPattern →
      t.currentSpeed = .x1 ∧ [.baud 31250, .speedChanged .x1, .negDone false c] <:+ t.events) ∧
    (c = .speedUnsupported ∨ c = .noProbeSpeed ∨ ((c = .noAnswer ∨ c = .noAck) ∧ t.takenRx = false) →
      t.currentSpeed = s.currentSpeed)

/-- Exactly one `NEG_DONE` ends a negotiation, in the step in which `busy` falls; no other step emits one (44_master.md
R193, R194). -/
def Obligations.NegotiationEndsInOneNegDone : Prop :=
  ∀ s t : State, step s = .next t → (currentSample s).rst = false →
    negDoneCount t.events = (if busy s = true ∧ busy t = false then 1 else 0)

/-- A negotiation that fails with cause 1, 2, 3 or 4 leaves `current_speed` what it was when NEGOTIATE was taken, which alone
enters `WAIT_ANSWER`, over any number of steps in which only the rules that 44_master.md R194 is derived from, R180 to R193,
are at work: no frame completes whose rule in 45_slave.md can commit. That such a frame does commit during a negotiation, by
45_slave.md R211 to R214 and 43_engine_common.md R168, and that R194 then does not hold, is the model's choice (log 19). -/
def Obligations.FailedNegotiationLeavesTheSpeed : Prop :=
  ∀ (k : Nat) (s t : State) (c : Cause), s.seqState = .waitAnswer → undisturbed k s = true → runSteps k s = .next t →
    Event.negDone false c ∈ t.events →
    c = .noAnswer ∨ c = .speedUnsupported ∨ c = .noProbeSpeed ∨ c = .noAck → t.currentSpeed = s.currentSpeed

/-- The capacity of the receive buffer does not matter: two blocks alike but for it take the same bytes and emit the same
events at every step, and stay alike (42_reassembler.md R148). -/
def Obligations.BufferCapacityDoesNotMatter : Prop :=
  ∀ s1 s2 t1 t2 : State, bufferSound s1 = true → bufferSound s2 = true →
    16 ≤ s1.cfg.rxBufCap → 16 ≤ s2.cfg.rxBufCap → sameButCapacity s1 s2 →
    step s1 = .next t1 → step s2 = .next t2 → sameButCapacity t1 t2

/-- Only differences of times matter: a block whose clock and timestamps all stand `d` further on, modulo 2^32, does the
same, `d` further on (00_scope.md R11; 60_exceptions.md R262). -/
def Obligations.OnlyTimeDifferencesMatter : Prop :=
  ∀ (d : Ms) (s t : State), s.inputs ≠ [] → (currentSample s).rst = false → step s = .next t →
    step (laterState d s) = .next (laterState d t)

/-- What R287's duty on `now_ms` is for: between the samples of any two steps, `elapsed` is the true elapsed time modulo 2^32,
so it is the true elapsed time wherever that is below 2^32 milliseconds, over any wrap (00_scope.md R11;
70_reset_and_hazards.md R287). -/
def Obligations.ElapsedIsTheTrueTime : Prop :=
  ∀ (run : List (Nat × PortSample)) (i j : Nat) (a b : Nat × PortSample), clockTrue run = true → i ≤ j →
    run[i]? = some a → run[j]? = some b →
    a.1 ≤ b.1 ∧ elapsed b.2.nowMs a.2.nowMs = (b.1 - a.1) % 2 ^ 32 ∧
    (b.1 - a.1 < 2 ^ 32 → elapsed b.2.nowMs a.2.nowMs = b.1 - a.1)

/-- The level outputs, the event port and its codes (10_state.md R37, R39, R40; 30_encoding.md R84, R85). -/
def Obligations.OutputPortsShowTheState : Prop :=
  (∀ s : State, (currentSpeedId s).toNat = idFor s.currentSpeed ∧ (baudRate s).toNat = (baudFor s.currentSpeed).toNat ∧
    (busy s = true ↔ s.seqState ≠ .idle) ∧
    (testStateOut s).toNat = (match s.testState with
      | .idle => 0
      | .awaitingTest => 1
      | .awaitingTest2 => 2)) ∧
  (∀ (s : State) (e : Event) (rest : List Event), s.fifo = e :: rest → evPort s = some (evKind e, evData e)) ∧
  (∀ b : Byte, evKind (.tx b) = 0 ∧ (evData (.tx b)).toNat = b.toNat) ∧
  (∀ v : Speed, evKind (.baud (baudFor v)) = 1 ∧ (evData (.baud (baudFor v))).toNat = (baudFor v).toNat ∧
    evKind (.speedChanged v) = 2 ∧ (evData (.speedChanged v)).toNat = idFor v) ∧
  (evKind .speedRequested = 3 ∧ evData .speedRequested = 0) ∧
  (∀ (ok : Bool) (c : Cause), evKind (.negDone ok c) = 4 ∧
    (evData (.negDone ok c)).toNat = (causeCode c).toNat + 16 * ok.toNat) ∧
  (∀ (op : BitVec 3) (r : Reason), evKind (.cmdRejected op r) = 5 ∧
    (evData (.cmdRejected op r)).toNat = op.toNat + 16 * (reasonCode r).toNat) ∧
  [Cause.ok, .noAnswer, .speedUnsupported, .noProbeSpeed, .noAck, .testTimeout, .test2Timeout, .testBadPattern].map
    (fun c => (causeCode c).toNat) = [0, 1, 2, 3, 4, 5, 6, 7] ∧
  [Reason.reservedOp, .badSpeedId, .role].map (fun r => (reasonCode r).toNat) = [1, 2, 3]
end

