-- ==== Sys2Proof/Laws/State.lean ====
section
/-! SUPPORT. One lemma for each field and each update of the state: what the update leaves there. A later proof cites
these and never unfolds a record update. -/

namespace Sys2Proof.Machine


/-! ### emitAll -/

@[simp] theorem emitAll_cfg (es : List Event) (s : State) : (emitAll es s).cfg = s.cfg := rfl
@[simp] theorem emitAll_localCaps (es : List Event) (s : State) : (emitAll es s).localCaps = s.localCaps := rfl
@[simp] theorem emitAll_currentSpeed (es : List Event) (s : State) : (emitAll es s).currentSpeed = s.currentSpeed := rfl
@[simp] theorem emitAll_lastRxTime (es : List Event) (s : State) : (emitAll es s).lastRxTime = s.lastRxTime := rfl
@[simp] theorem emitAll_lastAsTxTime (es : List Event) (s : State) : (emitAll es s).lastAsTxTime = s.lastAsTxTime := rfl
@[simp] theorem emitAll_testState (es : List Event) (s : State) : (emitAll es s).testState = s.testState := rfl
@[simp] theorem emitAll_pendingTest (es : List Event) (s : State) : (emitAll es s).pendingTest = s.pendingTest := rfl
@[simp] theorem emitAll_pendingTarget (es : List Event) (s : State) : (emitAll es s).pendingTarget = s.pendingTarget := rfl
@[simp] theorem emitAll_rxBuf (es : List Event) (s : State) : (emitAll es s).rxBuf = s.rxBuf := rfl
@[simp] theorem emitAll_rxLen (es : List Event) (s : State) : (emitAll es s).rxLen = s.rxLen := rfl
@[simp] theorem emitAll_seqState (es : List Event) (s : State) : (emitAll es s).seqState = s.seqState := rfl
@[simp] theorem emitAll_seqT0 (es : List Event) (s : State) : (emitAll es s).seqT0 = s.seqT0 := rfl
@[simp] theorem emitAll_seqTimeout (es : List Event) (s : State) : (emitAll es s).seqTimeout = s.seqTimeout := rfl
@[simp] theorem emitAll_seqTarget (es : List Event) (s : State) : (emitAll es s).seqTarget = s.seqTarget := rfl
@[simp] theorem emitAll_seqTest (es : List Event) (s : State) : (emitAll es s).seqTest = s.seqTest := rfl
@[simp] theorem emitAll_fifo (es : List Event) (s : State) : (emitAll es s).fifo = s.fifo := rfl
@[simp] theorem emitAll_now (es : List Event) (s : State) : (emitAll es s).now = s.now := rfl
@[simp] theorem emitAll_events (es : List Event) (s : State) : (emitAll es s).events = s.events ++ es := rfl
@[simp] theorem emitAll_takenRx (es : List Event) (s : State) : (emitAll es s).takenRx = s.takenRx := rfl
@[simp] theorem emitAll_takenCmd (es : List Event) (s : State) : (emitAll es s).takenCmd = s.takenCmd := rfl
@[simp] theorem emitAll_inputs (es : List Event) (s : State) : (emitAll es s).inputs = s.inputs := rfl
@[simp] theorem emitAll_unlisted (es : List Event) (s : State) : (emitAll es s).unlisted = s.unlisted := rfl

/-! ### emit -/

@[simp] theorem emit_cfg (e : Event) (s : State) : (emit e s).cfg = s.cfg := rfl
@[simp] theorem emit_localCaps (e : Event) (s : State) : (emit e s).localCaps = s.localCaps := rfl
@[simp] theorem emit_currentSpeed (e : Event) (s : State) : (emit e s).currentSpeed = s.currentSpeed := rfl
@[simp] theorem emit_lastRxTime (e : Event) (s : State) : (emit e s).lastRxTime = s.lastRxTime := rfl
@[simp] theorem emit_lastAsTxTime (e : Event) (s : State) : (emit e s).lastAsTxTime = s.lastAsTxTime := rfl
@[simp] theorem emit_testState (e : Event) (s : State) : (emit e s).testState = s.testState := rfl
@[simp] theorem emit_pendingTest (e : Event) (s : State) : (emit e s).pendingTest = s.pendingTest := rfl
@[simp] theorem emit_pendingTarget (e : Event) (s : State) : (emit e s).pendingTarget = s.pendingTarget := rfl
@[simp] theorem emit_rxBuf (e : Event) (s : State) : (emit e s).rxBuf = s.rxBuf := rfl
@[simp] theorem emit_rxLen (e : Event) (s : State) : (emit e s).rxLen = s.rxLen := rfl
@[simp] theorem emit_seqState (e : Event) (s : State) : (emit e s).seqState = s.seqState := rfl
@[simp] theorem emit_seqT0 (e : Event) (s : State) : (emit e s).seqT0 = s.seqT0 := rfl
@[simp] theorem emit_seqTimeout (e : Event) (s : State) : (emit e s).seqTimeout = s.seqTimeout := rfl
@[simp] theorem emit_seqTarget (e : Event) (s : State) : (emit e s).seqTarget = s.seqTarget := rfl
@[simp] theorem emit_seqTest (e : Event) (s : State) : (emit e s).seqTest = s.seqTest := rfl
@[simp] theorem emit_fifo (e : Event) (s : State) : (emit e s).fifo = s.fifo := rfl
@[simp] theorem emit_now (e : Event) (s : State) : (emit e s).now = s.now := rfl
@[simp] theorem emit_events (e : Event) (s : State) : (emit e s).events = s.events ++ [e] := rfl
@[simp] theorem emit_takenRx (e : Event) (s : State) : (emit e s).takenRx = s.takenRx := rfl
@[simp] theorem emit_takenCmd (e : Event) (s : State) : (emit e s).takenCmd = s.takenCmd := rfl
@[simp] theorem emit_inputs (e : Event) (s : State) : (emit e s).inputs = s.inputs := rfl
@[simp] theorem emit_unlisted (e : Event) (s : State) : (emit e s).unlisted = s.unlisted := rfl

/-! ### emitTx -/

@[simp] theorem emitTx_cfg (b : Byte) (s : State) : (emitTx b s).cfg = s.cfg := rfl
@[simp] theorem emitTx_localCaps (b : Byte) (s : State) : (emitTx b s).localCaps = s.localCaps := rfl
@[simp] theorem emitTx_currentSpeed (b : Byte) (s : State) : (emitTx b s).currentSpeed = s.currentSpeed := rfl
@[simp] theorem emitTx_lastRxTime (b : Byte) (s : State) : (emitTx b s).lastRxTime = s.lastRxTime := rfl
@[simp] theorem emitTx_lastAsTxTime (b : Byte) (s : State) : (emitTx b s).lastAsTxTime = s.lastAsTxTime := rfl
@[simp] theorem emitTx_testState (b : Byte) (s : State) : (emitTx b s).testState = s.testState := rfl
@[simp] theorem emitTx_pendingTest (b : Byte) (s : State) : (emitTx b s).pendingTest = s.pendingTest := rfl
@[simp] theorem emitTx_pendingTarget (b : Byte) (s : State) : (emitTx b s).pendingTarget = s.pendingTarget := rfl
@[simp] theorem emitTx_rxBuf (b : Byte) (s : State) : (emitTx b s).rxBuf = s.rxBuf := rfl
@[simp] theorem emitTx_rxLen (b : Byte) (s : State) : (emitTx b s).rxLen = s.rxLen := rfl
@[simp] theorem emitTx_seqState (b : Byte) (s : State) : (emitTx b s).seqState = s.seqState := rfl
@[simp] theorem emitTx_seqT0 (b : Byte) (s : State) : (emitTx b s).seqT0 = s.seqT0 := rfl
@[simp] theorem emitTx_seqTimeout (b : Byte) (s : State) : (emitTx b s).seqTimeout = s.seqTimeout := rfl
@[simp] theorem emitTx_seqTarget (b : Byte) (s : State) : (emitTx b s).seqTarget = s.seqTarget := rfl
@[simp] theorem emitTx_seqTest (b : Byte) (s : State) : (emitTx b s).seqTest = s.seqTest := rfl
@[simp] theorem emitTx_fifo (b : Byte) (s : State) : (emitTx b s).fifo = s.fifo := rfl
@[simp] theorem emitTx_now (b : Byte) (s : State) : (emitTx b s).now = s.now := rfl
@[simp] theorem emitTx_events (b : Byte) (s : State) : (emitTx b s).events = s.events ++ [.tx b] := rfl
@[simp] theorem emitTx_takenRx (b : Byte) (s : State) : (emitTx b s).takenRx = s.takenRx := rfl
@[simp] theorem emitTx_takenCmd (b : Byte) (s : State) : (emitTx b s).takenCmd = s.takenCmd := rfl
@[simp] theorem emitTx_inputs (b : Byte) (s : State) : (emitTx b s).inputs = s.inputs := rfl
@[simp] theorem emitTx_unlisted (b : Byte) (s : State) : (emitTx b s).unlisted = s.unlisted := rfl

/-! ### emitFrame -/

@[simp] theorem emitFrame_cfg (c : Command) (p : List Byte) (s : State) : (emitFrame c p s).cfg = s.cfg := rfl
@[simp] theorem emitFrame_localCaps (c : Command) (p : List Byte) (s : State) : (emitFrame c p s).localCaps = s.localCaps := rfl
@[simp] theorem emitFrame_currentSpeed (c : Command) (p : List Byte) (s : State) : (emitFrame c p s).currentSpeed = s.currentSpeed := rfl
@[simp] theorem emitFrame_lastRxTime (c : Command) (p : List Byte) (s : State) : (emitFrame c p s).lastRxTime = s.lastRxTime := rfl
@[simp] theorem emitFrame_lastAsTxTime (c : Command) (p : List Byte) (s : State) : (emitFrame c p s).lastAsTxTime = s.lastAsTxTime := rfl
@[simp] theorem emitFrame_testState (c : Command) (p : List Byte) (s : State) : (emitFrame c p s).testState = s.testState := rfl
@[simp] theorem emitFrame_pendingTest (c : Command) (p : List Byte) (s : State) : (emitFrame c p s).pendingTest = s.pendingTest := rfl
@[simp] theorem emitFrame_pendingTarget (c : Command) (p : List Byte) (s : State) : (emitFrame c p s).pendingTarget = s.pendingTarget := rfl
@[simp] theorem emitFrame_rxBuf (c : Command) (p : List Byte) (s : State) : (emitFrame c p s).rxBuf = s.rxBuf := rfl
@[simp] theorem emitFrame_rxLen (c : Command) (p : List Byte) (s : State) : (emitFrame c p s).rxLen = s.rxLen := rfl
@[simp] theorem emitFrame_seqState (c : Command) (p : List Byte) (s : State) : (emitFrame c p s).seqState = s.seqState := rfl
@[simp] theorem emitFrame_seqT0 (c : Command) (p : List Byte) (s : State) : (emitFrame c p s).seqT0 = s.seqT0 := rfl
@[simp] theorem emitFrame_seqTimeout (c : Command) (p : List Byte) (s : State) : (emitFrame c p s).seqTimeout = s.seqTimeout := rfl
@[simp] theorem emitFrame_seqTarget (c : Command) (p : List Byte) (s : State) : (emitFrame c p s).seqTarget = s.seqTarget := rfl
@[simp] theorem emitFrame_seqTest (c : Command) (p : List Byte) (s : State) : (emitFrame c p s).seqTest = s.seqTest := rfl
@[simp] theorem emitFrame_fifo (c : Command) (p : List Byte) (s : State) : (emitFrame c p s).fifo = s.fifo := rfl
@[simp] theorem emitFrame_now (c : Command) (p : List Byte) (s : State) : (emitFrame c p s).now = s.now := rfl
@[simp] theorem emitFrame_events (c : Command) (p : List Byte) (s : State) : (emitFrame c p s).events = s.events ++ (frameBytes c p).map Event.tx := rfl
@[simp] theorem emitFrame_takenRx (c : Command) (p : List Byte) (s : State) : (emitFrame c p s).takenRx = s.takenRx := rfl
@[simp] theorem emitFrame_takenCmd (c : Command) (p : List Byte) (s : State) : (emitFrame c p s).takenCmd = s.takenCmd := rfl
@[simp] theorem emitFrame_inputs (c : Command) (p : List Byte) (s : State) : (emitFrame c p s).inputs = s.inputs := rfl
@[simp] theorem emitFrame_unlisted (c : Command) (p : List Byte) (s : State) : (emitFrame c p s).unlisted = s.unlisted := rfl

/-! ### commit -/

@[simp] theorem commit_cfg (v : Speed) (s : State) : (commit v s).cfg = s.cfg := rfl
@[simp] theorem commit_localCaps (v : Speed) (s : State) : (commit v s).localCaps = s.localCaps := rfl
@[simp] theorem commit_currentSpeed (v : Speed) (s : State) : (commit v s).currentSpeed = v := rfl
@[simp] theorem commit_lastRxTime (v : Speed) (s : State) : (commit v s).lastRxTime = s.lastRxTime := rfl
@[simp] theorem commit_lastAsTxTime (v : Speed) (s : State) : (commit v s).lastAsTxTime = s.lastAsTxTime := rfl
@[simp] theorem commit_testState (v : Speed) (s : State) : (commit v s).testState = s.testState := rfl
@[simp] theorem commit_pendingTest (v : Speed) (s : State) : (commit v s).pendingTest = s.pendingTest := rfl
@[simp] theorem commit_pendingTarget (v : Speed) (s : State) : (commit v s).pendingTarget = s.pendingTarget := rfl
@[simp] theorem commit_rxBuf (v : Speed) (s : State) : (commit v s).rxBuf = s.rxBuf := rfl
@[simp] theorem commit_rxLen (v : Speed) (s : State) : (commit v s).rxLen = s.rxLen := rfl
@[simp] theorem commit_seqState (v : Speed) (s : State) : (commit v s).seqState = s.seqState := rfl
@[simp] theorem commit_seqT0 (v : Speed) (s : State) : (commit v s).seqT0 = s.seqT0 := rfl
@[simp] theorem commit_seqTimeout (v : Speed) (s : State) : (commit v s).seqTimeout = s.seqTimeout := rfl
@[simp] theorem commit_seqTarget (v : Speed) (s : State) : (commit v s).seqTarget = s.seqTarget := rfl
@[simp] theorem commit_seqTest (v : Speed) (s : State) : (commit v s).seqTest = s.seqTest := rfl
@[simp] theorem commit_fifo (v : Speed) (s : State) : (commit v s).fifo = s.fifo := rfl
@[simp] theorem commit_now (v : Speed) (s : State) : (commit v s).now = s.now := rfl
@[simp] theorem commit_events (v : Speed) (s : State) : (commit v s).events = s.events ++ [.baud (baudFor v), .speedChanged v] := rfl
@[simp] theorem commit_takenRx (v : Speed) (s : State) : (commit v s).takenRx = s.takenRx := rfl
@[simp] theorem commit_takenCmd (v : Speed) (s : State) : (commit v s).takenCmd = s.takenCmd := rfl
@[simp] theorem commit_inputs (v : Speed) (s : State) : (commit v s).inputs = s.inputs := rfl
@[simp] theorem commit_unlisted (v : Speed) (s : State) : (commit v s).unlisted = s.unlisted := rfl

/-! ### finish -/

@[simp] theorem finish_cfg (ok : Bool) (c : Cause) (s : State) : (finish ok c s).cfg = s.cfg := rfl
@[simp] theorem finish_localCaps (ok : Bool) (c : Cause) (s : State) : (finish ok c s).localCaps = s.localCaps := rfl
@[simp] theorem finish_currentSpeed (ok : Bool) (c : Cause) (s : State) : (finish ok c s).currentSpeed = s.currentSpeed := rfl
@[simp] theorem finish_lastRxTime (ok : Bool) (c : Cause) (s : State) : (finish ok c s).lastRxTime = s.lastRxTime := rfl
@[simp] theorem finish_lastAsTxTime (ok : Bool) (c : Cause) (s : State) : (finish ok c s).lastAsTxTime = s.lastAsTxTime := rfl
@[simp] theorem finish_testState (ok : Bool) (c : Cause) (s : State) : (finish ok c s).testState = s.testState := rfl
@[simp] theorem finish_pendingTest (ok : Bool) (c : Cause) (s : State) : (finish ok c s).pendingTest = s.pendingTest := rfl
@[simp] theorem finish_pendingTarget (ok : Bool) (c : Cause) (s : State) : (finish ok c s).pendingTarget = s.pendingTarget := rfl
@[simp] theorem finish_rxBuf (ok : Bool) (c : Cause) (s : State) : (finish ok c s).rxBuf = s.rxBuf := rfl
@[simp] theorem finish_rxLen (ok : Bool) (c : Cause) (s : State) : (finish ok c s).rxLen = s.rxLen := rfl
@[simp] theorem finish_seqState (ok : Bool) (c : Cause) (s : State) : (finish ok c s).seqState = .idle := rfl
@[simp] theorem finish_seqT0 (ok : Bool) (c : Cause) (s : State) : (finish ok c s).seqT0 = s.seqT0 := rfl
@[simp] theorem finish_seqTimeout (ok : Bool) (c : Cause) (s : State) : (finish ok c s).seqTimeout = s.seqTimeout := rfl
@[simp] theorem finish_seqTarget (ok : Bool) (c : Cause) (s : State) : (finish ok c s).seqTarget = s.seqTarget := rfl
@[simp] theorem finish_seqTest (ok : Bool) (c : Cause) (s : State) : (finish ok c s).seqTest = s.seqTest := rfl
@[simp] theorem finish_fifo (ok : Bool) (c : Cause) (s : State) : (finish ok c s).fifo = s.fifo := rfl
@[simp] theorem finish_now (ok : Bool) (c : Cause) (s : State) : (finish ok c s).now = s.now := rfl
@[simp] theorem finish_events (ok : Bool) (c : Cause) (s : State) : (finish ok c s).events = s.events ++ [.negDone ok c] := rfl
@[simp] theorem finish_takenRx (ok : Bool) (c : Cause) (s : State) : (finish ok c s).takenRx = s.takenRx := rfl
@[simp] theorem finish_takenCmd (ok : Bool) (c : Cause) (s : State) : (finish ok c s).takenCmd = s.takenCmd := rfl
@[simp] theorem finish_inputs (ok : Bool) (c : Cause) (s : State) : (finish ok c s).inputs = s.inputs := rfl
@[simp] theorem finish_unlisted (ok : Bool) (c : Cause) (s : State) : (finish ok c s).unlisted = s.unlisted := rfl

/-! ### enterWait -/

@[simp] theorem enterWait_cfg (w : SeqState) (s : State) : (enterWait w s).cfg = s.cfg := rfl
@[simp] theorem enterWait_localCaps (w : SeqState) (s : State) : (enterWait w s).localCaps = s.localCaps := rfl
@[simp] theorem enterWait_currentSpeed (w : SeqState) (s : State) : (enterWait w s).currentSpeed = s.currentSpeed := rfl
@[simp] theorem enterWait_lastRxTime (w : SeqState) (s : State) : (enterWait w s).lastRxTime = s.lastRxTime := rfl
@[simp] theorem enterWait_lastAsTxTime (w : SeqState) (s : State) : (enterWait w s).lastAsTxTime = s.lastAsTxTime := rfl
@[simp] theorem enterWait_testState (w : SeqState) (s : State) : (enterWait w s).testState = s.testState := rfl
@[simp] theorem enterWait_pendingTest (w : SeqState) (s : State) : (enterWait w s).pendingTest = s.pendingTest := rfl
@[simp] theorem enterWait_pendingTarget (w : SeqState) (s : State) : (enterWait w s).pendingTarget = s.pendingTarget := rfl
@[simp] theorem enterWait_rxBuf (w : SeqState) (s : State) : (enterWait w s).rxBuf = s.rxBuf := rfl
@[simp] theorem enterWait_rxLen (w : SeqState) (s : State) : (enterWait w s).rxLen = s.rxLen := rfl
@[simp] theorem enterWait_seqState (w : SeqState) (s : State) : (enterWait w s).seqState = w := rfl
@[simp] theorem enterWait_seqT0 (w : SeqState) (s : State) : (enterWait w s).seqT0 = s.now := rfl
@[simp] theorem enterWait_seqTimeout (w : SeqState) (s : State) : (enterWait w s).seqTimeout = s.seqTimeout := rfl
@[simp] theorem enterWait_seqTarget (w : SeqState) (s : State) : (enterWait w s).seqTarget = s.seqTarget := rfl
@[simp] theorem enterWait_seqTest (w : SeqState) (s : State) : (enterWait w s).seqTest = s.seqTest := rfl
@[simp] theorem enterWait_fifo (w : SeqState) (s : State) : (enterWait w s).fifo = s.fifo := rfl
@[simp] theorem enterWait_now (w : SeqState) (s : State) : (enterWait w s).now = s.now := rfl
@[simp] theorem enterWait_events (w : SeqState) (s : State) : (enterWait w s).events = s.events := rfl
@[simp] theorem enterWait_takenRx (w : SeqState) (s : State) : (enterWait w s).takenRx = s.takenRx := rfl
@[simp] theorem enterWait_takenCmd (w : SeqState) (s : State) : (enterWait w s).takenCmd = s.takenCmd := rfl
@[simp] theorem enterWait_inputs (w : SeqState) (s : State) : (enterWait w s).inputs = s.inputs := rfl
@[simp] theorem enterWait_unlisted (w : SeqState) (s : State) : (enterWait w s).unlisted = s.unlisted := rfl

/-! ### setTestState -/

@[simp] theorem setTestState_cfg (q : TestState) (s : State) : (setTestState q s).cfg = s.cfg := rfl
@[simp] theorem setTestState_localCaps (q : TestState) (s : State) : (setTestState q s).localCaps = s.localCaps := rfl
@[simp] theorem setTestState_currentSpeed (q : TestState) (s : State) : (setTestState q s).currentSpeed = s.currentSpeed := rfl
@[simp] theorem setTestState_lastRxTime (q : TestState) (s : State) : (setTestState q s).lastRxTime = s.lastRxTime := rfl
@[simp] theorem setTestState_lastAsTxTime (q : TestState) (s : State) : (setTestState q s).lastAsTxTime = s.lastAsTxTime := rfl
@[simp] theorem setTestState_testState (q : TestState) (s : State) : (setTestState q s).testState = q := rfl
@[simp] theorem setTestState_pendingTest (q : TestState) (s : State) : (setTestState q s).pendingTest = s.pendingTest := rfl
@[simp] theorem setTestState_pendingTarget (q : TestState) (s : State) : (setTestState q s).pendingTarget = s.pendingTarget := rfl
@[simp] theorem setTestState_rxBuf (q : TestState) (s : State) : (setTestState q s).rxBuf = s.rxBuf := rfl
@[simp] theorem setTestState_rxLen (q : TestState) (s : State) : (setTestState q s).rxLen = s.rxLen := rfl
@[simp] theorem setTestState_seqState (q : TestState) (s : State) : (setTestState q s).seqState = s.seqState := rfl
@[simp] theorem setTestState_seqT0 (q : TestState) (s : State) : (setTestState q s).seqT0 = s.seqT0 := rfl
@[simp] theorem setTestState_seqTimeout (q : TestState) (s : State) : (setTestState q s).seqTimeout = s.seqTimeout := rfl
@[simp] theorem setTestState_seqTarget (q : TestState) (s : State) : (setTestState q s).seqTarget = s.seqTarget := rfl
@[simp] theorem setTestState_seqTest (q : TestState) (s : State) : (setTestState q s).seqTest = s.seqTest := rfl
@[simp] theorem setTestState_fifo (q : TestState) (s : State) : (setTestState q s).fifo = s.fifo := rfl
@[simp] theorem setTestState_now (q : TestState) (s : State) : (setTestState q s).now = s.now := rfl
@[simp] theorem setTestState_events (q : TestState) (s : State) : (setTestState q s).events = s.events := rfl
@[simp] theorem setTestState_takenRx (q : TestState) (s : State) : (setTestState q s).takenRx = s.takenRx := rfl
@[simp] theorem setTestState_takenCmd (q : TestState) (s : State) : (setTestState q s).takenCmd = s.takenCmd := rfl
@[simp] theorem setTestState_inputs (q : TestState) (s : State) : (setTestState q s).inputs = s.inputs := rfl
@[simp] theorem setTestState_unlisted (q : TestState) (s : State) : (setTestState q s).unlisted = s.unlisted := rfl

/-! ### emitActiveSense -/

@[simp] theorem emitActiveSense_cfg (s : State) : (emitActiveSense s).cfg = s.cfg := rfl
@[simp] theorem emitActiveSense_localCaps (s : State) : (emitActiveSense s).localCaps = s.localCaps := rfl
@[simp] theorem emitActiveSense_currentSpeed (s : State) : (emitActiveSense s).currentSpeed = s.currentSpeed := rfl
@[simp] theorem emitActiveSense_lastRxTime (s : State) : (emitActiveSense s).lastRxTime = s.lastRxTime := rfl
@[simp] theorem emitActiveSense_lastAsTxTime (s : State) : (emitActiveSense s).lastAsTxTime = s.now := rfl
@[simp] theorem emitActiveSense_testState (s : State) : (emitActiveSense s).testState = s.testState := rfl
@[simp] theorem emitActiveSense_pendingTest (s : State) : (emitActiveSense s).pendingTest = s.pendingTest := rfl
@[simp] theorem emitActiveSense_pendingTarget (s : State) : (emitActiveSense s).pendingTarget = s.pendingTarget := rfl
@[simp] theorem emitActiveSense_rxBuf (s : State) : (emitActiveSense s).rxBuf = s.rxBuf := rfl
@[simp] theorem emitActiveSense_rxLen (s : State) : (emitActiveSense s).rxLen = s.rxLen := rfl
@[simp] theorem emitActiveSense_seqState (s : State) : (emitActiveSense s).seqState = s.seqState := rfl
@[simp] theorem emitActiveSense_seqT0 (s : State) : (emitActiveSense s).seqT0 = s.seqT0 := rfl
@[simp] theorem emitActiveSense_seqTimeout (s : State) : (emitActiveSense s).seqTimeout = s.seqTimeout := rfl
@[simp] theorem emitActiveSense_seqTarget (s : State) : (emitActiveSense s).seqTarget = s.seqTarget := rfl
@[simp] theorem emitActiveSense_seqTest (s : State) : (emitActiveSense s).seqTest = s.seqTest := rfl
@[simp] theorem emitActiveSense_fifo (s : State) : (emitActiveSense s).fifo = s.fifo := rfl
@[simp] theorem emitActiveSense_now (s : State) : (emitActiveSense s).now = s.now := rfl
@[simp] theorem emitActiveSense_events (s : State) : (emitActiveSense s).events = s.events ++ [.tx 0xFE] := rfl
@[simp] theorem emitActiveSense_takenRx (s : State) : (emitActiveSense s).takenRx = s.takenRx := rfl
@[simp] theorem emitActiveSense_takenCmd (s : State) : (emitActiveSense s).takenCmd = s.takenCmd := rfl
@[simp] theorem emitActiveSense_inputs (s : State) : (emitActiveSense s).inputs = s.inputs := rfl
@[simp] theorem emitActiveSense_unlisted (s : State) : (emitActiveSense s).unlisted = s.unlisted := rfl

/-! ### rejectCommand -/

@[simp] theorem rejectCommand_cfg (op : BitVec 3) (r : Reason) (s : State) : (rejectCommand op r s).cfg = s.cfg := rfl
@[simp] theorem rejectCommand_localCaps (op : BitVec 3) (r : Reason) (s : State) : (rejectCommand op r s).localCaps = s.localCaps := rfl
@[simp] theorem rejectCommand_currentSpeed (op : BitVec 3) (r : Reason) (s : State) : (rejectCommand op r s).currentSpeed = s.currentSpeed := rfl
@[simp] theorem rejectCommand_lastRxTime (op : BitVec 3) (r : Reason) (s : State) : (rejectCommand op r s).lastRxTime = s.lastRxTime := rfl
@[simp] theorem rejectCommand_lastAsTxTime (op : BitVec 3) (r : Reason) (s : State) : (rejectCommand op r s).lastAsTxTime = s.lastAsTxTime := rfl
@[simp] theorem rejectCommand_testState (op : BitVec 3) (r : Reason) (s : State) : (rejectCommand op r s).testState = s.testState := rfl
@[simp] theorem rejectCommand_pendingTest (op : BitVec 3) (r : Reason) (s : State) : (rejectCommand op r s).pendingTest = s.pendingTest := rfl
@[simp] theorem rejectCommand_pendingTarget (op : BitVec 3) (r : Reason) (s : State) : (rejectCommand op r s).pendingTarget = s.pendingTarget := rfl
@[simp] theorem rejectCommand_rxBuf (op : BitVec 3) (r : Reason) (s : State) : (rejectCommand op r s).rxBuf = s.rxBuf := rfl
@[simp] theorem rejectCommand_rxLen (op : BitVec 3) (r : Reason) (s : State) : (rejectCommand op r s).rxLen = s.rxLen := rfl
@[simp] theorem rejectCommand_seqState (op : BitVec 3) (r : Reason) (s : State) : (rejectCommand op r s).seqState = s.seqState := rfl
@[simp] theorem rejectCommand_seqT0 (op : BitVec 3) (r : Reason) (s : State) : (rejectCommand op r s).seqT0 = s.seqT0 := rfl
@[simp] theorem rejectCommand_seqTimeout (op : BitVec 3) (r : Reason) (s : State) : (rejectCommand op r s).seqTimeout = s.seqTimeout := rfl
@[simp] theorem rejectCommand_seqTarget (op : BitVec 3) (r : Reason) (s : State) : (rejectCommand op r s).seqTarget = s.seqTarget := rfl
@[simp] theorem rejectCommand_seqTest (op : BitVec 3) (r : Reason) (s : State) : (rejectCommand op r s).seqTest = s.seqTest := rfl
@[simp] theorem rejectCommand_fifo (op : BitVec 3) (r : Reason) (s : State) : (rejectCommand op r s).fifo = s.fifo := rfl
@[simp] theorem rejectCommand_now (op : BitVec 3) (r : Reason) (s : State) : (rejectCommand op r s).now = s.now := rfl
@[simp] theorem rejectCommand_events (op : BitVec 3) (r : Reason) (s : State) : (rejectCommand op r s).events = s.events ++ [.cmdRejected op r] := rfl
@[simp] theorem rejectCommand_takenRx (op : BitVec 3) (r : Reason) (s : State) : (rejectCommand op r s).takenRx = s.takenRx := rfl
@[simp] theorem rejectCommand_takenCmd (op : BitVec 3) (r : Reason) (s : State) : (rejectCommand op r s).takenCmd = s.takenCmd := rfl
@[simp] theorem rejectCommand_inputs (op : BitVec 3) (r : Reason) (s : State) : (rejectCommand op r s).inputs = s.inputs := rfl
@[simp] theorem rejectCommand_unlisted (op : BitVec 3) (r : Reason) (s : State) : (rejectCommand op r s).unlisted = s.unlisted := rfl

/-! ### stampRx -/

@[simp] theorem stampRx_cfg (s : State) : (stampRx s).cfg = s.cfg := rfl
@[simp] theorem stampRx_localCaps (s : State) : (stampRx s).localCaps = s.localCaps := rfl
@[simp] theorem stampRx_currentSpeed (s : State) : (stampRx s).currentSpeed = s.currentSpeed := rfl
@[simp] theorem stampRx_lastRxTime (s : State) : (stampRx s).lastRxTime = s.now := rfl
@[simp] theorem stampRx_lastAsTxTime (s : State) : (stampRx s).lastAsTxTime = s.lastAsTxTime := rfl
@[simp] theorem stampRx_testState (s : State) : (stampRx s).testState = s.testState := rfl
@[simp] theorem stampRx_pendingTest (s : State) : (stampRx s).pendingTest = s.pendingTest := rfl
@[simp] theorem stampRx_pendingTarget (s : State) : (stampRx s).pendingTarget = s.pendingTarget := rfl
@[simp] theorem stampRx_rxBuf (s : State) : (stampRx s).rxBuf = s.rxBuf := rfl
@[simp] theorem stampRx_rxLen (s : State) : (stampRx s).rxLen = s.rxLen := rfl
@[simp] theorem stampRx_seqState (s : State) : (stampRx s).seqState = s.seqState := rfl
@[simp] theorem stampRx_seqT0 (s : State) : (stampRx s).seqT0 = s.seqT0 := rfl
@[simp] theorem stampRx_seqTimeout (s : State) : (stampRx s).seqTimeout = s.seqTimeout := rfl
@[simp] theorem stampRx_seqTarget (s : State) : (stampRx s).seqTarget = s.seqTarget := rfl
@[simp] theorem stampRx_seqTest (s : State) : (stampRx s).seqTest = s.seqTest := rfl
@[simp] theorem stampRx_fifo (s : State) : (stampRx s).fifo = s.fifo := rfl
@[simp] theorem stampRx_now (s : State) : (stampRx s).now = s.now := rfl
@[simp] theorem stampRx_events (s : State) : (stampRx s).events = s.events := rfl
@[simp] theorem stampRx_takenRx (s : State) : (stampRx s).takenRx = s.takenRx := rfl
@[simp] theorem stampRx_takenCmd (s : State) : (stampRx s).takenCmd = s.takenCmd := rfl
@[simp] theorem stampRx_inputs (s : State) : (stampRx s).inputs = s.inputs := rfl
@[simp] theorem stampRx_unlisted (s : State) : (stampRx s).unlisted = s.unlisted := rfl

/-! ### startFrame -/

@[simp] theorem startFrame_cfg (s : State) : (startFrame s).cfg = s.cfg := rfl
@[simp] theorem startFrame_localCaps (s : State) : (startFrame s).localCaps = s.localCaps := rfl
@[simp] theorem startFrame_currentSpeed (s : State) : (startFrame s).currentSpeed = s.currentSpeed := rfl
@[simp] theorem startFrame_lastRxTime (s : State) : (startFrame s).lastRxTime = s.lastRxTime := rfl
@[simp] theorem startFrame_lastAsTxTime (s : State) : (startFrame s).lastAsTxTime = s.lastAsTxTime := rfl
@[simp] theorem startFrame_testState (s : State) : (startFrame s).testState = s.testState := rfl
@[simp] theorem startFrame_pendingTest (s : State) : (startFrame s).pendingTest = s.pendingTest := rfl
@[simp] theorem startFrame_pendingTarget (s : State) : (startFrame s).pendingTarget = s.pendingTarget := rfl
@[simp] theorem startFrame_rxBuf (s : State) : (startFrame s).rxBuf = s.rxBuf.set 0 0xF0 := rfl
@[simp] theorem startFrame_rxLen (s : State) : (startFrame s).rxLen = 1 := rfl
@[simp] theorem startFrame_seqState (s : State) : (startFrame s).seqState = s.seqState := rfl
@[simp] theorem startFrame_seqT0 (s : State) : (startFrame s).seqT0 = s.seqT0 := rfl
@[simp] theorem startFrame_seqTimeout (s : State) : (startFrame s).seqTimeout = s.seqTimeout := rfl
@[simp] theorem startFrame_seqTarget (s : State) : (startFrame s).seqTarget = s.seqTarget := rfl
@[simp] theorem startFrame_seqTest (s : State) : (startFrame s).seqTest = s.seqTest := rfl
@[simp] theorem startFrame_fifo (s : State) : (startFrame s).fifo = s.fifo := rfl
@[simp] theorem startFrame_now (s : State) : (startFrame s).now = s.now := rfl
@[simp] theorem startFrame_events (s : State) : (startFrame s).events = s.events := rfl
@[simp] theorem startFrame_takenRx (s : State) : (startFrame s).takenRx = s.takenRx := rfl
@[simp] theorem startFrame_takenCmd (s : State) : (startFrame s).takenCmd = s.takenCmd := rfl
@[simp] theorem startFrame_inputs (s : State) : (startFrame s).inputs = s.inputs := rfl
@[simp] theorem startFrame_unlisted (s : State) : (startFrame s).unlisted = s.unlisted := rfl

/-! ### storeByte -/

@[simp] theorem storeByte_cfg (b : Byte) (s : State) : (storeByte b s).cfg = s.cfg := rfl
@[simp] theorem storeByte_localCaps (b : Byte) (s : State) : (storeByte b s).localCaps = s.localCaps := rfl
@[simp] theorem storeByte_currentSpeed (b : Byte) (s : State) : (storeByte b s).currentSpeed = s.currentSpeed := rfl
@[simp] theorem storeByte_lastRxTime (b : Byte) (s : State) : (storeByte b s).lastRxTime = s.lastRxTime := rfl
@[simp] theorem storeByte_lastAsTxTime (b : Byte) (s : State) : (storeByte b s).lastAsTxTime = s.lastAsTxTime := rfl
@[simp] theorem storeByte_testState (b : Byte) (s : State) : (storeByte b s).testState = s.testState := rfl
@[simp] theorem storeByte_pendingTest (b : Byte) (s : State) : (storeByte b s).pendingTest = s.pendingTest := rfl
@[simp] theorem storeByte_pendingTarget (b : Byte) (s : State) : (storeByte b s).pendingTarget = s.pendingTarget := rfl
@[simp] theorem storeByte_rxBuf (b : Byte) (s : State) : (storeByte b s).rxBuf = s.rxBuf.set s.rxLen b := rfl
@[simp] theorem storeByte_rxLen (b : Byte) (s : State) : (storeByte b s).rxLen = s.rxLen + 1 := rfl
@[simp] theorem storeByte_seqState (b : Byte) (s : State) : (storeByte b s).seqState = s.seqState := rfl
@[simp] theorem storeByte_seqT0 (b : Byte) (s : State) : (storeByte b s).seqT0 = s.seqT0 := rfl
@[simp] theorem storeByte_seqTimeout (b : Byte) (s : State) : (storeByte b s).seqTimeout = s.seqTimeout := rfl
@[simp] theorem storeByte_seqTarget (b : Byte) (s : State) : (storeByte b s).seqTarget = s.seqTarget := rfl
@[simp] theorem storeByte_seqTest (b : Byte) (s : State) : (storeByte b s).seqTest = s.seqTest := rfl
@[simp] theorem storeByte_fifo (b : Byte) (s : State) : (storeByte b s).fifo = s.fifo := rfl
@[simp] theorem storeByte_now (b : Byte) (s : State) : (storeByte b s).now = s.now := rfl
@[simp] theorem storeByte_events (b : Byte) (s : State) : (storeByte b s).events = s.events := rfl
@[simp] theorem storeByte_takenRx (b : Byte) (s : State) : (storeByte b s).takenRx = s.takenRx := rfl
@[simp] theorem storeByte_takenCmd (b : Byte) (s : State) : (storeByte b s).takenCmd = s.takenCmd := rfl
@[simp] theorem storeByte_inputs (b : Byte) (s : State) : (storeByte b s).inputs = s.inputs := rfl
@[simp] theorem storeByte_unlisted (b : Byte) (s : State) : (storeByte b s).unlisted = s.unlisted := rfl

/-! ### leaveFrame -/

@[simp] theorem leaveFrame_cfg (s : State) : (leaveFrame s).cfg = s.cfg := rfl
@[simp] theorem leaveFrame_localCaps (s : State) : (leaveFrame s).localCaps = s.localCaps := rfl
@[simp] theorem leaveFrame_currentSpeed (s : State) : (leaveFrame s).currentSpeed = s.currentSpeed := rfl
@[simp] theorem leaveFrame_lastRxTime (s : State) : (leaveFrame s).lastRxTime = s.lastRxTime := rfl
@[simp] theorem leaveFrame_lastAsTxTime (s : State) : (leaveFrame s).lastAsTxTime = s.lastAsTxTime := rfl
@[simp] theorem leaveFrame_testState (s : State) : (leaveFrame s).testState = s.testState := rfl
@[simp] theorem leaveFrame_pendingTest (s : State) : (leaveFrame s).pendingTest = s.pendingTest := rfl
@[simp] theorem leaveFrame_pendingTarget (s : State) : (leaveFrame s).pendingTarget = s.pendingTarget := rfl
@[simp] theorem leaveFrame_rxBuf (s : State) : (leaveFrame s).rxBuf = s.rxBuf := rfl
@[simp] theorem leaveFrame_rxLen (s : State) : (leaveFrame s).rxLen = 0 := rfl
@[simp] theorem leaveFrame_seqState (s : State) : (leaveFrame s).seqState = s.seqState := rfl
@[simp] theorem leaveFrame_seqT0 (s : State) : (leaveFrame s).seqT0 = s.seqT0 := rfl
@[simp] theorem leaveFrame_seqTimeout (s : State) : (leaveFrame s).seqTimeout = s.seqTimeout := rfl
@[simp] theorem leaveFrame_seqTarget (s : State) : (leaveFrame s).seqTarget = s.seqTarget := rfl
@[simp] theorem leaveFrame_seqTest (s : State) : (leaveFrame s).seqTest = s.seqTest := rfl
@[simp] theorem leaveFrame_fifo (s : State) : (leaveFrame s).fifo = s.fifo := rfl
@[simp] theorem leaveFrame_now (s : State) : (leaveFrame s).now = s.now := rfl
@[simp] theorem leaveFrame_events (s : State) : (leaveFrame s).events = s.events := rfl
@[simp] theorem leaveFrame_takenRx (s : State) : (leaveFrame s).takenRx = s.takenRx := rfl
@[simp] theorem leaveFrame_takenCmd (s : State) : (leaveFrame s).takenCmd = s.takenCmd := rfl
@[simp] theorem leaveFrame_inputs (s : State) : (leaveFrame s).inputs = s.inputs := rfl
@[simp] theorem leaveFrame_unlisted (s : State) : (leaveFrame s).unlisted = s.unlisted := rfl

/-! ### beginStep -/

@[simp] theorem beginStep_cfg (n : Ms) (rx cmd : Bool) (s : State) : (beginStep n rx cmd s).cfg = s.cfg := rfl
@[simp] theorem beginStep_localCaps (n : Ms) (rx cmd : Bool) (s : State) : (beginStep n rx cmd s).localCaps = s.localCaps := rfl
@[simp] theorem beginStep_currentSpeed (n : Ms) (rx cmd : Bool) (s : State) : (beginStep n rx cmd s).currentSpeed = s.currentSpeed := rfl
@[simp] theorem beginStep_lastRxTime (n : Ms) (rx cmd : Bool) (s : State) : (beginStep n rx cmd s).lastRxTime = s.lastRxTime := rfl
@[simp] theorem beginStep_lastAsTxTime (n : Ms) (rx cmd : Bool) (s : State) : (beginStep n rx cmd s).lastAsTxTime = s.lastAsTxTime := rfl
@[simp] theorem beginStep_testState (n : Ms) (rx cmd : Bool) (s : State) : (beginStep n rx cmd s).testState = s.testState := rfl
@[simp] theorem beginStep_pendingTest (n : Ms) (rx cmd : Bool) (s : State) : (beginStep n rx cmd s).pendingTest = s.pendingTest := rfl
@[simp] theorem beginStep_pendingTarget (n : Ms) (rx cmd : Bool) (s : State) : (beginStep n rx cmd s).pendingTarget = s.pendingTarget := rfl
@[simp] theorem beginStep_rxBuf (n : Ms) (rx cmd : Bool) (s : State) : (beginStep n rx cmd s).rxBuf = s.rxBuf := rfl
@[simp] theorem beginStep_rxLen (n : Ms) (rx cmd : Bool) (s : State) : (beginStep n rx cmd s).rxLen = s.rxLen := rfl
@[simp] theorem beginStep_seqState (n : Ms) (rx cmd : Bool) (s : State) : (beginStep n rx cmd s).seqState = s.seqState := rfl
@[simp] theorem beginStep_seqT0 (n : Ms) (rx cmd : Bool) (s : State) : (beginStep n rx cmd s).seqT0 = s.seqT0 := rfl
@[simp] theorem beginStep_seqTimeout (n : Ms) (rx cmd : Bool) (s : State) : (beginStep n rx cmd s).seqTimeout = s.seqTimeout := rfl
@[simp] theorem beginStep_seqTarget (n : Ms) (rx cmd : Bool) (s : State) : (beginStep n rx cmd s).seqTarget = s.seqTarget := rfl
@[simp] theorem beginStep_seqTest (n : Ms) (rx cmd : Bool) (s : State) : (beginStep n rx cmd s).seqTest = s.seqTest := rfl
@[simp] theorem beginStep_fifo (n : Ms) (rx cmd : Bool) (s : State) : (beginStep n rx cmd s).fifo = s.fifo := rfl
@[simp] theorem beginStep_now (n : Ms) (rx cmd : Bool) (s : State) : (beginStep n rx cmd s).now = n := rfl
@[simp] theorem beginStep_events (n : Ms) (rx cmd : Bool) (s : State) : (beginStep n rx cmd s).events = [] := rfl
@[simp] theorem beginStep_takenRx (n : Ms) (rx cmd : Bool) (s : State) : (beginStep n rx cmd s).takenRx = rx := rfl
@[simp] theorem beginStep_takenCmd (n : Ms) (rx cmd : Bool) (s : State) : (beginStep n rx cmd s).takenCmd = cmd := rfl
@[simp] theorem beginStep_inputs (n : Ms) (rx cmd : Bool) (s : State) : (beginStep n rx cmd s).inputs = s.inputs := rfl
@[simp] theorem beginStep_unlisted (n : Ms) (rx cmd : Bool) (s : State) : (beginStep n rx cmd s).unlisted = s.unlisted := rfl

/-! ### popFifo -/

@[simp] theorem popFifo_cfg (r : Bool) (s : State) : (popFifo r s).cfg = s.cfg := rfl
@[simp] theorem popFifo_localCaps (r : Bool) (s : State) : (popFifo r s).localCaps = s.localCaps := rfl
@[simp] theorem popFifo_currentSpeed (r : Bool) (s : State) : (popFifo r s).currentSpeed = s.currentSpeed := rfl
@[simp] theorem popFifo_lastRxTime (r : Bool) (s : State) : (popFifo r s).lastRxTime = s.lastRxTime := rfl
@[simp] theorem popFifo_lastAsTxTime (r : Bool) (s : State) : (popFifo r s).lastAsTxTime = s.lastAsTxTime := rfl
@[simp] theorem popFifo_testState (r : Bool) (s : State) : (popFifo r s).testState = s.testState := rfl
@[simp] theorem popFifo_pendingTest (r : Bool) (s : State) : (popFifo r s).pendingTest = s.pendingTest := rfl
@[simp] theorem popFifo_pendingTarget (r : Bool) (s : State) : (popFifo r s).pendingTarget = s.pendingTarget := rfl
@[simp] theorem popFifo_rxBuf (r : Bool) (s : State) : (popFifo r s).rxBuf = s.rxBuf := rfl
@[simp] theorem popFifo_rxLen (r : Bool) (s : State) : (popFifo r s).rxLen = s.rxLen := rfl
@[simp] theorem popFifo_seqState (r : Bool) (s : State) : (popFifo r s).seqState = s.seqState := rfl
@[simp] theorem popFifo_seqT0 (r : Bool) (s : State) : (popFifo r s).seqT0 = s.seqT0 := rfl
@[simp] theorem popFifo_seqTimeout (r : Bool) (s : State) : (popFifo r s).seqTimeout = s.seqTimeout := rfl
@[simp] theorem popFifo_seqTarget (r : Bool) (s : State) : (popFifo r s).seqTarget = s.seqTarget := rfl
@[simp] theorem popFifo_seqTest (r : Bool) (s : State) : (popFifo r s).seqTest = s.seqTest := rfl
@[simp] theorem popFifo_fifo (r : Bool) (s : State) : (popFifo r s).fifo = if r then s.fifo.tail else s.fifo := rfl
@[simp] theorem popFifo_now (r : Bool) (s : State) : (popFifo r s).now = s.now := rfl
@[simp] theorem popFifo_events (r : Bool) (s : State) : (popFifo r s).events = s.events := rfl
@[simp] theorem popFifo_takenRx (r : Bool) (s : State) : (popFifo r s).takenRx = s.takenRx := rfl
@[simp] theorem popFifo_takenCmd (r : Bool) (s : State) : (popFifo r s).takenCmd = s.takenCmd := rfl
@[simp] theorem popFifo_inputs (r : Bool) (s : State) : (popFifo r s).inputs = s.inputs := rfl
@[simp] theorem popFifo_unlisted (r : Bool) (s : State) : (popFifo r s).unlisted = s.unlisted := rfl

/-! ### pushFifo -/

@[simp] theorem pushFifo_cfg (s : State) : (pushFifo s).cfg = s.cfg := rfl
@[simp] theorem pushFifo_localCaps (s : State) : (pushFifo s).localCaps = s.localCaps := rfl
@[simp] theorem pushFifo_currentSpeed (s : State) : (pushFifo s).currentSpeed = s.currentSpeed := rfl
@[simp] theorem pushFifo_lastRxTime (s : State) : (pushFifo s).lastRxTime = s.lastRxTime := rfl
@[simp] theorem pushFifo_lastAsTxTime (s : State) : (pushFifo s).lastAsTxTime = s.lastAsTxTime := rfl
@[simp] theorem pushFifo_testState (s : State) : (pushFifo s).testState = s.testState := rfl
@[simp] theorem pushFifo_pendingTest (s : State) : (pushFifo s).pendingTest = s.pendingTest := rfl
@[simp] theorem pushFifo_pendingTarget (s : State) : (pushFifo s).pendingTarget = s.pendingTarget := rfl
@[simp] theorem pushFifo_rxBuf (s : State) : (pushFifo s).rxBuf = s.rxBuf := rfl
@[simp] theorem pushFifo_rxLen (s : State) : (pushFifo s).rxLen = s.rxLen := rfl
@[simp] theorem pushFifo_seqState (s : State) : (pushFifo s).seqState = s.seqState := rfl
@[simp] theorem pushFifo_seqT0 (s : State) : (pushFifo s).seqT0 = s.seqT0 := rfl
@[simp] theorem pushFifo_seqTimeout (s : State) : (pushFifo s).seqTimeout = s.seqTimeout := rfl
@[simp] theorem pushFifo_seqTarget (s : State) : (pushFifo s).seqTarget = s.seqTarget := rfl
@[simp] theorem pushFifo_seqTest (s : State) : (pushFifo s).seqTest = s.seqTest := rfl
@[simp] theorem pushFifo_fifo (s : State) : (pushFifo s).fifo = if s.cfg.evFifoDepth.isSome then s.fifo ++ s.events else s.fifo := rfl
@[simp] theorem pushFifo_now (s : State) : (pushFifo s).now = s.now := rfl
@[simp] theorem pushFifo_events (s : State) : (pushFifo s).events = s.events := rfl
@[simp] theorem pushFifo_takenRx (s : State) : (pushFifo s).takenRx = s.takenRx := rfl
@[simp] theorem pushFifo_takenCmd (s : State) : (pushFifo s).takenCmd = s.takenCmd := rfl
@[simp] theorem pushFifo_inputs (s : State) : (pushFifo s).inputs = s.inputs := rfl
@[simp] theorem pushFifo_unlisted (s : State) : (pushFifo s).unlisted = s.unlisted := rfl

/-! ### stall -/

@[simp] theorem stall_cfg (r : Bool) (s : State) : (stall r s).cfg = s.cfg := rfl
@[simp] theorem stall_localCaps (r : Bool) (s : State) : (stall r s).localCaps = s.localCaps := rfl
@[simp] theorem stall_currentSpeed (r : Bool) (s : State) : (stall r s).currentSpeed = s.currentSpeed := rfl
@[simp] theorem stall_lastRxTime (r : Bool) (s : State) : (stall r s).lastRxTime = s.lastRxTime := rfl
@[simp] theorem stall_lastAsTxTime (r : Bool) (s : State) : (stall r s).lastAsTxTime = s.lastAsTxTime := rfl
@[simp] theorem stall_testState (r : Bool) (s : State) : (stall r s).testState = s.testState := rfl
@[simp] theorem stall_pendingTest (r : Bool) (s : State) : (stall r s).pendingTest = s.pendingTest := rfl
@[simp] theorem stall_pendingTarget (r : Bool) (s : State) : (stall r s).pendingTarget = s.pendingTarget := rfl
@[simp] theorem stall_rxBuf (r : Bool) (s : State) : (stall r s).rxBuf = s.rxBuf := rfl
@[simp] theorem stall_rxLen (r : Bool) (s : State) : (stall r s).rxLen = s.rxLen := rfl
@[simp] theorem stall_seqState (r : Bool) (s : State) : (stall r s).seqState = s.seqState := rfl
@[simp] theorem stall_seqT0 (r : Bool) (s : State) : (stall r s).seqT0 = s.seqT0 := rfl
@[simp] theorem stall_seqTimeout (r : Bool) (s : State) : (stall r s).seqTimeout = s.seqTimeout := rfl
@[simp] theorem stall_seqTarget (r : Bool) (s : State) : (stall r s).seqTarget = s.seqTarget := rfl
@[simp] theorem stall_seqTest (r : Bool) (s : State) : (stall r s).seqTest = s.seqTest := rfl
@[simp] theorem stall_fifo (r : Bool) (s : State) : (stall r s).fifo = if r then s.fifo.tail else s.fifo := rfl
@[simp] theorem stall_now (r : Bool) (s : State) : (stall r s).now = s.now := rfl
@[simp] theorem stall_events (r : Bool) (s : State) : (stall r s).events = [] := rfl
@[simp] theorem stall_takenRx (r : Bool) (s : State) : (stall r s).takenRx = false := rfl
@[simp] theorem stall_takenCmd (r : Bool) (s : State) : (stall r s).takenCmd = false := rfl
@[simp] theorem stall_inputs (r : Bool) (s : State) : (stall r s).inputs = s.inputs := rfl
@[simp] theorem stall_unlisted (r : Bool) (s : State) : (stall r s).unlisted = s.unlisted := rfl

/-! ### acceptDirectly -/

@[simp] theorem acceptDirectly_cfg (g : Speed) (s : State) : (acceptDirectly g s).cfg = s.cfg := rfl
@[simp] theorem acceptDirectly_localCaps (g : Speed) (s : State) : (acceptDirectly g s).localCaps = s.localCaps := rfl
@[simp] theorem acceptDirectly_currentSpeed (g : Speed) (s : State) : (acceptDirectly g s).currentSpeed = g := rfl
@[simp] theorem acceptDirectly_lastRxTime (g : Speed) (s : State) : (acceptDirectly g s).lastRxTime = s.lastRxTime := rfl
@[simp] theorem acceptDirectly_lastAsTxTime (g : Speed) (s : State) : (acceptDirectly g s).lastAsTxTime = s.lastAsTxTime := rfl
@[simp] theorem acceptDirectly_testState (g : Speed) (s : State) : (acceptDirectly g s).testState = .idle := rfl
@[simp] theorem acceptDirectly_pendingTest (g : Speed) (s : State) : (acceptDirectly g s).pendingTest = s.pendingTest := rfl
@[simp] theorem acceptDirectly_pendingTarget (g : Speed) (s : State) : (acceptDirectly g s).pendingTarget = s.pendingTarget := rfl
@[simp] theorem acceptDirectly_rxBuf (g : Speed) (s : State) : (acceptDirectly g s).rxBuf = s.rxBuf := rfl
@[simp] theorem acceptDirectly_rxLen (g : Speed) (s : State) : (acceptDirectly g s).rxLen = s.rxLen := rfl
@[simp] theorem acceptDirectly_seqState (g : Speed) (s : State) : (acceptDirectly g s).seqState = s.seqState := rfl
@[simp] theorem acceptDirectly_seqT0 (g : Speed) (s : State) : (acceptDirectly g s).seqT0 = s.seqT0 := rfl
@[simp] theorem acceptDirectly_seqTimeout (g : Speed) (s : State) : (acceptDirectly g s).seqTimeout = s.seqTimeout := rfl
@[simp] theorem acceptDirectly_seqTarget (g : Speed) (s : State) : (acceptDirectly g s).seqTarget = s.seqTarget := rfl
@[simp] theorem acceptDirectly_seqTest (g : Speed) (s : State) : (acceptDirectly g s).seqTest = s.seqTest := rfl
@[simp] theorem acceptDirectly_fifo (g : Speed) (s : State) : (acceptDirectly g s).fifo = s.fifo := rfl
@[simp] theorem acceptDirectly_now (g : Speed) (s : State) : (acceptDirectly g s).now = s.now := rfl
@[simp] theorem acceptDirectly_events (g : Speed) (s : State) : (acceptDirectly g s).events = s.events ++ (frameBytes .speedAck []).map Event.tx ++ [.baud (baudFor g), .speedChanged g] := rfl
@[simp] theorem acceptDirectly_takenRx (g : Speed) (s : State) : (acceptDirectly g s).takenRx = s.takenRx := rfl
@[simp] theorem acceptDirectly_takenCmd (g : Speed) (s : State) : (acceptDirectly g s).takenCmd = s.takenCmd := rfl
@[simp] theorem acceptDirectly_inputs (g : Speed) (s : State) : (acceptDirectly g s).inputs = s.inputs := rfl
@[simp] theorem acceptDirectly_unlisted (g : Speed) (s : State) : (acceptDirectly g s).unlisted = s.unlisted := rfl

/-! ### acceptForTest -/

@[simp] theorem acceptForTest_cfg (v g : Speed) (s : State) : (acceptForTest v g s).cfg = s.cfg := rfl
@[simp] theorem acceptForTest_localCaps (v g : Speed) (s : State) : (acceptForTest v g s).localCaps = s.localCaps := rfl
@[simp] theorem acceptForTest_currentSpeed (v g : Speed) (s : State) : (acceptForTest v g s).currentSpeed = s.currentSpeed := rfl
@[simp] theorem acceptForTest_lastRxTime (v g : Speed) (s : State) : (acceptForTest v g s).lastRxTime = s.lastRxTime := rfl
@[simp] theorem acceptForTest_lastAsTxTime (v g : Speed) (s : State) : (acceptForTest v g s).lastAsTxTime = s.lastAsTxTime := rfl
@[simp] theorem acceptForTest_testState (v g : Speed) (s : State) : (acceptForTest v g s).testState = .awaitingTest := rfl
@[simp] theorem acceptForTest_pendingTest (v g : Speed) (s : State) : (acceptForTest v g s).pendingTest = v := rfl
@[simp] theorem acceptForTest_pendingTarget (v g : Speed) (s : State) : (acceptForTest v g s).pendingTarget = g := rfl
@[simp] theorem acceptForTest_rxBuf (v g : Speed) (s : State) : (acceptForTest v g s).rxBuf = s.rxBuf := rfl
@[simp] theorem acceptForTest_rxLen (v g : Speed) (s : State) : (acceptForTest v g s).rxLen = s.rxLen := rfl
@[simp] theorem acceptForTest_seqState (v g : Speed) (s : State) : (acceptForTest v g s).seqState = s.seqState := rfl
@[simp] theorem acceptForTest_seqT0 (v g : Speed) (s : State) : (acceptForTest v g s).seqT0 = s.seqT0 := rfl
@[simp] theorem acceptForTest_seqTimeout (v g : Speed) (s : State) : (acceptForTest v g s).seqTimeout = s.seqTimeout := rfl
@[simp] theorem acceptForTest_seqTarget (v g : Speed) (s : State) : (acceptForTest v g s).seqTarget = s.seqTarget := rfl
@[simp] theorem acceptForTest_seqTest (v g : Speed) (s : State) : (acceptForTest v g s).seqTest = s.seqTest := rfl
@[simp] theorem acceptForTest_fifo (v g : Speed) (s : State) : (acceptForTest v g s).fifo = s.fifo := rfl
@[simp] theorem acceptForTest_now (v g : Speed) (s : State) : (acceptForTest v g s).now = s.now := rfl
@[simp] theorem acceptForTest_events (v g : Speed) (s : State) : (acceptForTest v g s).events = s.events ++ (frameBytes .speedAck []).map Event.tx := rfl
@[simp] theorem acceptForTest_takenRx (v g : Speed) (s : State) : (acceptForTest v g s).takenRx = s.takenRx := rfl
@[simp] theorem acceptForTest_takenCmd (v g : Speed) (s : State) : (acceptForTest v g s).takenCmd = s.takenCmd := rfl
@[simp] theorem acceptForTest_inputs (v g : Speed) (s : State) : (acceptForTest v g s).inputs = s.inputs := rfl
@[simp] theorem acceptForTest_unlisted (v g : Speed) (s : State) : (acceptForTest v g s).unlisted = s.unlisted := rfl

/-! ### requestNegotiation -/

@[simp] theorem requestNegotiation_cfg (v : Speed) (s : State) : (requestNegotiation v s).cfg = s.cfg := rfl
@[simp] theorem requestNegotiation_localCaps (v : Speed) (s : State) : (requestNegotiation v s).localCaps = s.localCaps := rfl
@[simp] theorem requestNegotiation_currentSpeed (v : Speed) (s : State) : (requestNegotiation v s).currentSpeed = s.currentSpeed := rfl
@[simp] theorem requestNegotiation_lastRxTime (v : Speed) (s : State) : (requestNegotiation v s).lastRxTime = s.lastRxTime := rfl
@[simp] theorem requestNegotiation_lastAsTxTime (v : Speed) (s : State) : (requestNegotiation v s).lastAsTxTime = s.lastAsTxTime := rfl
@[simp] theorem requestNegotiation_testState (v : Speed) (s : State) : (requestNegotiation v s).testState = s.testState := rfl
@[simp] theorem requestNegotiation_pendingTest (v : Speed) (s : State) : (requestNegotiation v s).pendingTest = s.pendingTest := rfl
@[simp] theorem requestNegotiation_pendingTarget (v : Speed) (s : State) : (requestNegotiation v s).pendingTarget = s.pendingTarget := rfl
@[simp] theorem requestNegotiation_rxBuf (v : Speed) (s : State) : (requestNegotiation v s).rxBuf = s.rxBuf := rfl
@[simp] theorem requestNegotiation_rxLen (v : Speed) (s : State) : (requestNegotiation v s).rxLen = s.rxLen := rfl
@[simp] theorem requestNegotiation_seqState (v : Speed) (s : State) : (requestNegotiation v s).seqState = .waitAck := rfl
@[simp] theorem requestNegotiation_seqT0 (v : Speed) (s : State) : (requestNegotiation v s).seqT0 = s.now := rfl
@[simp] theorem requestNegotiation_seqTimeout (v : Speed) (s : State) : (requestNegotiation v s).seqTimeout = s.seqTimeout := rfl
@[simp] theorem requestNegotiation_seqTarget (v : Speed) (s : State) : (requestNegotiation v s).seqTarget = s.seqTarget := rfl
@[simp] theorem requestNegotiation_seqTest (v : Speed) (s : State) : (requestNegotiation v s).seqTest = v := rfl
@[simp] theorem requestNegotiation_fifo (v : Speed) (s : State) : (requestNegotiation v s).fifo = s.fifo := rfl
@[simp] theorem requestNegotiation_now (v : Speed) (s : State) : (requestNegotiation v s).now = s.now := rfl
@[simp] theorem requestNegotiation_events (v : Speed) (s : State) : (requestNegotiation v s).events = s.events ++ (frameBytes .speedNegotiate [idByte v, idByte s.seqTarget]).map Event.tx := rfl
@[simp] theorem requestNegotiation_takenRx (v : Speed) (s : State) : (requestNegotiation v s).takenRx = s.takenRx := rfl
@[simp] theorem requestNegotiation_takenCmd (v : Speed) (s : State) : (requestNegotiation v s).takenCmd = s.takenCmd := rfl
@[simp] theorem requestNegotiation_inputs (v : Speed) (s : State) : (requestNegotiation v s).inputs = s.inputs := rfl
@[simp] theorem requestNegotiation_unlisted (v : Speed) (s : State) : (requestNegotiation v s).unlisted = s.unlisted := rfl

/-! ### endSettle -/

@[simp] theorem endSettle_cfg (s : State) : (endSettle s).cfg = s.cfg := rfl
@[simp] theorem endSettle_localCaps (s : State) : (endSettle s).localCaps = s.localCaps := rfl
@[simp] theorem endSettle_currentSpeed (s : State) : (endSettle s).currentSpeed = s.seqTest := rfl
@[simp] theorem endSettle_lastRxTime (s : State) : (endSettle s).lastRxTime = s.lastRxTime := rfl
@[simp] theorem endSettle_lastAsTxTime (s : State) : (endSettle s).lastAsTxTime = s.lastAsTxTime := rfl
@[simp] theorem endSettle_testState (s : State) : (endSettle s).testState = s.testState := rfl
@[simp] theorem endSettle_pendingTest (s : State) : (endSettle s).pendingTest = s.pendingTest := rfl
@[simp] theorem endSettle_pendingTarget (s : State) : (endSettle s).pendingTarget = s.pendingTarget := rfl
@[simp] theorem endSettle_rxBuf (s : State) : (endSettle s).rxBuf = s.rxBuf := rfl
@[simp] theorem endSettle_rxLen (s : State) : (endSettle s).rxLen = s.rxLen := rfl
@[simp] theorem endSettle_seqState (s : State) : (endSettle s).seqState = .waitResult := rfl
@[simp] theorem endSettle_seqT0 (s : State) : (endSettle s).seqT0 = s.now := rfl
@[simp] theorem endSettle_seqTimeout (s : State) : (endSettle s).seqTimeout = s.seqTimeout := rfl
@[simp] theorem endSettle_seqTarget (s : State) : (endSettle s).seqTarget = s.seqTarget := rfl
@[simp] theorem endSettle_seqTest (s : State) : (endSettle s).seqTest = s.seqTest := rfl
@[simp] theorem endSettle_fifo (s : State) : (endSettle s).fifo = s.fifo := rfl
@[simp] theorem endSettle_now (s : State) : (endSettle s).now = s.now := rfl
@[simp] theorem endSettle_events (s : State) : (endSettle s).events = s.events ++ [.baud (baudFor s.seqTest), .speedChanged s.seqTest] ++ (frameBytes .speedTest testPattern).map Event.tx := rfl
@[simp] theorem endSettle_takenRx (s : State) : (endSettle s).takenRx = s.takenRx := rfl
@[simp] theorem endSettle_takenCmd (s : State) : (endSettle s).takenCmd = s.takenCmd := rfl
@[simp] theorem endSettle_inputs (s : State) : (endSettle s).inputs = s.inputs := rfl
@[simp] theorem endSettle_unlisted (s : State) : (endSettle s).unlisted = s.unlisted := rfl

/-! ### startNegotiation -/

@[simp] theorem startNegotiation_cfg (g : Speed) (n : Ms) (s : State) : (startNegotiation g n s).cfg = s.cfg := rfl
@[simp] theorem startNegotiation_localCaps (g : Speed) (n : Ms) (s : State) : (startNegotiation g n s).localCaps = s.localCaps := rfl
@[simp] theorem startNegotiation_currentSpeed (g : Speed) (n : Ms) (s : State) : (startNegotiation g n s).currentSpeed = s.currentSpeed := rfl
@[simp] theorem startNegotiation_lastRxTime (g : Speed) (n : Ms) (s : State) : (startNegotiation g n s).lastRxTime = s.lastRxTime := rfl
@[simp] theorem startNegotiation_lastAsTxTime (g : Speed) (n : Ms) (s : State) : (startNegotiation g n s).lastAsTxTime = s.lastAsTxTime := rfl
@[simp] theorem startNegotiation_testState (g : Speed) (n : Ms) (s : State) : (startNegotiation g n s).testState = s.testState := rfl
@[simp] theorem startNegotiation_pendingTest (g : Speed) (n : Ms) (s : State) : (startNegotiation g n s).pendingTest = s.pendingTest := rfl
@[simp] theorem startNegotiation_pendingTarget (g : Speed) (n : Ms) (s : State) : (startNegotiation g n s).pendingTarget = s.pendingTarget := rfl
@[simp] theorem startNegotiation_rxBuf (g : Speed) (n : Ms) (s : State) : (startNegotiation g n s).rxBuf = s.rxBuf := rfl
@[simp] theorem startNegotiation_rxLen (g : Speed) (n : Ms) (s : State) : (startNegotiation g n s).rxLen = s.rxLen := rfl
@[simp] theorem startNegotiation_seqState (g : Speed) (n : Ms) (s : State) : (startNegotiation g n s).seqState = .waitAnswer := rfl
@[simp] theorem startNegotiation_seqT0 (g : Speed) (n : Ms) (s : State) : (startNegotiation g n s).seqT0 = s.now := rfl
@[simp] theorem startNegotiation_seqTimeout (g : Speed) (n : Ms) (s : State) : (startNegotiation g n s).seqTimeout = n := rfl
@[simp] theorem startNegotiation_seqTarget (g : Speed) (n : Ms) (s : State) : (startNegotiation g n s).seqTarget = g := rfl
@[simp] theorem startNegotiation_seqTest (g : Speed) (n : Ms) (s : State) : (startNegotiation g n s).seqTest = s.seqTest := rfl
@[simp] theorem startNegotiation_fifo (g : Speed) (n : Ms) (s : State) : (startNegotiation g n s).fifo = s.fifo := rfl
@[simp] theorem startNegotiation_now (g : Speed) (n : Ms) (s : State) : (startNegotiation g n s).now = s.now := rfl
@[simp] theorem startNegotiation_events (g : Speed) (n : Ms) (s : State) : (startNegotiation g n s).events = s.events ++ (frameBytes .speedRequest []).map Event.tx := rfl
@[simp] theorem startNegotiation_takenRx (g : Speed) (n : Ms) (s : State) : (startNegotiation g n s).takenRx = s.takenRx := rfl
@[simp] theorem startNegotiation_takenCmd (g : Speed) (n : Ms) (s : State) : (startNegotiation g n s).takenCmd = s.takenCmd := rfl
@[simp] theorem startNegotiation_inputs (g : Speed) (n : Ms) (s : State) : (startNegotiation g n s).inputs = s.inputs := rfl
@[simp] theorem startNegotiation_unlisted (g : Speed) (n : Ms) (s : State) : (startNegotiation g n s).unlisted = s.unlisted := rfl

/-! ### dropSample -/

@[simp] theorem dropSample_cfg (s : State) : (dropSample s).cfg = s.cfg := by
  unfold dropSample
  split <;> rfl
@[simp] theorem dropSample_localCaps (s : State) : (dropSample s).localCaps = s.localCaps := by
  unfold dropSample
  split <;> rfl
@[simp] theorem dropSample_currentSpeed (s : State) : (dropSample s).currentSpeed = s.currentSpeed := by
  unfold dropSample
  split <;> rfl
@[simp] theorem dropSample_lastRxTime (s : State) : (dropSample s).lastRxTime = s.lastRxTime := by
  unfold dropSample
  split <;> rfl
@[simp] theorem dropSample_lastAsTxTime (s : State) : (dropSample s).lastAsTxTime = s.lastAsTxTime := by
  unfold dropSample
  split <;> rfl
@[simp] theorem dropSample_testState (s : State) : (dropSample s).testState = s.testState := by
  unfold dropSample
  split <;> rfl
@[simp] theorem dropSample_pendingTest (s : State) : (dropSample s).pendingTest = s.pendingTest := by
  unfold dropSample
  split <;> rfl
@[simp] theorem dropSample_pendingTarget (s : State) : (dropSample s).pendingTarget = s.pendingTarget := by
  unfold dropSample
  split <;> rfl
@[simp] theorem dropSample_rxBuf (s : State) : (dropSample s).rxBuf = s.rxBuf := by
  unfold dropSample
  split <;> rfl
@[simp] theorem dropSample_rxLen (s : State) : (dropSample s).rxLen = s.rxLen := by
  unfold dropSample
  split <;> rfl
@[simp] theorem dropSample_seqState (s : State) : (dropSample s).seqState = s.seqState := by
  unfold dropSample
  split <;> rfl
@[simp] theorem dropSample_seqT0 (s : State) : (dropSample s).seqT0 = s.seqT0 := by
  unfold dropSample
  split <;> rfl
@[simp] theorem dropSample_seqTimeout (s : State) : (dropSample s).seqTimeout = s.seqTimeout := by
  unfold dropSample
  split <;> rfl
@[simp] theorem dropSample_seqTarget (s : State) : (dropSample s).seqTarget = s.seqTarget := by
  unfold dropSample
  split <;> rfl
@[simp] theorem dropSample_seqTest (s : State) : (dropSample s).seqTest = s.seqTest := by
  unfold dropSample
  split <;> rfl
@[simp] theorem dropSample_fifo (s : State) : (dropSample s).fifo = s.fifo := by
  unfold dropSample
  split <;> rfl
@[simp] theorem dropSample_now (s : State) : (dropSample s).now = s.now := by
  unfold dropSample
  split <;> rfl
@[simp] theorem dropSample_events (s : State) : (dropSample s).events = s.events := by
  unfold dropSample
  split <;> rfl
@[simp] theorem dropSample_takenRx (s : State) : (dropSample s).takenRx = s.takenRx := by
  unfold dropSample
  split <;> rfl
@[simp] theorem dropSample_takenCmd (s : State) : (dropSample s).takenCmd = s.takenCmd := by
  unfold dropSample
  split <;> rfl
theorem dropSample_of_cons (s : State) (p : PortSample) (rest : List PortSample) (h : s.inputs = p :: rest) :
    dropSample s = { s with inputs := rest } := by
  simp [dropSample, h]

theorem currentSample_of_cons (s : State) (p : PortSample) (rest : List PortSample) (h : s.inputs = p :: rest) :
    currentSample s = p := by
  simp [currentSample, h]


/-! ### storeOrDrop -/

@[simp] theorem storeOrDrop_cfg (b : Byte) (s : State) : (storeOrDrop b s).cfg = s.cfg := by
  unfold storeOrDrop
  split <;> [rfl; (split <;> rfl)]
@[simp] theorem storeOrDrop_localCaps (b : Byte) (s : State) : (storeOrDrop b s).localCaps = s.localCaps := by
  unfold storeOrDrop
  split <;> [rfl; (split <;> rfl)]
@[simp] theorem storeOrDrop_currentSpeed (b : Byte) (s : State) : (storeOrDrop b s).currentSpeed = s.currentSpeed := by
  unfold storeOrDrop
  split <;> [rfl; (split <;> rfl)]
@[simp] theorem storeOrDrop_lastRxTime (b : Byte) (s : State) : (storeOrDrop b s).lastRxTime = s.lastRxTime := by
  unfold storeOrDrop
  split <;> [rfl; (split <;> rfl)]
@[simp] theorem storeOrDrop_lastAsTxTime (b : Byte) (s : State) : (storeOrDrop b s).lastAsTxTime = s.lastAsTxTime := by
  unfold storeOrDrop
  split <;> [rfl; (split <;> rfl)]
@[simp] theorem storeOrDrop_testState (b : Byte) (s : State) : (storeOrDrop b s).testState = s.testState := by
  unfold storeOrDrop
  split <;> [rfl; (split <;> rfl)]
@[simp] theorem storeOrDrop_pendingTest (b : Byte) (s : State) : (storeOrDrop b s).pendingTest = s.pendingTest := by
  unfold storeOrDrop
  split <;> [rfl; (split <;> rfl)]
@[simp] theorem storeOrDrop_pendingTarget (b : Byte) (s : State) : (storeOrDrop b s).pendingTarget = s.pendingTarget := by
  unfold storeOrDrop
  split <;> [rfl; (split <;> rfl)]
@[simp] theorem storeOrDrop_seqState (b : Byte) (s : State) : (storeOrDrop b s).seqState = s.seqState := by
  unfold storeOrDrop
  split <;> [rfl; (split <;> rfl)]
@[simp] theorem storeOrDrop_seqT0 (b : Byte) (s : State) : (storeOrDrop b s).seqT0 = s.seqT0 := by
  unfold storeOrDrop
  split <;> [rfl; (split <;> rfl)]
@[simp] theorem storeOrDrop_seqTimeout (b : Byte) (s : State) : (storeOrDrop b s).seqTimeout = s.seqTimeout := by
  unfold storeOrDrop
  split <;> [rfl; (split <;> rfl)]
@[simp] theorem storeOrDrop_seqTarget (b : Byte) (s : State) : (storeOrDrop b s).seqTarget = s.seqTarget := by
  unfold storeOrDrop
  split <;> [rfl; (split <;> rfl)]
@[simp] theorem storeOrDrop_seqTest (b : Byte) (s : State) : (storeOrDrop b s).seqTest = s.seqTest := by
  unfold storeOrDrop
  split <;> [rfl; (split <;> rfl)]
@[simp] theorem storeOrDrop_fifo (b : Byte) (s : State) : (storeOrDrop b s).fifo = s.fifo := by
  unfold storeOrDrop
  split <;> [rfl; (split <;> rfl)]
@[simp] theorem storeOrDrop_now (b : Byte) (s : State) : (storeOrDrop b s).now = s.now := by
  unfold storeOrDrop
  split <;> [rfl; (split <;> rfl)]
@[simp] theorem storeOrDrop_events (b : Byte) (s : State) : (storeOrDrop b s).events = s.events := by
  unfold storeOrDrop
  split <;> [rfl; (split <;> rfl)]
@[simp] theorem storeOrDrop_takenRx (b : Byte) (s : State) : (storeOrDrop b s).takenRx = s.takenRx := by
  unfold storeOrDrop
  split <;> [rfl; (split <;> rfl)]
@[simp] theorem storeOrDrop_takenCmd (b : Byte) (s : State) : (storeOrDrop b s).takenCmd = s.takenCmd := by
  unfold storeOrDrop
  split <;> [rfl; (split <;> rfl)]
@[simp] theorem storeOrDrop_inputs (b : Byte) (s : State) : (storeOrDrop b s).inputs = s.inputs := by
  unfold storeOrDrop
  split <;> [rfl; (split <;> rfl)]
@[simp] theorem storeOrDrop_unlisted (b : Byte) (s : State) : (storeOrDrop b s).unlisted = s.unlisted := by
  unfold storeOrDrop
  split <;> [rfl; (split <;> rfl)]

/-- Everything `storeOrDrop` can do: ignore, overflow, or store. -/
theorem storeOrDrop_cases (b : Byte) (s : State) :
    (s.rxLen = 0 ∧ storeOrDrop b s = s) ∨
    (s.rxLen ≠ 0 ∧ s.rxLen = s.cfg.rxBufCap ∧ storeOrDrop b s = leaveFrame s) ∨
    (s.rxLen ≠ 0 ∧ s.rxLen ≠ s.cfg.rxBufCap ∧ storeOrDrop b s = storeByte b s) := by
  unfold storeOrDrop
  by_cases h : s.rxLen = 0
  · simp [h]
  · by_cases hc : s.rxLen = s.cfg.rxBufCap
    · exact .inr (.inl ⟨h, hc, by rw [if_neg h, if_pos hc]⟩)
    · exact .inr (.inr ⟨h, hc, by rw [if_neg h, if_neg hc]⟩)

/-! ### resetStep -/

@[simp] theorem resetStep_cfg (s : State) : (resetStep s).cfg = s.cfg := rfl
@[simp] theorem resetStep_localCaps (s : State) : (resetStep s).localCaps = ⟨0x00, 0x00, 0x00, 0x00⟩ := rfl
@[simp] theorem resetStep_currentSpeed (s : State) : (resetStep s).currentSpeed = .x1 := rfl
@[simp] theorem resetStep_lastRxTime (s : State) : (resetStep s).lastRxTime = 0 := rfl
@[simp] theorem resetStep_lastAsTxTime (s : State) : (resetStep s).lastAsTxTime = 0 := rfl
@[simp] theorem resetStep_testState (s : State) : (resetStep s).testState = .idle := rfl
@[simp] theorem resetStep_pendingTest (s : State) : (resetStep s).pendingTest = .x1 := rfl
@[simp] theorem resetStep_pendingTarget (s : State) : (resetStep s).pendingTarget = .x1 := rfl
@[simp] theorem resetStep_rxBuf (s : State) : (resetStep s).rxBuf = List.replicate s.cfg.rxBufCap 0x00 := rfl
@[simp] theorem resetStep_rxLen (s : State) : (resetStep s).rxLen = 0 := rfl
@[simp] theorem resetStep_seqState (s : State) : (resetStep s).seqState = .idle := rfl
@[simp] theorem resetStep_seqT0 (s : State) : (resetStep s).seqT0 = 0 := rfl
@[simp] theorem resetStep_seqTimeout (s : State) : (resetStep s).seqTimeout = 0 := rfl
@[simp] theorem resetStep_seqTarget (s : State) : (resetStep s).seqTarget = .x1 := rfl
@[simp] theorem resetStep_seqTest (s : State) : (resetStep s).seqTest = .x1 := rfl
@[simp] theorem resetStep_fifo (s : State) : (resetStep s).fifo = [] := rfl
@[simp] theorem resetStep_now (s : State) : (resetStep s).now = s.now := rfl
@[simp] theorem resetStep_events (s : State) : (resetStep s).events = [] := rfl
@[simp] theorem resetStep_takenRx (s : State) : (resetStep s).takenRx = false := rfl
@[simp] theorem resetStep_takenCmd (s : State) : (resetStep s).takenCmd = false := rfl
@[simp] theorem resetStep_inputs (s : State) : (resetStep s).inputs = s.inputs := rfl
@[simp] theorem resetStep_unlisted (s : State) : (resetStep s).unlisted = s.unlisted := rfl

/-! ### What readiness reads -/

@[simp] theorem space_dropSample (s : State) : space (dropSample s) = space s := by
  simp [space]

@[simp] theorem rxReady_dropSample (s : State) : rxReady (dropSample s) = rxReady s := by
  simp [rxReady]

@[simp] theorem cmdReady_dropSample (s : State) : cmdReady (dropSample s) = cmdReady s := by
  simp [cmdReady]

/-- A frame's length: eight bytes and its payload (30_encoding.md R70). -/
@[simp] theorem frameBytes_length (c : Command) (p : List Byte) : (frameBytes c p).length = 8 + p.length := by
  simp [frameBytes, manufacturer]
  omega

end Sys2Proof.Machine
end

