-- ==== Sys2Proof/Laws/Buffer.lean ====
section
/-! SUPPORT. The receive buffer is the block's only array (20_memory.md R50): what its writes do to its length, to the
bytes of the frame in progress and to the candidate, and the invariant on it as a proposition. -/

namespace Sys2Proof.Machine

/-- `bufferSound` as a proposition. -/
theorem bufferSound_iff (s : State) :
    bufferSound s = true ↔
      s.rxBuf.length = s.cfg.rxBufCap ∧ s.rxLen ≤ s.cfg.rxBufCap ∧ (s.rxLen = 0 ∨ s.rxBuf[0]? = some 0xF0) := by
  simp [bufferSound, List.head?_eq_getElem?, and_assoc]

/-- A stored byte is read back at its own index. -/
theorem storeByte_read (b : Byte) (s : State) (h : s.rxLen < s.rxBuf.length) :
    (storeByte b s).rxBuf[s.rxLen]? = some b := List.getElem?_set_self h

/-- A stored byte changes no other byte of the buffer. -/
theorem storeByte_read_other (b : Byte) (s : State) (k : Nat) (h : k ≠ s.rxLen) :
    (storeByte b s).rxBuf[k]? = s.rxBuf[k]? := List.getElem?_set_ne h.symm

/-- Storing a byte appends it to the candidate. -/
theorem candidate_storeByte (b : Byte) (s : State) (h : s.rxLen < s.rxBuf.length) :
    candidate (storeByte b s) = candidate s ++ [b] := by
  simp only [candidate, storeByte]
  rw [List.take_add_one, List.take_set_of_le (Nat.le_refl _), List.getElem?_set_self h]
  rfl

/-- Starting a frame makes the candidate its first byte. -/
theorem candidate_startFrame (s : State) (h : 0 < s.rxBuf.length) : candidate (startFrame s) = [0xF0] := by
  simp only [candidate, startFrame]
  cases hb : s.rxBuf with
  | nil => simp [hb] at h
  | cons a l => rfl

end Sys2Proof.Machine
end

