-- ==== Sys2Proof/Laws/Codec.lean ====
section
/-! SUPPORT. Small lemmas of the codec and of the host command word (41_codec.md; 30_encoding.md R73, R82), said once for
every command and every field, and that `exec` of a frame instruction is its dispatch. -/

namespace Sys2Proof

/-! ### Commands -/

/-- Every command is read back from its own id byte. -/
@[simp] theorem commandOf_commandCode (c : Command) : commandOf (commandCode c) = some c := by cases c <;> rfl

/-- A byte that names a command is that command's id byte. -/
theorem commandCode_of_commandOf {b : Byte} {c : Command} (h : commandOf b = some c) : b = commandCode c := by
  have k := List.find?_some h
  simp only [beq_iff_eq] at k
  exact k.symm

/-- No command id is a frame delimiter. -/
theorem commandCode_ne_delimiter (c : Command) : commandCode c ≠ 0xF0 ∧ commandCode c ≠ 0xF7 := by
  cases c <;> exact ⟨by decide, by decide⟩

/-- No frame is longer than 16 bytes: the longest payload has eight (30_encoding.md R73). -/
theorem payloadLength_le (c : Command) : payloadLength c ≤ 8 := by cases c <;> decide

/-! ### Frames -/

theorem frameBytes_length (c : Command) (p : List Byte) : (frameBytes c p).length = 8 + p.length := by
  simp only [frameBytes, manufacturer, List.length_append, List.length_cons, List.length_nil]
  omega

theorem frameBytes_getLast? (c : Command) (p : List Byte) : (frameBytes c p).getLast? = some 0xF7 := by
  rw [frameBytes, List.getLast?_append]
  rfl

/-- The payload of a built frame is the payload it was built with. -/
theorem framePayload_frameBytes (c : Command) (p : List Byte) : framePayload (frameBytes c p) = p := by
  simp [framePayload, frameBytes, manufacturer]

/-- A payload of the command's length gives an instruction. -/
theorem frameInstr_isSome (c : Command) (p : List Byte) (h : p.length = payloadLength c) :
    ∃ i, frameInstr c p = some i := by
  cases c <;> simp only [payloadLength] at h <;>
    rcases p with _ | ⟨a, _ | ⟨b, _ | ⟨d, _ | ⟨e, _ | ⟨f, q⟩⟩⟩⟩⟩ <;> simp_all [frameInstr]

/-- The instruction of a command and a payload of its length is well formed, and its encoding is their frame. -/
theorem encode_of_frameInstr {c : Command} {p : List Byte} {i : Instr} (h : frameInstr c p = some i)
    (hl : p.length = payloadLength c) : wellFormed i = true ∧ encode i = .frame (frameBytes c p) := by
  cases c <;> simp only [payloadLength] at hl <;>
    rcases p with _ | ⟨a, _ | ⟨b, _ | ⟨d, _ | ⟨e, _ | ⟨f, q⟩⟩⟩⟩⟩ <;>
    simp only [List.length_cons, List.length_nil, Nat.zero_add, Nat.reduceAdd, Nat.reduceEqDiff, reduceCtorEq,
      Nat.add_eq_zero_iff, one_ne_zero, and_false, OfNat.ofNat_ne_zero] at hl <;>
    simp only [frameInstr, Option.some.injEq] at h <;> subst h <;>
    simp_all [wellFormed, encode, wellFormedPattern, patternLength]

/-! ### Command words -/

/-- Every bit of a built command word. -/
theorem cmdWordOf_getLsbD (op : BitVec 3) (v : BitVec 4) (c : Bool) (n : Ms) (k : Nat) :
    (cmdWordOf op v c n).getLsbD k =
      if k < 3 then op.getLsbD k else if k < 7 then v.getLsbD (k - 3) else if k < 8 then c else n.getLsbD (k - 8) := by
  have h1 : (cmdWordOf op v c n).getLsbD k =
      if k < 3 then op.getLsbD k else ((n ++ BitVec.ofBool c) ++ v).getLsbD (k - 3) := BitVec.getLsbD_append
  have h2 : ((n ++ BitVec.ofBool c) ++ v).getLsbD (k - 3) =
      if k - 3 < 4 then v.getLsbD (k - 3) else (n ++ BitVec.ofBool c).getLsbD (k - 3 - 4) := BitVec.getLsbD_append
  have h3 : (n ++ BitVec.ofBool c).getLsbD (k - 3 - 4) =
      if k - 3 - 4 < 1 then (BitVec.ofBool c).getLsbD (k - 3 - 4) else n.getLsbD (k - 3 - 4 - 1) :=
    BitVec.getLsbD_append
  rw [h1, h2, h3]
  by_cases a : k < 3
  · simp [a]
  by_cases b : k < 7
  · have : k - 3 < 4 := by omega
    simp [a, b, this]
  have : ¬ (k - 3 < 4) := by omega
  by_cases d : k < 8
  · have e : k = 7 := by omega
    subst e
    cases c <;> rfl
  · have f : ¬ (k - 3 - 4 < 1) := by omega
    have g : k - 3 - 4 - 1 = k - 8 := by omega
    simp [a, b, d, this, f, g]

@[simp] theorem cmdOp_cmdWordOf (op : BitVec 3) (v : BitVec 4) (c : Bool) (n : Ms) :
    cmdOp (cmdWordOf op v c n) = op := by
  apply BitVec.eq_of_getLsbD_eq
  intro k hk
  simp [cmdOp, cmdWordOf_getLsbD, hk]

@[simp] theorem cmdSpeed_cmdWordOf (op : BitVec 3) (v : BitVec 4) (c : Bool) (n : Ms) :
    cmdSpeed (cmdWordOf op v c n) = v := by
  apply BitVec.eq_of_getLsbD_eq
  intro k hk
  have : 3 + k < 7 := by omega
  simp [cmdSpeed, cmdWordOf_getLsbD, hk, this]

@[simp] theorem cmdCert_cmdWordOf (op : BitVec 3) (v : BitVec 4) (c : Bool) (n : Ms) :
    cmdCert (cmdWordOf op v c n) = c := by
  simp only [cmdCert, cmdWordOf_getLsbD]
  simp

@[simp] theorem cmdTimeout_cmdWordOf (op : BitVec 3) (v : BitVec 4) (c : Bool) (n : Ms) :
    cmdTimeout (cmdWordOf op v c n) = n := by
  apply BitVec.eq_of_getLsbD_eq
  intro k hk
  have h1 : ¬ 8 + k < 3 := by omega
  have h2 : ¬ 8 + k < 7 := by omega
  simp [cmdTimeout, cmdWordOf_getLsbD, hk, h1, h2]

namespace Machine

/-- The meaning of a frame instruction is what its dispatch runs. -/
theorem exec_eq_dispatchFrame {i : Instr} {f : List Byte} (h : encode i = .frame f) (s : State) :
    exec i s = dispatchFrame i s := by
  cases i <;> first | rfl | exact absurd h (by simp [encode])

end Machine

end Sys2Proof
end

