-- ==== Sys2Proof/Laws/Effects.lean ====
section
/-! SUPPORT. What each shared operation and each phase of a step can do, said once: an inductive relation whose
constructors are the possible effects, and an inversion lemma "if it answers next t, then one of these". Claims about the
step are proved by cases on these and never unfold a meaning. -/

namespace Sys2Proof.Machine

/-- `andThen` answers next exactly where both parts do. -/
theorem andThen_eq_next (r : Result) (f : State → Result) (t : State) :
    andThen r f = .next t ↔ ∃ s, r = .next s ∧ f s = .next t := by
  cases r <;> simp [andThen]

/-- Running one part after another is associative. -/
theorem andThen_assoc (r : Result) (f g : State → Result) :
    andThen (andThen r f) g = andThen r (fun s => andThen (f s) g) := by
  cases r <;> rfl

@[simp] theorem andThen_next (s : State) (f : State → Result) : andThen (.next s) f = f s := rfl

/-! ### Frame handlers -/

/-- What an accepted frame can do to a state (43_engine_common.md R167). -/
inductive FrameEffect (s : State) : State → Prop
  | ignored : FrameEffect s s
  | answered : mayAnswer s.cfg.role = true →
      FrameEffect s (emit .speedRequested (emitFrame .speedAnswer (capsBytes s.localCaps) s))
  | accepted (g : Speed) : mayAnswer s.cfg.role = true → has s.localCaps (some g) = true →
      FrameEffect s (acceptDirectly g s)
  | testAccepted (v g : Speed) : mayAnswer s.cfg.role = true → has s.localCaps (some g) = true →
      FrameEffect s (acceptForTest v g s)
  | testPassed : mayAnswer s.cfg.role = true → s.testState = .awaitingTest →
      FrameEffect s (setTestState .awaitingTest2 (emitFrame .speedResult testPattern (commit s.pendingTest s)))
  | testFailed : mayAnswer s.cfg.role = true → s.testState = .awaitingTest →
      FrameEffect s (setTestState .idle (commit .x1 s))
  | test2Passed : mayAnswer s.cfg.role = true → s.testState = .awaitingTest2 →
      FrameEffect s (setTestState .idle (commit s.pendingTarget (emitFrame .speedResult2 [] s)))
  | pushed (v : Speed) : has s.localCaps (some v) = true → FrameEffect s (commit v s)
  | answerRefused (c : Cause) : mayOriginate s.cfg.role = true → s.seqState = .waitAnswer →
      c = .speedUnsupported ∨ c = .noProbeSpeed → FrameEffect s (finish false c s)
  | negotiationRequested (v : Speed) (rc : Caps) : mayOriginate s.cfg.role = true → s.seqState = .waitAnswer →
      has rc (some s.seqTarget) = true → selectTest s.cfg.probePolicy rc s.seqTarget = some v →
      FrameEffect s (requestNegotiation v s)
  | ackedWithoutTest : mayOriginate s.cfg.role = true → s.seqState = .waitAck →
      FrameEffect s (finish true .ok (commit s.seqTarget s))
  | ackedForTest : mayOriginate s.cfg.role = true → s.seqState = .waitAck → s.seqTarget ≠ .x1 → s.seqTest ≠ s.seqTarget →
      FrameEffect s (enterWait .settle (emitAll (List.replicate s.cfg.breathBytes (.tx 0x00)) s))
  | resultGood : mayOriginate s.cfg.role = true → s.seqState = .waitResult →
      FrameEffect s (enterWait .waitResult2 (emitFrame .speedTest2 [] s))
  | resultBad : mayOriginate s.cfg.role = true → s.seqState = .waitResult →
      FrameEffect s (finish false .testBadPattern (commit .x1 s))
  | result2 : mayOriginate s.cfg.role = true → s.seqState = .waitResult2 →
      FrameEffect s (finish true .ok (commit s.seqTarget s))

/-- Every dispatched frame answers next, with one of the effects. -/
theorem dispatchFrame_effect (i : Instr) (s : State) : ∃ t, dispatchFrame i s = .next t ∧ FrameEffect s t := by
  cases i with
  | speedRequest =>
    simp only [dispatchFrame, execSpeedRequest]
    split
    · exact ⟨_, rfl, .answered ‹_›⟩
    · exact ⟨_, rfl, .ignored⟩
  | speedAnswer m1 m2 c1 c2 =>
    simp only [dispatchFrame, execSpeedAnswer]
    split
    · rename_i h
      simp only [Bool.and_eq_true, beq_iff_eq] at h
      split
      · exact ⟨_, rfl, .answerRefused _ h.1 h.2 (.inl rfl)⟩
      · split
        · exact ⟨_, rfl, .answerRefused _ h.1 h.2 (.inr rfl)⟩
        · exact ⟨_, rfl, .negotiationRequested _ (capsFromBytes m1 m2 c1 c2) h.1 h.2 (by simp_all) ‹_›⟩
    · exact ⟨_, rfl, .ignored⟩
  | speedNegotiate a g =>
    simp only [dispatchFrame, execSpeedNegotiate]
    split
    · split
      · exact ⟨_, rfl, .ignored⟩
      · split
        · exact ⟨_, rfl, .ignored⟩
        · split
          · exact ⟨_, rfl, .accepted _ ‹_› (by simp_all)⟩
          · split
            · exact ⟨_, rfl, .ignored⟩
            · exact ⟨_, rfl, .testAccepted _ _ ‹_› (by simp_all)⟩
    · exact ⟨_, rfl, .ignored⟩
  | speedAck =>
    simp only [dispatchFrame, execSpeedAck]
    split
    · rename_i h
      simp only [Bool.and_eq_true, beq_iff_eq] at h
      split
      · exact ⟨_, rfl, .ackedWithoutTest h.1 h.2⟩
      · rename_i hn
        simp only [Bool.or_eq_true, decide_eq_true_eq, not_or] at hn
        exact ⟨_, rfl, .ackedForTest h.1 h.2 hn.1 hn.2⟩
    · exact ⟨_, rfl, .ignored⟩
  | speedTest p =>
    simp only [dispatchFrame, execSpeedTest]
    split
    · rename_i h
      simp only [Bool.and_eq_true, beq_iff_eq] at h
      split
      · exact ⟨_, rfl, .testPassed h.1 h.2⟩
      · exact ⟨_, rfl, .testFailed h.1 h.2⟩
    · exact ⟨_, rfl, .ignored⟩
  | speedResult p =>
    simp only [dispatchFrame, execSpeedResult]
    split
    · rename_i h
      simp only [Bool.and_eq_true, beq_iff_eq] at h
      split
      · exact ⟨_, rfl, .resultGood h.1 h.2⟩
      · exact ⟨_, rfl, .resultBad h.1 h.2⟩
    · exact ⟨_, rfl, .ignored⟩
  | speedTest2 =>
    simp only [dispatchFrame, execSpeedTest2]
    split
    · rename_i h
      simp only [Bool.and_eq_true, beq_iff_eq] at h
      exact ⟨_, rfl, .test2Passed h.1 h.2⟩
    · exact ⟨_, rfl, .ignored⟩
  | speedResult2 =>
    simp only [dispatchFrame, execSpeedResult2]
    split
    · rename_i h
      simp only [Bool.and_eq_true, beq_iff_eq] at h
      exact ⟨_, rfl, .result2 h.1 h.2⟩
    · exact ⟨_, rfl, .ignored⟩
  | speedPush x =>
    simp only [dispatchFrame, execSpeedPush]
    split
    · exact ⟨_, rfl, .ignored⟩
    · split
      · exact ⟨_, rfl, .pushed _ ‹_›⟩
      · exact ⟨_, rfl, .ignored⟩
  | rxF0 => exact ⟨_, rfl, .ignored⟩
  | rxF7 => exact ⟨_, rfl, .ignored⟩
  | rxFE => exact ⟨_, rfl, .ignored⟩
  | rxByte b => exact ⟨_, rfl, .ignored⟩
  | reserved0 => exact ⟨_, rfl, .ignored⟩
  | setSupported v c => exact ⟨_, rfl, .ignored⟩
  | negotiate v n => exact ⟨_, rfl, .ignored⟩
  | push v => exact ⟨_, rfl, .ignored⟩
  | tick => exact ⟨_, rfl, .ignored⟩
  | sendActiveSense => exact ⟨_, rfl, .ignored⟩
  | reserved6 => exact ⟨_, rfl, .ignored⟩
  | reserved7 => exact ⟨_, rfl, .ignored⟩

/-! ### The RX phase -/

/-- What a received byte can do (42_reassembler.md R140 to R147). -/
inductive ByteEffect (s : State) : State → Prop
  | started : ByteEffect s (startFrame (stampRx s))
  | stored (b : Byte) : s.rxLen ≠ 0 → s.rxLen ≠ s.cfg.rxBufCap → ByteEffect s (storeByte b (stampRx s))
  | ignored : s.rxLen = 0 → ByteEffect s (stampRx s)
  | overflowed : s.rxLen ≠ 0 → s.rxLen = s.cfg.rxBufCap → ByteEffect s (leaveFrame (stampRx s))
  | ended (t : State) : s.rxLen ≠ 0 → s.rxLen ≠ s.cfg.rxBufCap →
      FrameEffect (leaveFrame (storeByte 0xF7 (stampRx s))) t → ByteEffect s t

theorem storeOrDrop_stampRx_effect (b : Byte) (s : State) : ByteEffect s (storeOrDrop b (stampRx s)) := by
  rcases storeOrDrop_cases b (stampRx s) with ⟨h, e⟩ | ⟨h, hc, e⟩ | ⟨h, hc, e⟩ <;> rw [e]
  · exact .ignored h
  · exact .overflowed h hc
  · exact .stored b h hc

/-- Every received byte answers next, with one of the effects. -/
theorem exec_decodeByte_effect (b : Byte) (s : State) : ∃ t, exec (decodeByte b) s = .next t ∧ ByteEffect s t := by
  unfold decodeByte
  split
  · exact ⟨_, rfl, .started⟩
  split
  · simp only [exec, execRxF7]
    by_cases h : s.rxLen = 0
    · exact ⟨_, by rw [if_pos h], .ignored h⟩
    by_cases hc : s.rxLen = s.cfg.rxBufCap
    · exact ⟨_, by rw [if_neg h, if_pos hc], .overflowed h hc⟩
    · simp only [if_neg h, if_neg hc, endFrame]
      split
      · obtain ⟨t, e, he⟩ := dispatchFrame_effect _ (leaveFrame (storeByte 0xF7 (stampRx s)))
        exact ⟨t, e, .ended t h hc he⟩
      · exact ⟨_, rfl, .ended _ h hc .ignored⟩
  split
  · exact ⟨_, rfl, storeOrDrop_stampRx_effect _ s⟩
  · exact ⟨_, rfl, storeOrDrop_stampRx_effect _ s⟩

/-! ### The SEQ phase -/

/-- What the sequencer's time rules can do (44_master.md R185, R188 to R191). -/
inductive SeqEffect (s : State) : State → Prop
  | waits : SeqEffect s s
  | noAnswer : s.seqState = .waitAnswer → s.seqTimeout.toNat < elapsed s.now s.seqT0 →
      SeqEffect s (finish false .noAnswer s)
  | noAck : s.seqState = .waitAck → s.seqTimeout.toNat < elapsed s.now s.seqT0 → SeqEffect s (finish false .noAck s)
  | settled : s.seqState = .settle → s.cfg.settleMs ≤ elapsed s.now s.seqT0 → SeqEffect s (endSettle s)
  | testTimeout : s.seqState = .waitResult → s.cfg.testTimeoutMs < elapsed s.now s.seqT0 →
      SeqEffect s (finish false .testTimeout (commit .x1 s))
  | test2Timeout : s.seqState = .waitResult2 → s.cfg.testTimeoutMs < elapsed s.now s.seqT0 →
      SeqEffect s (finish false .test2Timeout (commit .x1 s))

/-- The SEQ phase answers next, with one of the effects. -/
theorem seqTime_effect (s : State) : ∃ t, seqTime s = .next t ∧ SeqEffect s t := by
  unfold seqTime
  split
  · exact ⟨_, rfl, .waits⟩
  all_goals split
  · exact ⟨_, rfl, .noAnswer ‹_› ‹_›⟩
  · exact ⟨_, rfl, .waits⟩
  · exact ⟨_, rfl, .noAck ‹_› ‹_›⟩
  · exact ⟨_, rfl, .waits⟩
  · exact ⟨_, rfl, .settled ‹_› ‹_›⟩
  · exact ⟨_, rfl, .waits⟩
  · exact ⟨_, rfl, .testTimeout ‹_› ‹_›⟩
  · exact ⟨_, rfl, .waits⟩
  · exact ⟨_, rfl, .test2Timeout ‹_› ‹_›⟩
  · exact ⟨_, rfl, .waits⟩

/-- An IDLE sequencer has no time rule (43_engine_common.md R162). -/
theorem seqTime_of_idle (s : State) (h : s.seqState = .idle) : seqTime s = .next s := by
  simp [seqTime, h]

/-! ### The CMD phase -/

/-- What a host command with operation `op` can do (46_host_ops.md R236). -/
inductive CommandEffect (s : State) (op : BitVec 3) : State → Prop
  | nothing : CommandEffect s op s
  | rejected (r : Reason) : CommandEffect s op (rejectCommand op r s)
  | capabilityAdded (v : Speed) (cert : Bool) : op = 1 →
      CommandEffect s op { s with localCaps := addCap s.localCaps v cert }
  | negotiationStarted (v : Speed) (n : Ms) : op = 2 → mayOriginate s.cfg.role = true →
      CommandEffect s op (startNegotiation v n s)
  | pushSent (v : Speed) : op = 3 → mayOriginate s.cfg.role = true →
      CommandEffect s op (commit v (emitFrame .speedPush [idByte v] s))
  | linkLost : op = 4 → s.currentSpeed ≠ .x1 → s.cfg.wdRxTimeoutMs < elapsed s.now s.lastRxTime →
      CommandEffect s op (setTestState .idle (commit .x1 s))
  | keptAlive : s.currentSpeed ≠ .x1 → CommandEffect s op (emitActiveSense s)

/-- Every host command answers next, with one of the effects. -/
theorem exec_decodeCommand_effect (w : CmdWord) (s : State) :
    ∃ t, exec (decodeCommand w) s = .next t ∧ CommandEffect s (cmdOp w) t := by
  have hop : ∀ n : Nat, n < 8 → (cmdOp w).toNat = n → cmdOp w = BitVec.ofNat 3 n := by
    intro n hn h
    apply BitVec.eq_of_toNat_eq
    rw [h, BitVec.toNat_ofNat, Nat.mod_eq_of_lt hn]
  unfold decodeCommand
  split
  · rename_i h
    simp only [exec, execSetSupported]
    rw [hop 1 (by omega) h]
    split
    · exact ⟨_, rfl, .rejected _⟩
    · exact ⟨_, rfl, .capabilityAdded _ _ rfl⟩
  · rename_i h
    simp only [exec, execNegotiate]
    rw [hop 2 (by omega) h]
    split
    · exact ⟨_, rfl, .rejected _⟩
    · split
      · exact ⟨_, rfl, .rejected _⟩
      · exact ⟨_, rfl, .negotiationStarted _ _ rfl (by simp_all)⟩
  · rename_i h
    simp only [exec, execPush]
    rw [hop 3 (by omega) h]
    split
    · exact ⟨_, rfl, .rejected _⟩
    · split
      · exact ⟨_, rfl, .rejected _⟩
      · exact ⟨_, rfl, .pushSent _ rfl (by simp_all)⟩
  · rename_i h
    simp only [exec, execTick]
    rw [hop 4 (by omega) h]
    split
    · exact ⟨_, rfl, .nothing⟩
    · split
      · exact ⟨_, rfl, .linkLost rfl ‹_› ‹_›⟩
      · split
        · exact ⟨_, rfl, .keptAlive ‹_›⟩
        · exact ⟨_, rfl, .nothing⟩
  · rename_i h
    simp only [exec, execSendActiveSense]
    split
    · exact ⟨_, rfl, .nothing⟩
    · exact ⟨_, rfl, .keptAlive ‹_›⟩
  · rename_i h
    rw [hop 6 (by omega) h]
    exact ⟨_, rfl, .rejected _⟩
  · rename_i h
    rw [hop 7 (by omega) h]
    exact ⟨_, rfl, .rejected _⟩
  · rename_i h1 h2 h3 h4 h5 h6 h7
    have h : (cmdOp w).toNat = 0 := by
      have hlt := (cmdOp w).isLt
      have : ∀ n, n < 8 → n ≠ 1 → n ≠ 2 → n ≠ 3 → n ≠ 4 → n ≠ 5 → n ≠ 6 → n ≠ 7 → n = 0 := by omega
      exact this _ hlt h1 h2 h3 h4 h5 h6 h7
    rw [hop 0 (by omega) h]
    exact ⟨_, rfl, .rejected _⟩

/-! ### The step -/

/-- What the RX phase can do. -/
def rxEffect (taken : Bool) (s t : State) : Prop := if taken then ByteEffect s t else t = s

/-- What the CMD phase can do. -/
def cmdEffect (taken : Bool) (op : BitVec 3) (s t : State) : Prop := if taken then CommandEffect s op t else t = s

/-- What a step on a sample can do (43_engine_common.md R160). -/
inductive StepEffect (p : PortSample) (s : State) : State → Prop
  | reset : p.rst = true → StepEffect p s (resetStep s)
  | stalled : p.rst = false → space s = false → StepEffect p s (stall p.evReady s)
  | ran (s1 s2 s3 : State) : p.rst = false → space s = true →
      rxEffect (p.rxValid && rxReady s)
        (beginStep p.nowMs (p.rxValid && rxReady s) (p.cmdValid && cmdReady s) s) s1 →
      SeqEffect s1 s2 → cmdEffect (p.cmdValid && cmdReady s) (cmdOp p.cmdWord) s2 s3 →
      StepEffect p s (pushFifo (popFifo p.evReady s3))

theorem rxPhase_effect (taken : Bool) (b : Byte) (s : State) :
    ∃ t, rxPhase taken b s = .next t ∧ rxEffect taken s t := by
  cases taken
  · exact ⟨s, rfl, rfl⟩
  · simpa [rxPhase, rxEffect] using exec_decodeByte_effect b s

theorem cmdPhase_effect (taken : Bool) (w : CmdWord) (s : State) :
    ∃ t, cmdPhase taken w s = .next t ∧ cmdEffect taken (cmdOp w) s t := by
  cases taken
  · exact ⟨s, rfl, rfl⟩
  · simpa [cmdPhase, cmdEffect] using exec_decodeCommand_effect w s

theorem stepOn_effect (p : PortSample) (s : State) : ∃ t, stepOn p s = .next t ∧ StepEffect p s t := by
  unfold stepOn
  split
  · exact ⟨_, rfl, .reset ‹_›⟩
  split
  · exact ⟨_, rfl, .stalled (by simp_all) (by simp_all)⟩
  · obtain ⟨s1, e1, h1⟩ := rxPhase_effect (p.rxValid && rxReady s) p.rxData
      (beginStep p.nowMs (p.rxValid && rxReady s) (p.cmdValid && cmdReady s) s)
    obtain ⟨s2, e2, h2⟩ := seqTime_effect s1
    obtain ⟨s3, e3, h3⟩ := cmdPhase_effect (p.cmdValid && cmdReady s) p.cmdWord s2
    exact ⟨_, by simp [phases, e1, e2, e3], .ran s1 s2 s3 (by simp_all) (by simp_all) h1 h2 h3⟩

/-- Inversion of the step: the coming sample is used up, and what follows is one of the effects on it. -/
theorem effect_of_step (s t : State) (h : step s = .next t) : StepEffect (currentSample s) (dropSample s) t := by
  obtain ⟨u, e, he⟩ := stepOn_effect (currentSample s) (dropSample s)
  unfold step at h
  rw [e] at h
  cases h
  exact he

end Sys2Proof.Machine
end

