-- ==== Sys2Proof/Laws/Events.lean ====
section
/-! SUPPORT. How the listeners of the output stream (Sys2Proof/Safety.lean) read appended events and transmitted bytes,
and the elapsed time from a timestamp to itself (00_scope.md R11). -/

namespace Sys2Proof.Machine

@[simp] theorem elapsed_self (a : Ms) : elapsed a a = 0 := by simp [elapsed]

/-- Both ends of an interval moved by the same amount leave it the same (wrap-safe subtraction, 00_scope.md R11). -/
theorem elapsed_add (a b d : Ms) : elapsed (a + d) (b + d) = elapsed a b := by
  unfold elapsed
  congr 1
  bv_omega

theorem speedAfter_append (v : Speed) (xs ys : List Event) :
    speedAfter v (xs ++ ys) = speedAfter (speedAfter v xs) ys := by
  induction xs generalizing v with
  | nil => rfl
  | cons e _ ih => cases e <;> exact ih _

theorem rateAfter_append (r : BitVec 32) (xs ys : List Event) :
    rateAfter r (xs ++ ys) = rateAfter (rateAfter r xs) ys := by
  induction xs generalizing r with
  | nil => rfl
  | cons e _ ih => cases e <;> exact ih _

/-- Transmitted bytes announce no speed and switch no rate. -/
@[simp] theorem speedAfter_map_tx (v : Speed) (bs : List Byte) : speedAfter v (bs.map Event.tx) = v := by
  induction bs with
  | nil => rfl
  | cons _ _ ih => exact ih

@[simp] theorem rateAfter_map_tx (r : BitVec 32) (bs : List Byte) : rateAfter r (bs.map Event.tx) = r := by
  induction bs with
  | nil => rfl
  | cons _ _ ih => exact ih

/-- `BAUD` divides the byte stream: what follows a list is sent at the rate that the list leaves. -/
theorem sentAtRate_append (r : BitVec 32) (xs ys : List Event) :
    sentAtRate r (xs ++ ys) = sentAtRate r xs ++ sentAtRate (rateAfter r xs) ys := by
  induction xs generalizing r with
  | nil => rfl
  | cons e _ ih =>
    cases e with
    | tx b => exact congrArg (List.cons (r, b)) (ih r)
    | _ => exact ih _

@[simp] theorem sentAtRate_map_tx (r : BitVec 32) (bs : List Byte) :
    sentAtRate r (bs.map Event.tx) = bs.map (fun b => (r, b)) := by
  induction bs with
  | nil => rfl
  | cons b _ ih => exact congrArg (List.cons (r, b)) ih

/-- The segments of an event list are never none. -/
theorem emittedSegments_ne_nil (r : BitVec 32) (es : List Event) : emittedSegments r es ≠ [] := by
  induction es generalizing r with
  | nil => exact List.cons_ne_nil _ _
  | cons e rest ih =>
    cases e with
    | tx b =>
      simp only [emittedSegments]
      cases h : emittedSegments r rest with
      | nil => exact absurd h (ih r)
      | cons a as => exact List.cons_ne_nil _ _
    | baud q => exact List.cons_ne_nil _ _
    | _ => exact ih r

/-- The segments hold the same bytes at the same rates as the divided stream. -/
theorem flatMap_emittedSegments (r : BitVec 32) (es : List Event) :
    (emittedSegments r es).flatMap (fun a => a.2.map (fun b => (a.1, b))) = sentAtRate r es
      ∧ (emittedSegments r es).head?.map (·.1) = some r := by
  induction es generalizing r with
  | nil => exact ⟨rfl, rfl⟩
  | cons e rest ih =>
    cases e with
    | tx b =>
      have h := ih r
      simp only [emittedSegments, sentAtRate]
      cases hs : emittedSegments r rest with
      | nil => exact absurd hs (emittedSegments_ne_nil r rest)
      | cons a as =>
        rw [hs] at h
        obtain ⟨h1, h2⟩ := h
        have ha : a.1 = r := by simpa using h2
        refine ⟨?_, by simpa [consByte] using ha⟩
        rw [← h1]
        simp [consByte, ha]
    | baud q => exact ⟨by simpa [emittedSegments, sentAtRate] using (ih q).1, rfl⟩
    | _ => exact ih r

/-- A transport that has sent every emitted byte, each at its rate, transmits in place. -/
theorem segmentsFit_self (segments : List (BitVec 32 × List Byte)) : segmentsFit segments segments = true := by
  induction segments with
  | nil => rfl
  | cons a as ih => simp [segmentsFit, ih]

theorem negDoneCount_append (xs ys : List Event) : negDoneCount (xs ++ ys) = negDoneCount xs + negDoneCount ys :=
  List.countP_append

@[simp] theorem negDoneCount_map_tx (bs : List Byte) : negDoneCount (bs.map Event.tx) = 0 := by
  induction bs with
  | nil => rfl
  | cons _ _ ih => exact ih

@[simp] theorem negDoneCount_replicate_tx (n : Nat) (b : Byte) : negDoneCount (List.replicate n (.tx b)) = 0 := by
  induction n with
  | zero => rfl
  | succ _ ih => exact ih

end Sys2Proof.Machine
end

