-- ==== Sys2Proof/Laws/Frames.lean ====
section
/-! SUPPORT. What no phase of a step touches: the build, the FIFO, the sampled time, the input fields and what the step
took; and that events are only appended. -/

namespace Sys2Proof.Machine

/-- `t` agrees with `s` on everything that a phase leaves alone. -/
def phaseFrame (s t : State) : Prop :=
  t.cfg = s.cfg ∧ t.fifo = s.fifo ∧ t.now = s.now ∧ t.takenRx = s.takenRx ∧ t.takenCmd = s.takenCmd ∧
    t.inputs = s.inputs ∧ t.unlisted = s.unlisted

theorem phaseFrame_refl (s : State) : phaseFrame s s := ⟨rfl, rfl, rfl, rfl, rfl, rfl, rfl⟩

theorem phaseFrame_trans {s t u : State} (h : phaseFrame s t) (k : phaseFrame t u) : phaseFrame s u := by
  obtain ⟨h1, h2, h3, h4, h5, h6, h7⟩ := h
  obtain ⟨k1, k2, k3, k4, k5, k6, k7⟩ := k
  exact ⟨k1.trans h1, k2.trans h2, k3.trans h3, k4.trans h4, k5.trans h5, k6.trans h6, k7.trans h7⟩

theorem frame_of_frameEffect {s t : State} (h : FrameEffect s t) : phaseFrame s t := by
  cases h <;> exact ⟨rfl, rfl, rfl, rfl, rfl, rfl, rfl⟩

theorem frame_of_byteEffect {s t : State} (h : ByteEffect s t) : phaseFrame s t := by
  cases h with
  | ended _ _ _ h =>
    have hf : phaseFrame (leaveFrame (storeByte 0xF7 (stampRx s))) t := frame_of_frameEffect h
    exact hf
  | _ => exact ⟨rfl, rfl, rfl, rfl, rfl, rfl, rfl⟩

theorem frame_of_seqEffect {s t : State} (h : SeqEffect s t) : phaseFrame s t := by
  cases h <;> exact ⟨rfl, rfl, rfl, rfl, rfl, rfl, rfl⟩

theorem frame_of_commandEffect {s t : State} {op : BitVec 3} (h : CommandEffect s op t) : phaseFrame s t := by
  cases h <;> exact ⟨rfl, rfl, rfl, rfl, rfl, rfl, rfl⟩

theorem frame_of_rxEffect {s t : State} {taken : Bool} (h : rxEffect taken s t) : phaseFrame s t := by
  cases taken
  · cases h
    exact phaseFrame_refl _
  · exact frame_of_byteEffect h

theorem frame_of_cmdEffect {s t : State} {taken : Bool} {op : BitVec 3} (h : cmdEffect taken op s t) :
    phaseFrame s t := by
  cases taken
  · cases h
    exact phaseFrame_refl _
  · exact frame_of_commandEffect h

/-- The three phases together touch none of it. -/
theorem frame_of_phases {s s1 s2 s3 : State} {rx cmd : Bool} {op : BitVec 3} (h1 : rxEffect rx s s1)
    (h2 : SeqEffect s1 s2) (h3 : cmdEffect cmd op s2 s3) : phaseFrame s s3 :=
  phaseFrame_trans (phaseFrame_trans (frame_of_rxEffect h1) (frame_of_seqEffect h2)) (frame_of_cmdEffect h3)

/-- A frame handler runs only for the SEQ and CMD phases' inputs: an IDLE sequencer stays IDLE through the RX phase. -/
theorem idle_of_rxEffect {s t : State} {taken : Bool} (h : rxEffect taken s t) (hq : s.seqState = .idle) :
    t.seqState = .idle := by
  cases taken
  · cases h
    exact hq
  · cases (h : ByteEffect s t) with
    | ended _ _ _ h => cases h <;> simp_all
    | _ => simp_all

/-- An IDLE sequencer stays IDLE through the SEQ phase, which then does nothing. -/
theorem eq_of_seqEffect_idle {s t : State} (h : SeqEffect s t) (hq : s.seqState = .idle) : t = s := by
  cases h <;> simp_all

end Sys2Proof.Machine
end

