-- ==== Sys2Proof/Laws/PerInstr.lean ====
section
/-! SUPPORT. Statements made for every instruction, one lemma per constructor: the encoding of an instruction carries the
fixed bits of its row of spec/opcode_table.json. -/

namespace Sys2Proof.Laws

/-- A byte list read with its first byte highest. -/
def numberOf (bytes : List Byte) : Nat := bytes.foldl (fun n b => 256 * n + b.toNat) 0

/-- The number of an encoded input as the opcode table gives it: the 56-bit header of a frame with f[0] in the high byte,
a byte, or a command word (30_encoding.md R72, R82). -/
def tableNumber (e : Encoded) : Nat :=
  match e with
  | .frame f => numberOf (f.take 7)
  | .byte b => b.toNat
  | .command w => w.toNat

/-- How many low bits a row fixes: its mask is that many ones. -/
def rowBits (i : Instr) : Nat :=
  match i with
  | .speedRequest => 56
  | .speedAnswer _ _ _ _ => 56
  | .speedNegotiate _ _ => 56
  | .speedAck => 56
  | .speedTest _ => 56
  | .speedResult _ => 56
  | .speedTest2 => 56
  | .speedResult2 => 56
  | .speedPush _ => 56
  | .rxF0 => 8
  | .rxF7 => 8
  | .rxFE => 8
  | .rxByte _ => 0
  | .reserved0 => 3
  | .setSupported _ _ => 3
  | .negotiate _ _ => 3
  | .push _ => 3
  | .tick => 3
  | .sendActiveSense => 3
  | .reserved6 => 3
  | .reserved7 => 3

/-- A row's "match" value. -/
def rowMatch (i : Instr) : Nat :=
  match i with
  | .speedRequest => 0xF000203C000010
  | .speedAnswer _ _ _ _ => 0xF000203C000011
  | .speedNegotiate _ _ => 0xF000203C000012
  | .speedAck => 0xF000203C000013
  | .speedTest _ => 0xF000203C000014
  | .speedResult _ => 0xF000203C000015
  | .speedTest2 => 0xF000203C000016
  | .speedResult2 => 0xF000203C000017
  | .speedPush _ => 0xF000203C000020
  | .rxF0 => 0xF0
  | .rxF7 => 0xF7
  | .rxFE => 0xFE
  | .rxByte _ => 0
  | .reserved0 => 0
  | .setSupported _ _ => 1
  | .negotiate _ _ => 2
  | .push _ => 3
  | .tick => 4
  | .sendActiveSense => 5
  | .reserved6 => 6
  | .reserved7 => 7

/-- The low three bits of a built command word are its operation. -/
theorem cmdWordOf_mod (op : BitVec 3) (v : BitVec 4) (c : Bool) (n : Ms) :
    (cmdWordOf op v c n).toNat % 8 = op.toNat := by
  have h := congrArg BitVec.toNat (cmdOp_cmdWordOf op v c n)
  simpa [cmdOp] using h

/-- The encoding of `i` has the row's match value in the bits of the row's mask. -/
def EncodingMatchesRow.Statement (i : Instr) : Prop :=
  wellFormed i = true → tableNumber (encode i) % 2 ^ rowBits i = rowMatch i

theorem EncodingMatchesRow.speedRequest : EncodingMatchesRow.Statement .speedRequest := fun _ => rfl
theorem EncodingMatchesRow.speedAnswer (m1 m2 c1 c2 : Byte) :
    EncodingMatchesRow.Statement (.speedAnswer m1 m2 c1 c2) := fun _ => rfl
theorem EncodingMatchesRow.speedNegotiate (testId targetId : Byte) :
    EncodingMatchesRow.Statement (.speedNegotiate testId targetId) := fun _ => rfl
theorem EncodingMatchesRow.speedAck : EncodingMatchesRow.Statement .speedAck := fun _ => rfl
theorem EncodingMatchesRow.speedTest (pattern : List Byte) :
    EncodingMatchesRow.Statement (.speedTest pattern) := fun _ => rfl
theorem EncodingMatchesRow.speedResult (pattern : List Byte) :
    EncodingMatchesRow.Statement (.speedResult pattern) := fun _ => rfl
theorem EncodingMatchesRow.speedTest2 : EncodingMatchesRow.Statement .speedTest2 := fun _ => rfl
theorem EncodingMatchesRow.speedResult2 : EncodingMatchesRow.Statement .speedResult2 := fun _ => rfl
theorem EncodingMatchesRow.speedPush (speedId : Byte) :
    EncodingMatchesRow.Statement (.speedPush speedId) := fun _ => rfl
theorem EncodingMatchesRow.rxF0 : EncodingMatchesRow.Statement .rxF0 := fun _ => rfl
theorem EncodingMatchesRow.rxF7 : EncodingMatchesRow.Statement .rxF7 := fun _ => rfl
theorem EncodingMatchesRow.rxFE : EncodingMatchesRow.Statement .rxFE := fun _ => rfl
theorem EncodingMatchesRow.rxByte (b : Byte) : EncodingMatchesRow.Statement (.rxByte b) := fun _ => Nat.mod_one _
theorem EncodingMatchesRow.reserved0 : EncodingMatchesRow.Statement .reserved0 := fun _ => rfl
theorem EncodingMatchesRow.setSupported (speed : BitVec 4) (cert : Bool) :
    EncodingMatchesRow.Statement (.setSupported speed cert) := fun _ => cmdWordOf_mod 1 speed cert 0
theorem EncodingMatchesRow.negotiate (speed : BitVec 4) (timeout : Ms) :
    EncodingMatchesRow.Statement (.negotiate speed timeout) := fun _ => cmdWordOf_mod 2 speed false timeout
theorem EncodingMatchesRow.push (speed : BitVec 4) :
    EncodingMatchesRow.Statement (.push speed) := fun _ => cmdWordOf_mod 3 speed false 0
theorem EncodingMatchesRow.tick : EncodingMatchesRow.Statement .tick := fun _ => rfl
theorem EncodingMatchesRow.sendActiveSense : EncodingMatchesRow.Statement .sendActiveSense := fun _ => rfl
theorem EncodingMatchesRow.reserved6 : EncodingMatchesRow.Statement .reserved6 := fun _ => rfl
theorem EncodingMatchesRow.reserved7 : EncodingMatchesRow.Statement .reserved7 := fun _ => rfl

end Sys2Proof.Laws
end

