-- ==== Sys2Proof/Tests/Slice0.lean ====
section
/-! SUPPORT. The model's own tests: ill-formed terms that WellFormed refuses, words written out from the spec that decode
to the instruction they stand for, at most two one-step tests an instruction, and for each obligation with hypotheses a
state and operands that meet them. Expected values are those of 95_test_vectors.md (V…, S…, P…) or of the rule named. -/

namespace Sys2Proof.Tests

open Sys2Proof Sys2Proof.Machine

/-! ### Helpers -/

/-- A standard build right after reset. -/
def fresh (r : Role) : State := State.resetOf (Config.standard r)

/-- The slave of 95_test_vectors.md S6: 4× supported, 8× certified. -/
def slave : State := { fresh .slave with localCaps := ⟨0x24, 0x00, 0x20, 0x00⟩ }

/-- A master in a wait state for target 4× with test speed 8×, `seq_t0 = 1000`. -/
def master (q : SeqState) : State :=
  { fresh .master with seqState := q, seqTarget := .x4, seqTest := .x8, seqT0 := 1000, seqTimeout := 30, now := 1005 }

/-- A block at 4× with given timestamps, for the watchdog vectors V111 to V118. -/
def atX4 (rx tx now : Ms) : State :=
  { fresh .slave with currentSpeed := .x4, lastRxTime := rx, lastAsTxTime := tx, now := now }

/-- A state inside a frame: the buffer holds `body`. -/
def inFrame (s : State) (body : List Byte) : State := withFrameBody body s

/-- The RTL build: a FIFO of `d` entries holding `es`. -/
def withFifo (d : Nat) (es : List Event) (s : State) : State :=
  { s with cfg := { s.cfg with evFifoDepth := some d }, fifo := es }

/-- The result answers next, and the state passes. -/
def gives (r : Result) (p : State → Bool) : Bool :=
  match r with
  | .next t => p t
  | .fault _ => false
  | .refused _ => false

/-- The state after one step. -/
def after (s : State) : State :=
  match step s with
  | .next t => t
  | .fault _ => s
  | .refused _ => s

/-- A step that answers next answers `after`. -/
theorem step_after {s : State} (h : gives (step s) (fun _ => true) = true) : step s = .next (after s) := by
  unfold after
  cases hs : step s with
  | next t => rfl
  | fault e => cases e
  | refused e => simp [gives, hs] at h

/-- The state with one sample listed. -/
def offered (p : PortSample) (s : State) : State := { s with inputs := [p] }

/-- The sample of an idle step. -/
def idleSample (t : Ms) : PortSample := { byteSample t 0x00 with rxValid := false }

/-- The sample of a reset step that also offers a byte and a command (V120). -/
def resetSample : PortSample := { byteSample 7 0x10 with rst := true, cmdValid := true, cmdWord := 4 }

/-! ### WellFormed -/

theorem test_short_pattern_is_ill_formed : wellFormed (.speedTest [0x55, 0x55]) = false := by decide
theorem test_long_pattern_is_ill_formed : wellFormed (.speedResult (testPattern ++ [0x00])) = false := by decide
theorem test_start_byte_is_no_plain_byte : wellFormed (.rxByte 0xF0) = false := by decide
theorem test_end_byte_is_no_plain_byte : wellFormed (.rxByte 0xF7) = false := by decide
theorem test_active_sense_is_no_plain_byte : wellFormed (.rxByte 0xFE) = false := by decide
theorem test_plain_byte_is_well_formed : wellFormed (.rxByte 0x80) = true := by decide

/-! ### Decoding words written out from 30_encoding.md R70 to R74, R82, R83 -/

theorem test_decode_speedRequest :
    decodeFrame [0xF0, 0x00, 0x20, 0x3C, 0x00, 0x00, 0x10, 0xF7] = .accept .speedRequest := by decide
theorem test_decode_speedAnswer :
    decodeFrame [0xF0, 0x00, 0x20, 0x3C, 0x00, 0x00, 0x11, 0x05, 0x01, 0x04, 0x02, 0xF7] =
      .accept (.speedAnswer 0x05 0x01 0x04 0x02) := by decide
theorem test_decode_speedNegotiate :
    decodeFrame [0xF0, 0x00, 0x20, 0x3C, 0x00, 0x00, 0x12, 0x07, 0x04, 0xF7] = .accept (.speedNegotiate 0x07 0x04) := by
  decide
theorem test_decode_speedAck :
    decodeFrame [0xF0, 0x00, 0x20, 0x3C, 0x00, 0x00, 0x13, 0xF7] = .accept .speedAck := by decide
theorem test_decode_speedTest :
    decodeFrame [0xF0, 0x00, 0x20, 0x3C, 0x00, 0x00, 0x14, 0x55, 0x55, 0x55, 0x55, 0x00, 0x00, 0x00, 0x01, 0xF7] =
      .accept (.speedTest [0x55, 0x55, 0x55, 0x55, 0x00, 0x00, 0x00, 0x01]) := by decide
theorem test_decode_speedResult :
    decodeFrame [0xF0, 0x00, 0x20, 0x3C, 0x00, 0x00, 0x15, 0x55, 0x55, 0x55, 0x55, 0x00, 0x00, 0x00, 0x00, 0xF7] =
      .accept (.speedResult [0x55, 0x55, 0x55, 0x55, 0x00, 0x00, 0x00, 0x00]) := by decide
theorem test_decode_speedTest2 :
    decodeFrame [0xF0, 0x00, 0x20, 0x3C, 0x00, 0x00, 0x16, 0xF7] = .accept .speedTest2 := by decide
theorem test_decode_speedResult2 :
    decodeFrame [0xF0, 0x00, 0x20, 0x3C, 0x00, 0x00, 0x17, 0xF7] = .accept .speedResult2 := by decide
theorem test_decode_speedPush :
    decodeFrame [0xF0, 0x00, 0x20, 0x3C, 0x00, 0x00, 0x20, 0x84, 0xF7] = .accept (.speedPush 0x84) := by decide
theorem test_decode_bytes :
    decodeByte 0xF0 = .rxF0 ∧ decodeByte 0xF7 = .rxF7 ∧ decodeByte 0xFE = .rxFE ∧ decodeByte 0xFF = .rxByte 0xFF := by
  decide
theorem test_decode_reserved :
    decodeCommand 0x0000000000 = .reserved0 ∧ decodeCommand 0xFFFFFFFF7E = .reserved6 ∧
      decodeCommand 0x0000000007 = .reserved7 := by decide
theorem test_decode_setSupported :
    decodeCommand 0x00000000B9 = .setSupported 7 true ∧ decodeCommand 0x0000000021 = .setSupported 4 false := by decide
theorem test_decode_negotiate : decodeCommand 0x0000001E22 = .negotiate 4 30 := by decide
theorem test_decode_push : decodeCommand 0xFFFFFFFF3B = .push 7 := by decide
theorem test_decode_watchdog :
    decodeCommand 0x0000000004 = .tick ∧ decodeCommand 0x0000000005 = .sendActiveSense := by decide

/-- V21 to V29: the checks that reject. -/
theorem test_decode_rejects_prefix_byte :
    decodeFrame [0xF0, 0x00, 0x20, 0x3D, 0x00, 0x00, 0x20, 0x04, 0xF7] = .reject .badManufacturer := by decide
theorem test_decode_rejects_command :
    decodeFrame [0xF0, 0x00, 0x20, 0x3C, 0x00, 0x00, 0x18, 0xF7] = .reject .unknownCommand := by decide
theorem test_decode_rejects_length :
    decodeFrame [0xF0, 0x00, 0x20, 0x3C, 0x00, 0x00, 0x12, 0x07, 0x04, 0x00, 0xF7] = .reject .badLength := by decide
theorem test_decode_rejects_short : decodeFrame [0xF0, 0xF7] = .reject .badManufacturer := by decide
theorem test_decode_rejects_header_only :
    decodeFrame [0xF0, 0x00, 0x20, 0x3C, 0x00, 0x00, 0xF7] = .reject .unknownCommand := by decide

/-! ### The opcode table's numbering (log 6) -/

theorem test_table_word_frames :
    decodeTableWord 56 0xF000203C000010 = some .speedRequest ∧
      decodeTableWord 56 0xF000203C000012 = some (.speedNegotiate 0x00 0x00) ∧
      decodeTableWord 56 0xF000203C000020 = some (.speedPush 0x00) ∧
      decodeTableWord 56 0xF000203C000018 = none := by decide
theorem test_table_word_bytes :
    decodeTableWord 8 0xF0 = some .rxF0 ∧ decodeTableWord 8 0xF7 = some .rxF7 ∧ decodeTableWord 8 0xFE = some .rxFE ∧
      decodeTableWord 0 0x00 = some (.rxByte 0x00) := by decide
theorem test_table_word_commands :
    decodeTableWord 8 0 = some .reserved0 ∧ decodeTableWord 8 4 = some .tick ∧
      decodeTableWord 40 2 = some (.negotiate 0 0) := by decide

/-- A placed frame is run by the very next step: the reset machine answers a SpeedRequest. -/
theorem test_fetch_word_frame :
    gives (step (State.reset.withFetchWord 56 0xF000203C000010)) (fun t => t.events.getLast? == some .speedRequested) = true := by
  decide
theorem test_fetch_word_command :
    gives (step (State.reset.withFetchWord 8 6)) (fun t => t.events == [.cmdRejected 6 .reservedOp]) = true := by decide

/-! ### Frames a slave answers -/

/-- P1 @10. -/
theorem test_speedRequest_answer :
    gives (exec .speedRequest slave) (fun t =>
      t.events == [.tx 0xF0, .tx 0x00, .tx 0x20, .tx 0x3C, .tx 0x00, .tx 0x00, .tx 0x11, .tx 0x24, .tx 0x00, .tx 0x20,
        .tx 0x00, .tx 0xF7, .speedRequested]) = true := by decide
/-- V51. -/
theorem test_speedRequest_master_ignores : gives (exec .speedRequest (fresh .master)) (· == fresh .master) = true := by
  decide
/-- S6 @1. -/
theorem test_speedNegotiate_test_path :
    gives (exec (.speedNegotiate 0x07 0x04) slave) (fun t =>
      t.testState == .awaitingTest && t.pendingTest == .x8 && t.pendingTarget == .x4 && t.currentSpeed == .x1) = true := by
  decide
/-- 45_slave.md R211: a certified target that is its own test speed is committed after the Ack. -/
theorem test_speedNegotiate_direct_path :
    gives (exec (.speedNegotiate 0x07 0x07) { slave with testState := .awaitingTest2 }) (fun t =>
      t.testState == .idle && t.currentSpeed == .x8 && t.events.drop 6 ==
        [.tx 0x13, .tx 0xF7, .baud 250000, .speedChanged .x8]) = true := by decide
/-- S6 @2. -/
theorem test_speedTest_good :
    gives (exec (.speedTest testPattern) { slave with testState := .awaitingTest, pendingTest := .x8 }) (fun t =>
      t.testState == .awaitingTest2 && t.currentSpeed == .x8 &&
        t.events.take 3 == [.baud 250000, .speedChanged .x8, .tx 0xF0]) = true := by decide
/-- V86. -/
theorem test_speedTest_bad :
    gives (exec (.speedTest [0x55, 0x55, 0x55, 0x55, 0x00, 0x00, 0x00, 0x01])
        { slave with testState := .awaitingTest, pendingTest := .x5 }) (fun t =>
      t.testState == .idle && t.currentSpeed == .x1 && t.events == [.baud 31250, .speedChanged .x1]) = true := by decide
/-- S6 @3. -/
theorem test_speedTest2_passed :
    gives (exec .speedTest2 { slave with testState := .awaitingTest2, pendingTarget := .x4 }) (fun t =>
      t.testState == .idle && t.currentSpeed == .x4 &&
        t.events.drop 6 == [.tx 0x17, .tx 0xF7, .baud 125000, .speedChanged .x4]) = true := by decide
/-- V87. -/
theorem test_speedTest2_idle_ignored : gives (exec .speedTest2 slave) (· == slave) = true := by decide
/-- V88. -/
theorem test_speedPush_keeps_the_test :
    gives (exec (.speedPush 0x04) { slave with testState := .awaitingTest }) (fun t =>
      t.testState == .awaitingTest && t.currentSpeed == .x4 && t.events == [.baud 125000, .speedChanged .x4]) = true := by
  decide
/-- V48. -/
theorem test_speedPush_unknown_id : gives (exec (.speedPush 0x0C) slave) (· == slave) = true := by decide

/-! ### Responses a master handles -/

/-- P3 @1005. -/
theorem test_speedAnswer_probes_higher :
    gives (exec (.speedAnswer 0x24 0x00 0x20 0x00) (master .waitAnswer)) (fun t =>
      t.seqState == .waitAck && t.seqTest == .x8 && t.seqT0 == 1005 &&
        t.events.drop 6 == [.tx 0x12, .tx 0x07, .tx 0x04, .tx 0xF7]) = true := by decide
/-- 44_master.md R182: the target is not among the peer's speeds. -/
theorem test_speedAnswer_unsupported :
    gives (exec (.speedAnswer 0x01 0x00 0x00 0x00) (master .waitAnswer)) (fun t =>
      t.seqState == .idle && t.events == [.negDone false .speedUnsupported]) = true := by decide
/-- P2 @8. -/
theorem test_speedAck_without_test :
    gives (exec .speedAck { master .waitAck with seqTest := .x4 }) (fun t =>
      t.seqState == .idle && t.events == [.baud 125000, .speedChanged .x4, .negDone true .ok]) = true := by decide
/-- P3 @1008. -/
theorem test_speedAck_with_test :
    gives (exec .speedAck (master .waitAck)) (fun t =>
      t.seqState == .settle && t.currentSpeed == .x1 && t.events == List.replicate 16 (.tx 0x00)) = true := by decide
/-- P3 @1030. -/
theorem test_speedResult_good :
    gives (exec (.speedResult testPattern) (master .waitResult)) (fun t =>
      t.seqState == .waitResult2 && t.seqT0 == 1005 && t.events.drop 6 == [.tx 0x16, .tx 0xF7]) = true := by decide
/-- 44_master.md R186: a wrong pattern. -/
theorem test_speedResult_bad :
    gives (exec (.speedResult [0x55, 0x55, 0x55, 0x55, 0x00, 0x00, 0x00, 0x01]) { master .waitResult with currentSpeed := .x8 })
      (fun t => t.seqState == .idle && t.currentSpeed == .x1 &&
        t.events == [.baud 31250, .speedChanged .x1, .negDone false .testBadPattern]) = true := by decide
/-- P3 @1040. -/
theorem test_speedResult2_commits :
    gives (exec .speedResult2 (master .waitResult2)) (fun t =>
      t.seqState == .idle && t.events == [.baud 125000, .speedChanged .x4, .negDone true .ok]) = true := by decide
theorem test_speedResult2_elsewhere_ignored :
    gives (exec .speedResult2 (master .waitResult)) (· == master .waitResult) = true := by decide

/-! ### Received bytes -/

/-- V40: F0 restarts a frame. -/
theorem test_rxF0_restarts :
    gives (exec .rxF0 { inFrame (fresh .slave) [0xF0, 0x00, 0x20] with now := 3 }) (fun t =>
      t.rxLen == 1 && t.rxBuf.take 3 == [0xF0, 0x00, 0x20] && t.lastRxTime == 3) = true := by decide
/-- V44: an F7 at a full buffer dispatches nothing. -/
theorem test_rxF7_full_buffer :
    gives (exec .rxF7 (inFrame (fresh .slave) ([0xF0] ++ List.replicate 15 0x01))) (fun t =>
      t.rxLen == 0 && t.events == []) = true := by decide
/-- V20. -/
theorem test_rxF7_dispatches :
    gives (exec .rxF7 { inFrame slave [0xF0, 0x00, 0x20, 0x3C, 0x00, 0x00, 0x20, 0x04] with now := 9 }) (fun t =>
      t.rxLen == 0 && t.lastRxTime == 9 && t.events == [.baud 125000, .speedChanged .x4]) = true := by decide
/-- V41. -/
theorem test_rxFE_outside :
    gives (exec .rxFE { fresh .slave with now := 2 }) (· == { fresh .slave with now := 2, lastRxTime := 2 }) = true := by
  decide
/-- V42. -/
theorem test_rxFE_inside :
    gives (exec .rxFE (inFrame (fresh .slave) [0xF0, 0x00])) (fun t => t.rxLen == 3 && t.rxBuf[2]? == some 0xFE) = true := by
  decide
/-- V43: the seventeenth byte overflows. -/
theorem test_rxByte_overflow :
    gives (exec (.rxByte 0x00) (inFrame (fresh .slave) ([0xF0] ++ List.replicate 15 0x01))) (fun t => t.rxLen == 0) = true := by
  decide
/-- V45: the sixteenth byte is stored. -/
theorem test_rxByte_last_place :
    gives (exec (.rxByte 0x01) (inFrame (fresh .slave) ([0xF0] ++ List.replicate 14 0x01))) (fun t =>
      t.rxLen == 16 && t.rxBuf[15]? == some 0x01) = true := by decide

/-! ### Host operations -/

/-- V105, V106. -/
theorem test_reserved_ops :
    gives (exec .reserved0 slave) (fun t => t.events == [.cmdRejected 0 .reservedOp]) = true ∧
      gives (exec .reserved6 slave) (fun t => t.events == [.cmdRejected 6 .reservedOp]) = true ∧
      gives (exec .reserved7 slave) (fun t => t.events == [.cmdRejected 7 .reservedOp]) = true := by decide
/-- S2's third line. -/
theorem test_setSupported_second_pair :
    gives (exec (.setSupported 10 true) { fresh .slave with localCaps := ⟨0x05, 0x00, 0x01, 0x00⟩ }) (fun t =>
      t.localCaps == ⟨0x05, 0x02, 0x01, 0x02⟩ && t.events == []) = true := by decide
/-- V104. -/
theorem test_setSupported_bad_id :
    gives (exec (.setSupported 12 false) slave) (fun t =>
      t.localCaps == slave.localCaps && t.events == [.cmdRejected 1 .badSpeedId]) = true := by decide
/-- P3 @1000. -/
theorem test_negotiate_starts :
    gives (exec (.negotiate 4 30) { fresh .master with now := 1000 }) (fun t =>
      t.seqState == .waitAnswer && t.seqTarget == .x4 && t.seqTimeout == 30 && t.seqT0 == 1000 &&
        t.events.drop 6 == [.tx 0x10, .tx 0xF7]) = true := by decide
/-- V100. -/
theorem test_negotiate_slave_rejected :
    gives (exec (.negotiate 4 30) slave) (fun t => t.seqState == .idle && t.events == [.cmdRejected 2 .role]) = true := by
  decide
/-- S4. -/
theorem test_push_commits :
    gives (exec (.push 7) (fresh .master)) (fun t =>
      t.currentSpeed == .x8 && t.events.drop 6 == [.tx 0x20, .tx 0x07, .tx 0xF7, .baud 250000, .speedChanged .x8]) = true := by
  decide
/-- V101: the role check comes before the speed check. -/
theorem test_push_slave_bad_id :
    gives (exec (.push 0) slave) (fun t => t.events == [.cmdRejected 3 .role]) = true := by decide
/-- V113. -/
theorem test_tick_keeps_alive :
    gives (exec .tick (atX4 0 0 300)) (fun t => t.lastAsTxTime == 300 && t.events == [.tx 0xFE]) = true := by decide
/-- V116: wrap-safe. -/
theorem test_tick_reverts_over_the_wrap :
    gives (exec .tick (atX4 0xFFFFFF00 0xFFFFFF00 0x2D)) (fun t =>
      t.currentSpeed == .x1 && t.events == [.baud 31250, .speedChanged .x1]) = true := by decide
/-- V108. -/
theorem test_sendActiveSense_at_x4 :
    gives (exec .sendActiveSense (atX4 0 0 400)) (fun t => t.lastAsTxTime == 400 && t.events == [.tx 0xFE]) = true := by
  decide
/-- V107. -/
theorem test_sendActiveSense_at_x1 : gives (exec .sendActiveSense slave) (· == slave) = true := by decide

/-! ### The step -/

/-- P3 @1018: the end of SETTLE. -/
theorem test_step_settle_ends :
    gives (step (offered (idleSample 1010) (master .settle))) (fun t =>
      t.seqState == .waitResult && t.currentSpeed == .x8 && t.events.take 2 == [.baud 250000, .speedChanged .x8]) = true := by
  decide
/-- V49: no byte is taken in SETTLE. -/
theorem test_step_settle_takes_no_byte :
    gives (step (offered (byteSample 1005 0xF0) (master .settle))) (fun t =>
      t.takenRx == false && t.lastRxTime == 0 && t.rxLen == 0) = true := by decide
/-- V120. -/
theorem test_step_reset :
    gives (step (offered resetSample (master .waitResult))) (fun t =>
      t.seqState == .idle && t.events == [] && t.takenRx == false && t.takenCmd == false && t.cfg.role == .master) = true := by
  decide
/-- 10_state.md R41: a FIFO with 33 free places stalls. -/
theorem test_step_stalls :
    gives (step (offered (byteSample 5 0xF0) (withFifo 34 [.speedRequested] slave))) (fun t =>
      t.takenRx == false && t.rxLen == 0 && t.fifo == [.speedRequested]) = true := by decide

/-! ### The input syntax (30_encoding.md R86; the words of S1 to S6 and P1 to P7) -/

theorem test_assembled_words :
    commandTextWord (.setSupported (.named .x8) true) = 0x00000000B9 ∧ commandTextWord (.negotiate (.named .x4) 30) = 0x0000001E22 ∧
      commandTextWord (.push (.named .x8)) = 0x000000003B ∧ commandTextWord (.setSupported (.raw 12) false) = 0x0000000061 ∧
      frameTextBytes (.speedPush (.raw 0x0C)) = [0xF0, 0x00, 0x20, 0x3C, 0x00, 0x00, 0x20, 0x0C, 0xF7] := by decide
theorem test_line_text :
    lineString (.rxFrame 20 (.speedNegotiate (.named .x8) (.named .x4))) = "@20 rx SPEED_NEGOTIATE 8x, 4x" ∧
      lineString (.command 0 (.raw 0x0000000006)) = "@0 cmd .cmd 0x0000000006" ∧
      lineString (.rxBytes 2 [0xF7, 0xFE, 0x00]) = "@2 rx .bytes F7 FE 00" := by decide
theorem test_line_samples :
    (lineSamples false (.rxFrame 5 .speedAck)).length = 8 ∧
      lineSamples false (.both 5 0xF7 .tick) = [{ byteSample 5 0xF7 with cmdValid := true, cmdWord := 4 }] ∧
      lineSamples true (.idle 5) = [{ idleSample 5 with evReady := true }] := by decide

/-! ### The environment's duties (70_reset_and_hazards.md R283 to R291) -/

/-- The states before `k` steps. -/
def runOf (k : Nat) (s : State) : List State :=
  match k with
  | 0 => []
  | k + 1 => s :: runOf k (after s)

/-- The boot of a block from `s`: a reset step, then the configuration's samples, then the rest's. -/
def bootOf (s : State) (config rest : List (Nat × PortSample)) : Boot :=
  let run := (runOf (config.length + rest.length + 1)
    { s with inputs := resetSample :: (config ++ rest).map (·.2) })
  { rate := 31250, resets := run.take 1,
    config := (config.map (·.1)).zip (run.drop 1), rest := (rest.map (·.1)).zip (run.drop (config.length + 1)) }

/-- SET_SUPPORTED for 4× uncertified and 8× certified (the words of S1). -/
def configuration : List (Nat × PortSample) := [(0, commandSample 0 0x21), (0, commandSample 0 0xB9)]

/-- The speeds that end supports above 1×. -/
def bootSpeeds : List (Speed × Bool) := [(.x4, false), (.x8, true)]

/-- The peer's bytes, one offer each. -/
def offers (bytes : List Byte) : List (Nat × PortSample) := bytes.map (fun b => (0, byteSample 0 b))

theorem test_boot_in_order :
    bootOrder bootSpeeds (bootOf slave configuration [(0, byteSample 0 0xF0), (12, commandSample 12 4)]) = true := by decide
/-- R283 steps 1, 3 and 4, each left undone. -/
theorem test_boot_refused :
    bootOrder bootSpeeds { bootOf slave configuration [] with rate := 125000 } = false ∧
      bootOrder bootSpeeds { bootOf slave configuration [] with resets := [] } = false ∧
      bootOrder bootSpeeds (bootOf slave (configuration.take 1) []) = false ∧
      bootOrder bootSpeeds (bootOf slave (configuration ++ [(0, commandSample 0 0x1E22)]) []) = false := by decide
/-- R283 step 3: a SpeedRequest that begins before the configuration is over; the same bytes after it are in order. -/
theorem test_boot_refuses_an_early_request :
    bootOrder bootSpeeds (bootOf slave (offers [0xF0] ++ configuration) (offers [0x00, 0x20, 0x3C, 0x00, 0x00, 0x10])) = false ∧
      bootOrder bootSpeeds (bootOf slave configuration (offers [0xF0, 0x00, 0x20, 0x3C, 0x00, 0x00, 0x10])) = true := by decide
/-- A build of 34 places stalls on the rejected SET_SUPPORTED's event: a byte held over the stall is one byte sent, and a
SET_SUPPORTED offered in it is not issued. -/
theorem test_boot_with_a_stall :
    sentBytes none (runOf 4 { withFifo 34 [.speedRequested] slave with
        inputs := [byteSample 0 0xF0, { byteSample 0 0xF0 with evReady := true }, byteSample 0 0xF0, byteSample 0 0xF0] }) =
      [0xF0, 0xF0] ∧
    bootOrder [(.x8, true)] (bootOf (withFifo 34 [] slave) [(0, commandSample 0 0x61), (0, commandSample 0 0xB9)] []) = false ∧
    bootOrder [(.x8, true)] (bootOf (withFifo 35 [] slave) [(0, commandSample 0 0x61), (0, commandSample 0 0xB9)] []) = true := by
  decide
/-- R291: one step with an event left behind is over a limit of 0, not over one of 1; a consumer always ready is in time at
the smallest depth, though that step stalls. -/
theorem test_drains_fifo :
    drainsFifo 0 0 [offered (idleSample 1) (withFifo 34 [.speedRequested] slave)] = false ∧
      drainsFifo 1 0 [offered (idleSample 1) (withFifo 34 [.speedRequested] slave)] = true ∧
      drainsFifo 0 0 [offered { idleSample 1 with evReady := true } (withFifo 34 [.speedRequested] slave)] = true ∧
      neverStalls (withFifo 34 [.speedRequested] slave) = false := by decide
/-- R287: a counter that wraps is true, one that steps back or stands still is not. -/
theorem test_clock_true :
    clockTrue [(5, idleSample 0xFFFFFFFF), (8, idleSample 2)] = true ∧ clockTrue [(5, idleSample 7), (8, idleSample 6)] = false ∧
      clockTrue [(5, idleSample 7), (8, idleSample 7)] = false := by decide
/-- R287: a stall counts for no step. -/
theorem test_steps_each_millisecond :
    stepsEachMillisecond 0 [(1, offered (idleSample 1) slave), (2, offered (idleSample 2) slave)] = true ∧
      stepsEachMillisecond 0 [(2, offered (idleSample 2) slave)] = false ∧
      stepsEachMillisecond 0
        [(1, offered (idleSample 1) (withFifo 34 [.speedRequested] slave)), (2, offered (idleSample 2) slave)] = false := by decide
/-- R285: bytes of the environment's own are free in an idle block, and not in a negotiation or a test. -/
theorem test_application_traffic :
    noApplicationTraffic slave [.ownByte 0x90] = true ∧ noApplicationTraffic (master .waitAck) [.ownByte 0x90] = false ∧
      noApplicationTraffic { slave with testState := .awaitingTest } [.ownByte 0x90] = false ∧
      noApplicationTraffic (master .waitAck) [.sends 0xF0] = true := by decide
/-- R289: all bytes sent, and the in-flight one dropped, are in place; a byte of the old rate sent at the new one, and a
change of rate that no `BAUD` asked for, are not. -/
theorem test_transmits_in_place :
    transmitsInPlace 31250 [.tx 0x01, .tx 0x02, .baud 125000, .tx 0x03]
        [.sends 0x01, .sends 0x02, .ownByte 0x90, .setsRate 125000, .sends 0x03] = true ∧
      transmitsInPlace 31250 [.tx 0x01, .tx 0x02, .baud 125000, .tx 0x03] [.sends 0x01, .setsRate 125000, .sends 0x03] = true ∧
      transmitsInPlace 31250 [.tx 0x01, .tx 0x02, .baud 125000, .tx 0x03] [.sends 0x01, .setsRate 125000, .sends 0x02] = false ∧
      transmitsInPlace 31250 [.tx 0x01] [.setsRate 125000] = false := by decide
/-- R289: a replaced rate for `near` milliseconds after its `BAUD` event, and no longer, whether or not another event follows. -/
theorem test_receives_near :
    receivesNear 2 31250 [] [.byte 7 0xF0 31250, .baud 10 125000, .byte 12 0xF7 31250, .byte 13 0xF0 125000] = true ∧
      receivesNear 2 31250 [] [.baud 10 125000, .byte 13 0xF7 31250] = false ∧
      receivesNear 2 31250 [] [.byte 7 0xF0 125000] = false ∧
      receivesNear 2 31250 [] [.baud 10 125000, .baud 10 250000, .byte 12 0xF7 31250] = true ∧
      receivesNear 2 31250 [] [.baud 10 125000, .baud 12 250000, .byte 13 0xF7 31250] = false := by decide

/-! ### Witnesses: for each obligation with hypotheses or clauses, inputs that meet them, at the bounds of each clause -/

theorem witness_DecodeOfEncodeGivesTheInstruction :
    wellFormed (.speedTest testPattern) = true ∧ wellFormed (.rxByte 0xFF) = true ∧ wellFormed (.negotiate 15 0xFFFFFFFF) = true := by
  decide

theorem witness_DecodedInputIsItsEncoding :
    decodeFrame [0xF0, 0x00, 0x20, 0x3C, 0x00, 0x00, 0x20, 0xFF, 0xF7] = .accept (.speedPush 0xFF) := by decide

theorem witness_BuiltFramesPassTheCodec :
    ([] : List Byte).length = payloadLength .speedAck ∧ testPattern.length = payloadLength .speedTest := by decide

/-- V110: two words of PUSH that differ in every unused bit. -/
theorem witness_UnusedCommandBitsAreIgnored :
    cmdOp 0xFFFFFFFFBB = cmdOp 0x000000003B ∧ cmdSpeed 0xFFFFFFFFBB = cmdSpeed 0x000000003B ∧
      cmdOp 0xFFFFFFFFBB = 3 ∧ (0xFFFFFFFFBB : CmdWord) ≠ 0x000000003B := by decide

theorem witness_AddSetsOnlyItsOwnBits : 0 < 8 ∧ 7 < 8 ∧ idFor .x2 = 2 ∧ idFor .x10 = 8 ∧ idFor .x13_3 = 9 ∧ idFor .x20 = 11 := by
  decide

/-- The premise of the invariant's clause, and a bit that is named: V4. -/
theorem witness_CapabilitySetLaws :
    (∀ v, isCertified ⟨0x24, 0x00, 0x20, 0x00⟩ (some v) = true → has ⟨0x24, 0x00, 0x20, 0x00⟩ (some v) = true) ∧
      capBit .x2 = some (.first, 0) ∧ capBit .x20 = some (.second, 2) := by
  refine ⟨fun v => ?_, rfl, rfl⟩
  cases v <;> decide

/-- Each way of R183 for the answer 24 00 20 00: 1×, certified, and the three policies; and no speed above 20×. -/
theorem witness_ProbeSpeedIsTheSmallestAllowed :
    selectTest .nextSupported ⟨0x24, 0x00, 0x20, 0x00⟩ .x1 = some .x1 ∧
      selectTest .nextSupported ⟨0x24, 0x00, 0x20, 0x00⟩ .x8 = some .x8 ∧
      selectTest .successor ⟨0x24, 0x00, 0x20, 0x00⟩ .x4 = some .x5 ∧
      selectTest .nextSupported ⟨0x2C, 0x00, 0x20, 0x00⟩ .x4 = some .x5 ∧
      selectTest .nextCertified ⟨0x2C, 0x00, 0x20, 0x00⟩ .x4 = some .x8 ∧
      selectTest .successor ⟨0x00, 0x04, 0x00, 0x00⟩ .x20 = none := by decide

theorem witness_BodyByteIsStoredIgnoredOrOverflows :
    (Instr.rxByte 0x00 = .rxByte 0x00 ∧ (fresh .slave).rxLen = 0) ∧
      (inFrame (fresh .slave) (List.replicate 16 0x01)).rxLen = (fresh .slave).cfg.rxBufCap ∧
      (inFrame (fresh .slave) (List.replicate 15 0x01)).rxLen + 1 = (fresh .slave).cfg.rxBufCap := by decide

theorem witness_EndByteOutsideAFrameOrAtAFullBuffer :
    (fresh .slave).rxLen = 0 ∧ (inFrame (fresh .slave) (List.replicate 16 0x01)).rxLen ≠ 0 ∧
      (inFrame (fresh .slave) (List.replicate 16 0x01)).rxLen = (inFrame (fresh .slave) (List.replicate 16 0x01)).cfg.rxBufCap := by
  decide

/-- A candidate that is accepted, and one that is rejected at the last free place of the buffer. -/
theorem witness_EndByteRunsTheDecodedFrame :
    (∃ s : State, s.rxLen ≠ 0 ∧ s.rxLen < s.cfg.rxBufCap ∧ s.rxBuf.length = s.cfg.rxBufCap ∧
      decodeFrame (s.rxBuf.take s.rxLen ++ [0xF7]) = .accept .speedAck) ∧
    (∃ s : State, s.rxLen ≠ 0 ∧ s.rxLen < s.cfg.rxBufCap ∧ s.rxBuf.length = s.cfg.rxBufCap ∧
      decodeFrame (s.rxBuf.take s.rxLen ++ [0xF7]) = .reject .badManufacturer) :=
  ⟨⟨inFrame (fresh .master) [0xF0, 0x00, 0x20, 0x3C, 0x00, 0x00, 0x13], by decide⟩,
    ⟨inFrame (fresh .master) ([0xF0] ++ List.replicate 14 0x01), by decide⟩⟩

theorem witness_FrameFedByteByByteRunsItsInstruction :
    wellFormed (.speedTest testPattern) = true ∧ encode (.speedTest testPattern) = .frame (frameBytes .speedTest testPattern) ∧
      (∀ b ∈ ((frameBytes .speedTest testPattern).drop 7).dropLast, b ≠ 0xF0 ∧ b ≠ 0xF7) ∧
      16 ≤ (fresh .slave).cfg.rxBufCap ∧ (fresh .slave).rxBuf.length = (fresh .slave).cfg.rxBufCap := by decide

/-- A frame of 17 bytes overflows; S7's frame is rejected. -/
theorem witness_BadFrameLeavesOnlyTheTimestamp :
    (∀ b ∈ List.replicate 15 (0x01 : Byte), b ≠ 0xF0 ∧ b ≠ 0xF7) ∧
      (fresh .slave).cfg.rxBufCap < (List.replicate 15 (0x01 : Byte)).length + 2 ∧
      decodeFrame ([0xF0] ++ [0x00, 0x20, 0x3D, 0x00, 0x00, 0x20, 0x02] ++ [0xF7]) = .reject .badManufacturer ∧
      (∀ b ∈ ([0x00, 0x20, 0x3D, 0x00, 0x00, 0x20, 0x02] : List Byte), b ≠ 0xF0 ∧ b ≠ 0xF7) ∧
      2 ≤ (fresh .slave).cfg.rxBufCap ∧ (fresh .slave).rxBuf.length = (fresh .slave).cfg.rxBufCap ∧ (fresh .slave).rxLen = 0 := by
  decide

/-- 9 ms settle on, 10 ms end it (P3). -/
theorem witness_SettleEndsWithSpeedTest :
    (master .settle).seqState = .settle ∧
      gives (seqTime { master .settle with now := 1009 }) (fun t => t.seqState == .settle) = true ∧
      gives (seqTime { master .settle with now := 1010 }) (fun t => t.seqState == .waitResult) = true := by decide

/-- Each wait holds at 30 ms and fails at 31 ms (44_master.md R188 to R191). -/
theorem witness_DeadlinesEndTheirWait :
    gives (seqTime { master .waitAnswer with now := 1030 }) (fun t => t.events == []) = true ∧
      gives (seqTime { master .waitAnswer with now := 1031 }) (fun t => t.events == [.negDone false .noAnswer]) = true ∧
      gives (seqTime { master .waitAck with now := 1030 }) (fun t => t.events == []) = true ∧
      gives (seqTime { master .waitAck with now := 1031 }) (fun t => t.events == [.negDone false .noAck]) = true ∧
      gives (seqTime { master .waitResult with now := 1030 }) (fun t => t.events == []) = true ∧
      gives (seqTime { master .waitResult with now := 1031 }) (fun t => t.events.getLast? == some (.negDone false .testTimeout)) = true ∧
      gives (seqTime { master .waitResult2 with now := 1030 }) (fun t => t.events == []) = true ∧
      gives (seqTime { master .waitResult2 with now := 1031 })
        (fun t => t.events.getLast? == some (.negDone false .test2Timeout)) = true := by decide

/-- The first and the last speed id, and the values beside them (V2; 40_speed_caps.md R111). -/
theorem witness_SpeedOperandsAtTheirBounds :
    speedOfId 0 = none ∧ speedOfId 1 = some .x1 ∧ speedOfId 11 = some .x20 ∧ speedOfId 12 = none ∧ speedOfId 15 = none ∧
      fromId 0x80 = none ∧ fromId 0xFF = none := by decide

/-- V111 to V114: 250 and 251, 300 and 301 milliseconds. -/
theorem witness_TickOutcome :
    gives (exec .tick (atX4 0 0 250)) (fun t => t.events == []) = true ∧
      gives (exec .tick (atX4 0 0 251)) (fun t => t.events == [.tx 0xFE]) = true ∧
      gives (exec .tick (atX4 0 0 300)) (fun t => t.events == [.tx 0xFE]) = true ∧
      gives (exec .tick (atX4 0 0 301)) (fun t => t.events == [.baud 31250, .speedChanged .x1]) = true ∧
      gives (exec .tick { atX4 0 0 301 with currentSpeed := .x1 }) (fun t => t.events == []) = true := by decide

/-- A step that takes a byte and a command, and one that takes neither. -/
theorem witness_StepRunsTheDecodedInstructions :
    (offered { byteSample 5 0x80 with cmdValid := true, cmdWord := 4 } (fresh .master)).inputs =
        [{ byteSample 5 0x80 with cmdValid := true, cmdWord := 4 }] ∧
      space (fresh .master) = true ∧ decode (.byte 0x80) = .accept (.rxByte 0x80) ∧ decode (.command 4) = .accept .tick ∧
      rxReady (fresh .master) = true ∧ cmdReady (fresh .master) = true ∧ rxReady (master .settle) = false ∧
      cmdReady (master .settle) = false := by decide

theorem witness_ResetStepLoadsTheTable :
    (offered resetSample (master .waitResult)).inputs = resetSample :: [] ∧ resetSample.rst = true := by decide

/-- A FIFO of 34 places stalls with one entry, and not with none. -/
theorem witness_StallChangesNothing :
    (offered (idleSample 5) (withFifo 34 [.speedRequested] slave)).inputs = idleSample 5 :: [] ∧ (idleSample 5).rst = false ∧
      (withFifo 34 [.speedRequested] slave).cfg.evFifoDepth = some 34 ∧
      34 < (withFifo 34 [.speedRequested] slave).fifo.length + 34 ∧ space (withFifo 34 [] slave) = true := by decide

theorem witness_EveryStepCompletes :
    step (offered (byteSample 5 0x80) slave) = .next (after (offered (byteSample 5 0x80) slave)) := step_after (by decide)

/-- A taken byte, a taken command, and neither. -/
theorem witness_StepTakesWhatIsReady :
    (∃ s t, step s = .next t ∧ t.takenRx = true ∧ t.takenCmd = false) ∧
      (∃ s t, step s = .next t ∧ t.takenRx = false ∧ t.takenCmd = true) ∧
      (∃ s t, step s = .next t ∧ (currentSample s).cmdValid = true ∧ t.takenCmd = false) :=
  ⟨⟨offered (byteSample 5 0x80) slave, _, step_after (by decide), by decide⟩,
    ⟨offered (commandSample 5 4) slave, _, step_after (by decide), by decide⟩,
    ⟨offered (commandSample 5 4) (master .waitAck), _, step_after (by decide), by decide⟩⟩

theorem witness_IdleStepChangesNoRegister :
    (offered (idleSample 5) slave).inputs = idleSample 5 :: [] ∧ (idleSample 5).rst = false ∧ (idleSample 5).rxValid = false ∧
      (idleSample 5).cmdValid = false ∧ slave.cfg.evFifoDepth = none ∧ slave.seqState = .idle := by decide

/-- The 18 events of the end of `SETTLE`. -/
theorem witness_StepEmitsAtMost34Events :
    ∃ s t, s.cfg.breathBytes = 16 ∧ step s = .next t ∧ t.events.length = 18 :=
  ⟨offered (idleSample 1010) (master .settle), _, rfl, step_after (by decide), by decide⟩

/-- A FIFO step that pops its head and pushes an event, and a stall that pops its head (log 7). -/
theorem witness_FifoKeepsEveryEventInOrder :
    (∃ s t, step s = .next t ∧ (currentSample s).rst = false ∧ s.cfg.evFifoDepth.isSome = true ∧
      s.fifo = [.speedRequested] ∧ t.fifo = [.tx 0xFE]) ∧
    (∃ s t, step s = .next t ∧ (currentSample s).rst = false ∧ s.cfg.evFifoDepth.isSome = true ∧
      space s = false ∧ s.fifo = [.speedRequested] ∧ t.fifo = []) :=
  ⟨⟨offered { commandSample 400 5 with evReady := true } (withFifo 64 [.speedRequested] (atX4 0 0 0)), _,
      step_after (by decide), by decide⟩,
    ⟨offered { idleSample 5 with evReady := true } (withFifo 34 [.speedRequested] slave), _, step_after (by decide), by decide⟩⟩

theorem witness_ResetSatisfiesTheInvariants :
    (Config.standard .slave).legal = true ∧ (Config.standard .slave).literalsAsGiven = true := by decide

/-- Invariant states in SETTLE, in a test, and with a full FIFO, each with its step. -/
theorem witness_EveryStepKeepsTheInvariants :
    (∃ s t, stateSound s = true ∧ step s = .next t ∧ s.seqState = .settle) ∧
      (∃ s t, stateSound s = true ∧ step s = .next t ∧ s.testState = .awaitingTest) ∧
      (∃ s t, stateSound s = true ∧ step s = .next t ∧ s.fifo.length = 34) :=
  ⟨⟨offered (idleSample 1010) (master .settle), _, by decide, step_after (by decide), rfl⟩,
    ⟨offered (byteSample 5 0xF0) { slave with testState := .awaitingTest }, _, by decide, step_after (by decide), rfl⟩,
    ⟨offered (idleSample 5) (withFifo 34 (List.replicate 34 .speedRequested) slave), _, by decide, step_after (by decide), rfl⟩⟩

theorem witness_SpeedFollowsTheOutputStream :
    ∃ s t, step s = .next t ∧ (currentSample s).rst = false ∧ s.currentSpeed = .x4 ∧
      t.events = [.baud 31250, .speedChanged .x1] :=
  ⟨offered (commandSample 301 4) (atX4 0 0 0), _, step_after (by decide), by decide⟩

theorem witness_CapabilitiesOnlyGrow :
    ∃ s t, step s = .next t ∧ (currentSample s).rst = false ∧ t.localCaps = ⟨0x24, 0x00, 0x24, 0x00⟩ ∧
      has s.localCaps (some .x4) = true ∧ isCertified s.localCaps (some .x8) = true :=
  ⟨offered (commandSample 0 0xA1) slave, _, step_after (by decide), by decide⟩

theorem witness_BuildNeverChanges : ∃ s t, step s = .next t ∧ (currentSample s).rst = true ∧ t.cfg.role = .master :=
  ⟨offered resetSample (fresh .master), _, step_after (by decide), by decide⟩

/-- A taken byte, and a keep-alive byte. -/
theorem witness_TimestampsFollowTheirEvents :
    (∃ s t, step s = .next t ∧ (currentSample s).rst = false ∧ t.lastRxTime = 9) ∧
      (∃ s t, step s = .next t ∧ (currentSample s).rst = false ∧ t.lastAsTxTime = 400) :=
  ⟨⟨offered (byteSample 9 0x80) slave, _, step_after (by decide), by decide⟩,
    ⟨offered (commandSample 400 5) (atX4 0 0 0), _, step_after (by decide), by decide⟩⟩

/-- The end of `SETTLE` in a master, and a slave whose sequencer is IDLE. -/
theorem witness_SequencerMovesOnlyAlongItsPaths :
    (∃ s t, step s = .next t ∧ (currentSample s).rst = false ∧ 0 < s.cfg.settleMs ∧ s.seqState = .settle ∧
      t.seqState = .waitResult) ∧
      (∃ s t, step s = .next t ∧ (currentSample s).rst = false ∧ 0 < s.cfg.settleMs ∧ s.cfg.role = .slave ∧
        s.seqState = .idle) :=
  ⟨⟨offered (idleSample 1010) (master .settle), _, step_after (by decide), by decide⟩,
    ⟨offered (commandSample 5 0x1E22) slave, _, step_after (by decide), by decide⟩⟩

/-- Into AwaitingTest and AwaitingTest2; back to Idle by the watchdog, in a slave and in a master; a master that stays. -/
theorem witness_TestStateMovesOnlyAlongItsPaths :
    (∃ s t, step s = .next t ∧ (currentSample s).rst = false ∧ s.testState ≠ t.testState ∧ t.testState = .awaitingTest) ∧
      (∃ s t, step s = .next t ∧ (currentSample s).rst = false ∧ s.testState ≠ t.testState ∧ t.testState = .awaitingTest2) ∧
      (∃ s t, step s = .next t ∧ (currentSample s).rst = false ∧ s.testState ≠ t.testState ∧ t.testState = .idle) ∧
      (∃ s t, step s = .next t ∧ (currentSample s).rst = false ∧ s.testState ≠ t.testState ∧ s.cfg.role = .master) ∧
      (∃ s t, step s = .next t ∧ (currentSample s).rst = false ∧ s.cfg.role = .master ∧ roleSound s = true) :=
  ⟨⟨offered (byteSample 5 0xF7) (inFrame slave ([0xF0] ++ manufacturer ++ [0x12, 0x07, 0x04])), _, step_after (by decide),
      by decide⟩,
    ⟨offered (byteSample 5 0xF7) (inFrame { slave with testState := .awaitingTest, pendingTest := .x8 }
      ([0xF0] ++ manufacturer ++ [0x14] ++ testPattern)), _, step_after (by decide), by decide⟩,
    ⟨offered (commandSample 301 4) { atX4 0 0 0 with testState := .awaitingTest }, _, step_after (by decide), by decide⟩,
    ⟨offered (commandSample 301 4) { fresh .master with currentSpeed := .x4, testState := .awaitingTest }, _, step_after (by decide),
      by decide⟩,
    ⟨offered (idleSample 1010) (master .settle), _, step_after (by decide), by decide⟩⟩

/-- One step for each cause: the answers and results that end a negotiation, and the deadlines. -/
theorem witness_NegotiationOutcomeFixesTheSpeed :
    (∃ s t, step s = .next t ∧ (currentSample s).rst = false ∧ Event.negDone true .ok ∈ t.events) ∧
      (∃ s t, step s = .next t ∧ (currentSample s).rst = false ∧ Event.negDone false .testTimeout ∈ t.events) ∧
      (∃ s t, step s = .next t ∧ (currentSample s).rst = false ∧ Event.negDone false .test2Timeout ∈ t.events) ∧
      (∃ s t, step s = .next t ∧ (currentSample s).rst = false ∧ Event.negDone false .noAnswer ∈ t.events ∧
        t.takenRx = false) ∧
      (∃ s t, step s = .next t ∧ (currentSample s).rst = false ∧ Event.negDone false .noAck ∈ t.events ∧
        t.takenRx = false) ∧
      (∃ s t, step s = .next t ∧ (currentSample s).rst = false ∧ Event.negDone false .testBadPattern ∈ t.events) ∧
      (∃ s t, step s = .next t ∧ (currentSample s).rst = false ∧ Event.negDone false .noProbeSpeed ∈ t.events) ∧
      (∃ s t, step s = .next t ∧ (currentSample s).rst = false ∧ Event.negDone false .speedUnsupported ∈ t.events) :=
  ⟨⟨offered (byteSample 1005 0xF7) (inFrame { master .waitAck with seqTest := .x4 } ([0xF0] ++ manufacturer ++ [0x13])), _,
      step_after (by decide), by decide⟩,
    ⟨offered (idleSample 1031) (master .waitResult), _, step_after (by decide), by decide⟩,
    ⟨offered (idleSample 1031) (master .waitResult2), _, step_after (by decide), by decide⟩,
    ⟨offered (idleSample 1031) (master .waitAnswer), _, step_after (by decide), by decide⟩,
    ⟨offered (idleSample 1031) (master .waitAck), _, step_after (by decide), by decide⟩,
    ⟨offered (byteSample 1005 0xF7)
      (inFrame (master .waitResult) ([0xF0] ++ manufacturer ++ [0x15] ++ List.replicate 8 0x55)), _, step_after (by decide), by decide⟩,
    ⟨offered (byteSample 1005 0xF7)
      (inFrame (master .waitAnswer) ([0xF0] ++ manufacturer ++ [0x11, 0x04, 0x00, 0x00, 0x00])), _, step_after (by decide), by decide⟩,
    ⟨offered (byteSample 1005 0xF7)
      (inFrame (master .waitAnswer) ([0xF0] ++ manufacturer ++ [0x11, 0x00, 0x00, 0x00, 0x00])), _, step_after (by decide), by decide⟩⟩

/-- A wait for the answer that goes on for 30 ms, while a byte outside a frame is taken, and fails at 31 ms (cause 1); a
SpeedAnswer without the target (cause 2); and the deadline of the Ack (cause 4) after a SpeedAnswer. A SpeedPush completed in
the wait is a disturbance. -/
theorem witness_FailedNegotiationLeavesTheSpeed :
    (∃ s t, s.seqState = .waitAnswer ∧ undisturbed 2 s = true ∧ runSteps 2 s = .next t ∧
      Event.negDone false .noAnswer ∈ t.events ∧ s.currentSpeed = .x2) ∧
    (∃ s t, s.seqState = .waitAnswer ∧ undisturbed 1 s = true ∧ runSteps 1 s = .next t ∧
      Event.negDone false .speedUnsupported ∈ t.events) ∧
    (∃ s t, s.seqState = .waitAnswer ∧ undisturbed 2 s = true ∧ runSteps 2 s = .next t ∧
      Event.negDone false .noAck ∈ t.events) ∧
    undisturbed 1 (offered (byteSample 1005 0xF7) (inFrame (master .waitAnswer) ([0xF0] ++ manufacturer ++ [0x20, 0x01]))) =
      false :=
  ⟨⟨{ master .waitAnswer with currentSpeed := .x2, inputs := [byteSample 1030 0x80, idleSample 1031] }, _, rfl, by decide, rfl,
      by decide, rfl⟩,
    ⟨offered (byteSample 1005 0xF7)
      (inFrame (master .waitAnswer) ([0xF0] ++ manufacturer ++ [0x11, 0x00, 0x00, 0x00, 0x00])), _, rfl, by decide, rfl, by decide⟩,
    ⟨{ inFrame (master .waitAnswer) ([0xF0] ++ manufacturer ++ [0x11, 0x24, 0x00, 0x20, 0x00]) with
        inputs := [byteSample 1005 0xF7, idleSample 1036] }, _, rfl, by decide, rfl, by decide⟩, by decide⟩

/-- A wait that its deadline ends, and one that goes on. -/
theorem witness_NegotiationEndsInOneNegDone :
    (∃ s t, step s = .next t ∧ (currentSample s).rst = false ∧ busy s = true ∧ busy t = false) ∧
      (∃ s t, step s = .next t ∧ (currentSample s).rst = false ∧ busy s = true ∧ busy t = true) :=
  ⟨⟨offered (idleSample 1031) (master .waitAck), _, step_after (by decide), by decide⟩,
    ⟨offered (idleSample 1030) (master .waitAck), _, step_after (by decide), by decide⟩⟩

/-- The slave of the capacity witnesses with `n` bytes of buffer, the same byte offered to each. -/
def withCapacity (n : Nat) (body : List Byte) : State :=
  offered (byteSample 5 0xF7) (inFrame (State.resetOf { Config.standard .slave with rxBufCap := n }) body)

/-- The same block with 16 and with 32 bytes of buffer: in the same frame, and after an overflow that only the smaller one
has seen. -/
theorem witness_BufferCapacityDoesNotMatter :
    (∃ s1 s2 t1 t2 : State, bufferSound s1 = true ∧ bufferSound s2 = true ∧ 16 ≤ s1.cfg.rxBufCap ∧ 16 ≤ s2.cfg.rxBufCap ∧
      sameButCapacity s1 s2 ∧ step s1 = .next t1 ∧ step s2 = .next t2 ∧ s1.rxLen = 2 ∧ s2.rxLen = 2) ∧
    (∃ s1 s2 t1 t2 : State, bufferSound s1 = true ∧ bufferSound s2 = true ∧ 16 ≤ s1.cfg.rxBufCap ∧ 16 ≤ s2.cfg.rxBufCap ∧
      sameButCapacity s1 s2 ∧ step s1 = .next t1 ∧ step s2 = .next t2 ∧ s1.rxLen = 0 ∧ s2.rxLen = 17) :=
  ⟨⟨withCapacity 16 [0xF0, 0x00], withCapacity 32 [0xF0, 0x00], _, _, by decide, by decide, by decide, by decide,
      ⟨rfl, .inr (.inl ⟨by decide, by decide, rfl⟩)⟩, step_after (by decide), step_after (by decide), rfl, rfl⟩,
    ⟨withCapacity 16 [], withCapacity 32 ([0xF0] ++ List.replicate 16 0x01), _, _, by decide, by decide, by decide, by decide,
      ⟨rfl, .inr (.inr (.inl ⟨rfl, by decide⟩))⟩, step_after (by decide), step_after (by decide), rfl, rfl⟩⟩

/-- A watchdog tick at the last value of the counter, and two milliseconds over the wrap. -/
theorem witness_OnlyTimeDifferencesMatter :
    ∃ s t, s.inputs ≠ [] ∧ (currentSample s).rst = false ∧ step s = .next t ∧ s.now = 0xFFFFFFFE ∧ (laterState 2 s).now = 0 :=
  ⟨offered (commandSample 0xFFFFFFFF 4) (atX4 0xFFFFFE00 0 0xFFFFFFFE), _, by decide, rfl, step_after (by decide), rfl, rfl⟩

/-- A PUSH, the direct accepts of a certified target and of a 1× target with another test id, the two test steps of a slave
and the end of SETTLE, each from an empty event list. -/
theorem witness_FramesGoOutAtTheirRate :
    (∃ s t v, s.events = [] ∧ s.cfg.role ≠ .slave ∧ exec (.push (BitVec.ofNat 4 (idFor v))) s = .next t) ∧
      (∃ s t v a, s.events = [] ∧ s.cfg.role ≠ .master ∧ (has s.localCaps (some v) = true ∧
        isCertified s.localCaps (some v) = true ∧ a = idByte v) ∧ exec (.speedNegotiate a (idByte v)) s = .next t ∧ v = .x8) ∧
      (∃ s t v a, s.events = [] ∧ s.cfg.role ≠ .master ∧ v = Speed.x1 ∧ exec (.speedNegotiate a (idByte v)) s = .next t ∧
        a ≠ idByte v) ∧
      (∃ s t, s.events = [] ∧ s.cfg.role ≠ .master ∧ s.testState = .awaitingTest2 ∧ exec .speedTest2 s = .next t) ∧
      (∃ s t, s.events = [] ∧ s.cfg.role ≠ .master ∧ s.testState = .awaitingTest ∧ exec (.speedTest testPattern) s = .next t) ∧
      (∃ s t, s.events = [] ∧ s.seqState = .settle ∧ s.cfg.settleMs ≤ elapsed s.now s.seqT0 ∧ seqTime s = .next t) :=
  ⟨⟨fresh .master, _, .x8, rfl, by decide, rfl⟩, ⟨slave, _, .x8, idByte .x8, rfl, by decide, by decide, rfl, rfl⟩,
    ⟨{ slave with currentSpeed := .x4 }, _, .x1, 0x0C, rfl, by decide, rfl, rfl, by decide⟩,
    ⟨{ slave with testState := .awaitingTest2 }, _, rfl, by decide, rfl, rfl⟩,
    ⟨{ slave with testState := .awaitingTest }, _, rfl, by decide, rfl, rfl⟩,
    ⟨{ master .settle with now := 1010 }, _, rfl, rfl, by decide, rfl⟩⟩

/-- Three steps over the wrap of the counter, and two that are 2^32 milliseconds apart: there `elapsed` reads 0. -/
theorem witness_ElapsedIsTheTrueTime :
    (clockTrue [(5, idleSample 0xFFFFFFFE), (6, idleSample 0xFFFFFFFF), (8, idleSample 1)] = true ∧ 8 - 5 < 2 ^ 32 ∧
      elapsed (1 : Ms) 0xFFFFFFFE = 3) ∧
    (clockTrue [(5, idleSample 7), (5 + 2 ^ 32, idleSample 7)] = true ∧ ¬(5 + 2 ^ 32) - 5 < 2 ^ 32) := by decide

theorem witness_OutputPortsShowTheState :
    (withFifo 34 [.tx 0xFE] slave).fifo = .tx 0xFE :: [] ∧ evPort (withFifo 34 [.tx 0xFE] slave) = some (0, 0xFE) := by decide

end Sys2Proof.Tests
end

section
/-! PROOF. Every part of a step commutes with `laterState`: the clock and the timestamps are only copied from one another,
or subtracted by `elapsed` (00_scope.md R11), and no branch reads one of them alone. So a step on a later sample from a later
state gives the later result. -/

namespace Sys2Proof.Machine

/-- A result whose next state stands `d` milliseconds further on. -/
def laterResult (d : Ms) (r : Result) : Result := andThen r (fun t => .next (laterState d t))

@[simp] theorem laterResult_next (d : Ms) (t : State) : laterResult d (.next t) = .next (laterState d t) := rfl

/-- A part that commutes with the shift may follow one that does. -/
theorem andThen_laterResult (d : Ms) (r : Result) (f g : State → Result)
    (h : ∀ s, f (laterState d s) = laterResult d (g s)) :
    andThen (laterResult d r) f = laterResult d (andThen r g) := by
  cases r with
  | next s => exact h s
  | fault e => rfl
  | refused e => rfl

/-- A branch taken alike at both times commutes with the shift where its two arms do. -/
theorem ite_eq_laterResult {p q : Prop} [Decidable p] [Decidable q] {d : Ms} {r1 r2 u1 u2 : Result} (hpq : p ↔ q)
    (h1 : r1 = laterResult d u1) (h2 : r2 = laterResult d u2) :
    (if p then r1 else r2) = laterResult d (if q then u1 else u2) := by
  by_cases hq : q
  · rw [if_pos (hpq.mpr hq), if_pos hq, h1]
  · rw [if_neg (hq ∘ hpq.mp), if_neg hq, h2]

/-! ### What the shift leaves as it is, and the operations it commutes with

An operation without a branch commutes with the shift by `rfl`: where it writes a timestamp at all, it writes `now`. -/

section
variable (d : Ms) (s : State)

@[simp] theorem laterState_cfg : (laterState d s).cfg = s.cfg := rfl
@[simp] theorem laterState_rxLen : (laterState d s).rxLen = s.rxLen := rfl
@[simp] theorem laterState_seqState : (laterState d s).seqState = s.seqState := rfl
@[simp] theorem laterState_seqTarget : (laterState d s).seqTarget = s.seqTarget := rfl
@[simp] theorem laterState_inputs : (laterState d s).inputs = s.inputs.map (laterSample d) := rfl

@[simp] theorem candidate_laterState : candidate (laterState d s) = candidate s := rfl
@[simp] theorem space_laterState : space (laterState d s) = space s := rfl
@[simp] theorem rxReady_laterState : rxReady (laterState d s) = rxReady s := rfl
@[simp] theorem cmdReady_laterState : cmdReady (laterState d s) = cmdReady s := rfl

@[simp] theorem stampRx_laterState : stampRx (laterState d s) = laterState d (stampRx s) := rfl
@[simp] theorem storeByte_laterState (b : Byte) : storeByte b (laterState d s) = laterState d (storeByte b s) := rfl
@[simp] theorem leaveFrame_laterState : leaveFrame (laterState d s) = laterState d (leaveFrame s) := rfl
@[simp] theorem beginStep_laterState (n : Ms) (rx cmd : Bool) :
    beginStep (n + d) rx cmd (laterState d s) = laterState d (beginStep n rx cmd s) := rfl

@[simp] theorem storeOrDrop_laterState (b : Byte) :
    storeOrDrop b (laterState d s) = laterState d (storeOrDrop b s) := by
  rcases storeOrDrop_cases b s with ⟨h, e⟩ | ⟨h, hfull, e⟩ | ⟨h, hfull, e⟩ <;> rw [e]
  · simp [storeOrDrop, h]
  · simp [storeOrDrop, ← hfull, h]
  · simp [storeOrDrop, h, hfull]

@[simp] theorem dropSample_laterState : dropSample (laterState d s) = laterState d (dropSample s) := by
  cases h : s.inputs with
  | nil => simp only [dropSample, laterState_inputs, h, List.map_nil]; rfl
  | cons p rest => simp only [dropSample, laterState_inputs, h, List.map_cons]; rfl

/-- Of a listed sample only: the free value (log 1) does not know of `d`. -/
theorem currentSample_laterState (h : s.inputs ≠ []) :
    currentSample (laterState d s) = laterSample d (currentSample s) := by
  cases hi : s.inputs with
  | nil => exact absurd hi h
  | cons p rest => simp [currentSample, hi]

/-! ### Frame handlers -/

theorem execSpeedRequest_laterState : execSpeedRequest (laterState d s) = laterResult d (execSpeedRequest s) :=
  ite_eq_laterResult .rfl rfl rfl

theorem execSpeedAnswer_laterState (m1 m2 c1 c2 : Byte) :
    execSpeedAnswer m1 m2 c1 c2 (laterState d s) = laterResult d (execSpeedAnswer m1 m2 c1 c2 s) := by
  refine ite_eq_laterResult .rfl (ite_eq_laterResult .rfl rfl ?_) rfl
  simp only [laterState_cfg, laterState_seqTarget]
  cases selectTest s.cfg.probePolicy (capsFromBytes m1 m2 c1 c2) s.seqTarget <;> rfl

theorem execSpeedNegotiate_laterState (testId targetId : Byte) :
    execSpeedNegotiate testId targetId (laterState d s) = laterResult d (execSpeedNegotiate testId targetId s) := by
  refine ite_eq_laterResult .rfl ?_ rfl
  cases fromId targetId with
  | none => rfl
  | some target =>
    refine ite_eq_laterResult .rfl rfl (ite_eq_laterResult .rfl rfl ?_)
    cases fromId testId <;> rfl

theorem execSpeedAck_laterState : execSpeedAck (laterState d s) = laterResult d (execSpeedAck s) :=
  ite_eq_laterResult .rfl (ite_eq_laterResult .rfl rfl rfl) rfl

theorem execSpeedTest_laterState (p : List Byte) :
    execSpeedTest p (laterState d s) = laterResult d (execSpeedTest p s) :=
  ite_eq_laterResult .rfl (ite_eq_laterResult .rfl rfl rfl) rfl

theorem execSpeedResult_laterState (p : List Byte) :
    execSpeedResult p (laterState d s) = laterResult d (execSpeedResult p s) :=
  ite_eq_laterResult .rfl (ite_eq_laterResult .rfl rfl rfl) rfl

theorem execSpeedTest2_laterState : execSpeedTest2 (laterState d s) = laterResult d (execSpeedTest2 s) :=
  ite_eq_laterResult .rfl rfl rfl

theorem execSpeedResult2_laterState : execSpeedResult2 (laterState d s) = laterResult d (execSpeedResult2 s) :=
  ite_eq_laterResult .rfl rfl rfl

theorem execSpeedPush_laterState (b : Byte) :
    execSpeedPush b (laterState d s) = laterResult d (execSpeedPush b s) := by
  unfold execSpeedPush
  cases fromId b with
  | none => rfl
  | some v => exact ite_eq_laterResult .rfl rfl rfl

theorem dispatchFrame_laterState (i : Instr) : dispatchFrame i (laterState d s) = laterResult d (dispatchFrame i s) := by
  cases i with
  | speedRequest => exact execSpeedRequest_laterState d s
  | speedAnswer m1 m2 c1 c2 => exact execSpeedAnswer_laterState d s m1 m2 c1 c2
  | speedNegotiate a g => exact execSpeedNegotiate_laterState d s a g
  | speedAck => exact execSpeedAck_laterState d s
  | speedTest p => exact execSpeedTest_laterState d s p
  | speedResult p => exact execSpeedResult_laterState d s p
  | speedTest2 => exact execSpeedTest2_laterState d s
  | speedResult2 => exact execSpeedResult2_laterState d s
  | speedPush b => exact execSpeedPush_laterState d s b
  | _ => rfl

/-! ### Received bytes -/

theorem endFrame_laterState : endFrame (laterState d s) = laterResult d (endFrame s) := by
  simp only [endFrame, storeByte_laterState, leaveFrame_laterState, candidate_laterState]
  cases decodeFrame (candidate (storeByte 0xF7 s)) with
  | accept i => exact dispatchFrame_laterState d _ i
  | reject r => rfl

theorem execRxF7_laterState : execRxF7 (laterState d s) = laterResult d (execRxF7 s) :=
  ite_eq_laterResult .rfl rfl (ite_eq_laterResult .rfl rfl (endFrame_laterState d (stampRx s)))

theorem execRxByte_laterState (b : Byte) : execRxByte b (laterState d s) = laterResult d (execRxByte b s) := by
  simp only [execRxByte, stampRx_laterState, storeOrDrop_laterState, laterResult_next]

/-! ### Host operations and the SEQ phase

TICK and the SEQ phase are the only rules that decide by the clock, and both ask for `elapsed`. -/

theorem execSetSupported_laterState (v : BitVec 4) (c : Bool) :
    execSetSupported v c (laterState d s) = laterResult d (execSetSupported v c s) := by
  unfold execSetSupported
  cases fromField v <;> rfl

theorem execNegotiate_laterState (v : BitVec 4) (n : Ms) :
    execNegotiate v n (laterState d s) = laterResult d (execNegotiate v n s) := by
  refine ite_eq_laterResult .rfl rfl ?_
  cases fromField v <;> rfl

theorem execPush_laterState (v : BitVec 4) : execPush v (laterState d s) = laterResult d (execPush v s) := by
  refine ite_eq_laterResult .rfl rfl ?_
  cases fromField v <;> rfl

theorem execTick_laterState : execTick (laterState d s) = laterResult d (execTick s) := by
  have hrx : elapsed (laterState d s).now (laterState d s).lastRxTime = elapsed s.now s.lastRxTime :=
    elapsed_add s.now s.lastRxTime d
  have htx : elapsed (laterState d s).now (laterState d s).lastAsTxTime = elapsed s.now s.lastAsTxTime :=
    elapsed_add s.now s.lastAsTxTime d
  unfold execTick
  rw [hrx, htx]
  exact ite_eq_laterResult .rfl rfl (ite_eq_laterResult .rfl rfl (ite_eq_laterResult .rfl rfl rfl))

theorem execSendActiveSense_laterState :
    execSendActiveSense (laterState d s) = laterResult d (execSendActiveSense s) :=
  ite_eq_laterResult .rfl rfl rfl

theorem seqTime_laterState : seqTime (laterState d s) = laterResult d (seqTime s) := by
  have hseq : elapsed (laterState d s).now (laterState d s).seqT0 = elapsed s.now s.seqT0 :=
    elapsed_add s.now s.seqT0 d
  unfold seqTime
  rw [hseq, laterState_seqState]
  cases s.seqState with
  | idle => rfl
  | _ => exact ite_eq_laterResult .rfl rfl rfl

/-! ### The step -/

theorem exec_laterState (i : Instr) : exec i (laterState d s) = laterResult d (exec i s) := by
  by_cases hframe : ∃ f, encode i = .frame f
  · obtain ⟨f, hf⟩ := hframe
    simp only [exec_eq_dispatchFrame hf]
    exact dispatchFrame_laterState d s i
  cases i with
  | rxF0 => rfl
  | rxF7 => exact execRxF7_laterState d s
  | rxFE => exact execRxByte_laterState d s 0xFE
  | rxByte b => exact execRxByte_laterState d s b
  | reserved0 => rfl
  | setSupported v c => exact execSetSupported_laterState d s v c
  | negotiate v n => exact execNegotiate_laterState d s v n
  | push v => exact execPush_laterState d s v
  | tick => exact execTick_laterState d s
  | sendActiveSense => exact execSendActiveSense_laterState d s
  | reserved6 => rfl
  | reserved7 => rfl
  | _ => exact absurd ⟨_, rfl⟩ hframe

theorem rxPhase_laterState (taken : Bool) (b : Byte) :
    rxPhase taken b (laterState d s) = laterResult d (rxPhase taken b s) := by
  cases taken
  · rfl
  · exact exec_laterState d s _

theorem cmdPhase_laterState (taken : Bool) (w : CmdWord) :
    cmdPhase taken w (laterState d s) = laterResult d (cmdPhase taken w s) := by
  cases taken
  · rfl
  · exact exec_laterState d s _

theorem phases_laterState (p : PortSample) :
    phases (laterSample d p) (laterState d s) = laterResult d (phases p s) := by
  simp only [phases, laterSample, rxReady_laterState, cmdReady_laterState, beginStep_laterState, rxPhase_laterState]
  refine andThen_laterResult d _ _ _ fun s1 => ?_
  rw [seqTime_laterState]
  exact andThen_laterResult d _ _ _ fun s2 => cmdPhase_laterState d s2 _ _

/-- No reset: that one loads zeros into the timestamps (70_reset_and_hazards.md R280). -/
theorem stepOn_laterState (p : PortSample) (h : p.rst = false) :
    stepOn (laterSample d p) (laterState d s) = laterResult d (stepOn p s) := by
  have hrst : (laterSample d p).rst = false := h
  simp only [stepOn, h, hrst, Bool.false_eq_true, if_false, space_laterState, phases_laterState]
  exact ite_eq_laterResult .rfl rfl (andThen_laterResult d _ _ _ fun _ => rfl)

end

/-- Settles O58: the sample, the state it is dropped from and the step on it all move together. -/
theorem onlyTimeDifferencesMatter : Obligations.OnlyTimeDifferencesMatter := by
  unfold Obligations.OnlyTimeDifferencesMatter
  intro d s t hlisted hrst hstep
  calc step (laterState d s)
      = stepOn (laterSample d (currentSample s)) (laterState d (dropSample s)) := by
        rw [step, currentSample_laterState d s hlisted, dropSample_laterState]
    _ = laterResult d (step s) := stepOn_laterState d (dropSample s) (currentSample s) hrst
    _ = .next (laterState d t) := by rw [hstep, laterResult_next]

end Sys2Proof.Machine
end

section
/-! PROOF. R287 speaks of successive steps only. The relation it asks of two samples is transitive, because differences
modulo 2^32 add up, so it holds of any two samples of the run. -/

namespace Sys2Proof.Machine

/-- From sample `a` to sample `b` the clock advanced by the true elapsed time modulo 2^32 (70_reset_and_hazards.md R287). -/
def AdvancesTruly (a b : Nat × PortSample) : Prop :=
  a.1 ≤ b.1 ∧ elapsed b.2.nowMs a.2.nowMs = (b.1 - a.1) % 2 ^ 32

/-- Two intervals in a row make one, modulo 2^32 (00_scope.md R11). -/
theorem elapsed_trans (a b c : Ms) : elapsed c a = (elapsed b a + elapsed c b) % 2 ^ 32 := by
  unfold elapsed
  rw [← BitVec.toNat_add]
  congr 1
  bv_omega

theorem AdvancesTruly.refl (a : Nat × PortSample) : AdvancesTruly a a := ⟨le_rfl, by simp⟩

theorem AdvancesTruly.trans {a b c : Nat × PortSample} (hab : AdvancesTruly a b) (hbc : AdvancesTruly b c) :
    AdvancesTruly a c := by
  obtain ⟨hle, hel⟩ := hab
  obtain ⟨hle', hel'⟩ := hbc
  refine ⟨hle.trans hle', ?_⟩
  rw [elapsed_trans _ b.2.nowMs, hel, hel', ← Nat.add_mod, Nat.add_comm, Nat.sub_add_sub_cancel hle' hle]

theorem clockTrueFrom_iff_isChain (a : Nat × PortSample) (run : List (Nat × PortSample)) :
    clockTrueFrom a run = true ↔ (a :: run).IsChain AdvancesTruly := by
  induction run generalizing a with
  | nil => simp [clockTrueFrom]
  | cons b rest ih => simp [clockTrueFrom, AdvancesTruly, ih]

theorem clockTrue_iff_isChain (run : List (Nat × PortSample)) :
    clockTrue run = true ↔ run.IsChain AdvancesTruly := by
  cases run with
  | nil => simp [clockTrue]
  | cons a rest => exact clockTrueFrom_iff_isChain a rest

/-- By transitivity the duty on successive steps reaches from any step to any later one. -/
theorem advancesTruly_of_clockTrue {run : List (Nat × PortSample)} {i j : Nat} {a b : Nat × PortSample}
    (h : clockTrue run = true) (hij : i ≤ j) (ha : run[i]? = some a) (hb : run[j]? = some b) : AdvancesTruly a b := by
  have htrans : Trans AdvancesTruly AdvancesTruly AdvancesTruly := ⟨AdvancesTruly.trans⟩
  have hpair : run.Pairwise AdvancesTruly := List.isChain_iff_pairwise.mp ((clockTrue_iff_isChain run).mp h)
  obtain ⟨hi, rfl⟩ := List.getElem?_eq_some_iff.mp ha
  obtain ⟨hj, rfl⟩ := List.getElem?_eq_some_iff.mp hb
  rcases hij.eq_or_lt with rfl | hlt
  · exact .refl _
  · exact List.pairwise_iff_getElem.mp hpair i j hi hj hlt

/-- Settles O59; the last clause is the middle one where the true time is below the modulus. -/
theorem elapsedIsTheTrueTime : Obligations.ElapsedIsTheTrueTime := by
  unfold Obligations.ElapsedIsTheTrueTime
  intro run i j a b hclock hij ha hb
  obtain ⟨hle, hel⟩ := advancesTruly_of_clockTrue hclock hij ha hb
  exact ⟨hle, hel, fun hlt => hel.trans (Nat.mod_eq_of_lt hlt)⟩

end Sys2Proof.Machine
end

section
/-! PROOF. The level outputs and the event port: each output is a table over the register or the event it shows, and an
`ev_data` field is its parts, placed side by side without overlap (10_state.md R37, R40; 30_encoding.md R84, R85). -/

namespace Sys2Proof.Machine

/-- Every rate fits the 20 bits of `baud_rate` and `ev_data`. -/
theorem baudFor_lt (v : Speed) : (baudFor v).toNat < 2 ^ 20 := by
  cases v <;> decide

/-- Every speed id fits the 4 bits of `current_speed_id`. -/
theorem idFor_lt (v : Speed) : idFor v < 2 ^ 4 := by
  cases v <;> decide

theorem currentSpeedId_toNat (s : State) : (currentSpeedId s).toNat = idFor s.currentSpeed := by
  rw [currentSpeedId, BitVec.toNat_ofNat, Nat.mod_eq_of_lt (idFor_lt _)]

theorem baudRate_toNat (s : State) : (baudRate s).toNat = (baudFor s.currentSpeed).toNat := by
  rw [baudRate, BitVec.toNat_setWidth, Nat.mod_eq_of_lt (baudFor_lt _)]

theorem busy_iff (s : State) : busy s = true ↔ s.seqState ≠ .idle := bne_iff_ne

theorem evPort_of_cons {s : State} {e : Event} {rest : List Event} (h : s.fifo = e :: rest) :
    evPort s = some (evKind e, evData e) := by
  simp [evPort, h]

theorem evData_tx_toNat (b : Byte) : (evData (.tx b)).toNat = b.toNat :=
  BitVec.toNat_setWidth_of_le (by decide)

theorem evData_baud_toNat (v : Speed) : (evData (.baud (baudFor v))).toNat = (baudFor v).toNat := by
  rw [evData, BitVec.toNat_setWidth, Nat.mod_eq_of_lt (baudFor_lt v)]

theorem evData_speedChanged_toNat (v : Speed) : (evData (.speedChanged v)).toNat = idFor v := by
  rw [evData, BitVec.toNat_ofNat, Nat.mod_eq_of_lt ((idFor_lt v).trans (by decide))]

/-- `NEG_DONE`: the cause in the low four bits, `ok` above them. -/
theorem evData_negDone_toNat (ok : Bool) (c : Cause) :
    (evData (.negDone ok c)).toNat = (causeCode c).toNat + 16 * ok.toNat := by
  have hc := (causeCode c).isLt
  rw [evData, BitVec.toNat_setWidth_of_le (by decide), BitVec.toNat_append, BitVec.toNat_ofBool,
    ← Nat.shiftLeft_add_eq_or_of_lt hc, Nat.shiftLeft_eq]
  omega

/-- `CMD_REJECTED`: the operation in the low three bits, one bit free, the reason above it. -/
theorem evData_cmdRejected_toNat (op : BitVec 3) (r : Reason) :
    (evData (.cmdRejected op r)).toNat = op.toNat + 16 * (reasonCode r).toNat := by
  have hop := op.isLt
  have hfree : (0 : BitVec 1).toNat = 0 := rfl
  rw [evData, BitVec.toNat_setWidth_of_le (by decide), BitVec.toNat_append, BitVec.toNat_append,
    ← Nat.shiftLeft_add_eq_or_of_lt hop, ← Nat.shiftLeft_add_eq_or_of_lt (by decide), Nat.shiftLeft_eq, Nat.shiftLeft_eq,
    hfree]
  omega

/-- Settles O60, an output at a time. -/
theorem outputPortsShowTheState : Obligations.OutputPortsShowTheState := by
  unfold Obligations.OutputPortsShowTheState
  refine ⟨fun s => ⟨currentSpeedId_toNat s, baudRate_toNat s, busy_iff s, ?_⟩, fun _ _ _ => evPort_of_cons,
    fun b => ⟨rfl, evData_tx_toNat b⟩, fun v => ⟨rfl, evData_baud_toNat v, rfl, evData_speedChanged_toNat v⟩,
    ⟨rfl, rfl⟩, fun ok c => ⟨rfl, evData_negDone_toNat ok c⟩, fun op r => ⟨rfl, evData_cmdRejected_toNat op r⟩, rfl, rfl⟩
  rw [testStateOut]
  cases s.testState <;> rfl

end Sys2Proof.Machine
end

section
/-! PROOF. What a step takes, and what it does to the build and to the event FIFO. The three phases touch none of these
(`frame_of_phases`), so each claim is one case for the reset, one for the stall and one for the frame of a step that runs. -/

namespace Sys2Proof.Machine

/-- Fewer than 34 free places are no room (10_state.md R41). -/
theorem space_eq_false {s : State} {d : Nat} (hd : s.cfg.evFifoDepth = some d) (hroom : d < s.fifo.length + 34) :
    space s = false := by
  simp only [space, hd, stepEvMax]
  exact decide_eq_false (by omega)

theorem stepOn_of_no_space {p : PortSample} {s : State} (hrst : p.rst = false) (hspace : space s = false) :
    stepOn p s = .next (stall p.evReady s) := by
  simp [stepOn, hrst, hspace]

/-- Settles O38: the step on the listed sample is a stall. -/
theorem stallChangesNothing : Obligations.StallChangesNothing := by
  unfold Obligations.StallChangesNothing
  intro s p rest d hin hrst hd hroom
  have hspace : space (dropSample s) = false := by rw [space_dropSample, space_eq_false hd hroom]
  rw [step, currentSample_of_cons s p rest hin, stepOn_of_no_space hrst hspace, dropSample_of_cons s p rest hin]
  rfl

/-- Settles O50. -/
theorem buildNeverChanges : Obligations.BuildNeverChanges := by
  unfold Obligations.BuildNeverChanges
  intro s t hstep
  cases effect_of_step s t hstep with
  | reset => simp
  | stalled => simp
  | ran s1 s2 s3 _ _ hrx hseq hcmd =>
    obtain ⟨hcfg, -⟩ := frame_of_phases hrx hseq hcmd
    simp [hcfg]

/-- Settles O41: the flags are set where the step begins, from the readiness of its start. -/
theorem stepTakesWhatIsReady : Obligations.StepTakesWhatIsReady := by
  unfold Obligations.StepTakesWhatIsReady
  intro s t hstep
  cases effect_of_step s t hstep with
  | reset hrst => simp [hrst]
  | stalled _ hspace =>
    rw [space_dropSample] at hspace
    simp [hspace]
  | ran s1 s2 s3 hrst _ hrx hseq hcmd =>
    obtain ⟨-, -, -, htakenRx, htakenCmd, -⟩ := frame_of_phases hrx hseq hcmd
    simp [htakenRx, htakenCmd, hrst, rxReady, cmdReady, Bool.and_assoc]

/-- What the consumer receives is what leaves the FIFO (10_state.md R40). -/
theorem consumedIn_append_popped {s : State} (hrst : (currentSample s).rst = false) :
    consumedIn s ++ (if (currentSample s).evReady then s.fifo.tail else s.fifo) = s.fifo := by
  cases hready : (currentSample s).evReady with
  | false => simp [consumedIn, hready]
  | true => cases hfifo : s.fifo <;> simp [consumedIn, hready, hrst, hfifo]

/-- In a build with a FIFO, a step that is no reset pops the head and then appends its events; a stall has none. -/
theorem fifo_of_step {s t : State} (hstep : step s = .next t) (hrst : (currentSample s).rst = false)
    (hdepth : s.cfg.evFifoDepth.isSome = true) :
    t.fifo = (if (currentSample s).evReady then s.fifo.tail else s.fifo) ++ t.events := by
  cases effect_of_step s t hstep with
  | reset hreset => simp [hrst] at hreset
  | stalled => simp
  | ran s1 s2 s3 _ _ hrx hseq hcmd =>
    obtain ⟨hcfg, hfifo, -⟩ := frame_of_phases hrx hseq hcmd
    simp [hcfg, hfifo, hdepth]

/-- Settles O44. -/
theorem fifoKeepsEveryEventInOrder : Obligations.FifoKeepsEveryEventInOrder := by
  unfold Obligations.FifoKeepsEveryEventInOrder
  intro s t hstep hrst hdepth
  calc s.fifo ++ t.events
      = consumedIn s ++ (if (currentSample s).evReady then s.fifo.tail else s.fifo) ++ t.events := by
        rw [consumedIn_append_popped hrst]
    _ = consumedIn s ++ t.fifo := by rw [fifo_of_step hstep hrst hdepth, List.append_assoc]

end Sys2Proof.Machine
end

section
/-! PROOF. The local capabilities and the two timestamps each have one writer: SET_SUPPORTED (10_state.md R23), the receipt
of a byte (R25) and the Active Sensing byte of a host command (R26). Every other part of a step leaves them as they are. -/

namespace Sys2Proof.Machine

/-! ### The parts of a step -/

/-- `t` has the capabilities and the timestamps of `s`. -/
structure SameCapsAndStamps (s t : State) : Prop where
  localCaps : t.localCaps = s.localCaps
  lastRxTime : t.lastRxTime = s.lastRxTime
  lastAsTxTime : t.lastAsTxTime = s.lastAsTxTime

theorem sameCapsAndStamps_of_frameEffect {s t : State} (h : FrameEffect s t) : SameCapsAndStamps s t := by
  cases h <;> exact ⟨rfl, rfl, rfl⟩

theorem sameCapsAndStamps_of_seqEffect {s t : State} (h : SeqEffect s t) : SameCapsAndStamps s t := by
  cases h <;> exact ⟨rfl, rfl, rfl⟩

/-- A received byte writes its stamp and no more of these. -/
theorem sameCapsAndStamps_of_byteEffect {s t : State} (h : ByteEffect s t) : SameCapsAndStamps (stampRx s) t := by
  cases h with
  | ended _ _ _ hframe =>
    obtain ⟨hcaps, hrx, htx⟩ := sameCapsAndStamps_of_frameEffect hframe
    exact ⟨hcaps, hrx, htx⟩
  | _ => exact ⟨rfl, rfl, rfl⟩

theorem sameCapsAndStamps_of_rxEffect {s t : State} {taken : Bool} (h : rxEffect taken s t) :
    SameCapsAndStamps (if taken then stampRx s else s) t := by
  cases taken with
  | false =>
    cases h
    exact ⟨rfl, rfl, rfl⟩
  | true => exact sameCapsAndStamps_of_byteEffect h

theorem lastRxTime_of_cmdEffect {s t : State} {taken : Bool} {op : BitVec 3} (h : cmdEffect taken op s t) :
    t.lastRxTime = s.lastRxTime := by
  cases taken with
  | false => rw [show t = s from h]
  | true => cases (h : CommandEffect s op t) <;> rfl

theorem localCaps_of_cmdEffect {s t : State} {taken : Bool} {op : BitVec 3} (h : cmdEffect taken op s t) :
    t.localCaps = s.localCaps ∨
      (taken = true ∧ op = 1 ∧ ∃ v cert, t.localCaps = addCap s.localCaps v cert) := by
  cases taken with
  | false => exact .inl (by rw [show t = s from h])
  | true =>
    cases (h : CommandEffect s op t) with
    | capabilityAdded v cert hop => exact .inr ⟨rfl, hop, v, cert, rfl⟩
    | _ => exact .inl rfl

theorem lastAsTxTime_of_cmdEffect {s t : State} {taken : Bool} {op : BitVec 3} (h : cmdEffect taken op s t) :
    t.lastAsTxTime = s.lastAsTxTime ∨
      (t.lastAsTxTime = s.now ∧ .tx 0xFE ∈ t.events ∧ taken = true) := by
  cases taken with
  | false => exact .inl (by rw [show t = s from h])
  | true =>
    cases (h : CommandEffect s op t) with
    | keptAlive => exact .inr ⟨rfl, by simp, rfl⟩
    | _ => exact .inl rfl

/-! ### The capabilities -/

theorem getLsbD_withBit_of_getLsbD {b : Byte} {j : Nat} (k : Nat) (h : b.getLsbD j = true) :
    (withBit b k).getLsbD j = true := by
  simp [withBit, h]

/-- `d` has every support bit and every certification bit of `c`. -/
structure CapsWithin (c d : Caps) : Prop where
  supByte : ∀ p k, (supByte c p).getLsbD k = true → (supByte d p).getLsbD k = true
  certByte : ∀ p k, (certByte c p).getLsbD k = true → (certByte d p).getLsbD k = true

theorem CapsWithin.refl (c : Caps) : CapsWithin c c := ⟨fun _ _ h => h, fun _ _ h => h⟩

theorem CapsWithin.trans {c d e : Caps} (h : CapsWithin c d) (k : CapsWithin d e) : CapsWithin c e :=
  ⟨fun p j hj => k.supByte p j (h.supByte p j hj), fun p j hj => k.certByte p j (h.certByte p j hj)⟩

theorem supByte_addSupport (c : Caps) (p q : CapPair) (k : Nat) :
    supByte (addSupport c p k) q = if q = p then withBit (supByte c q) k else supByte c q := by
  cases p <;> cases q <;> rfl

theorem certByte_addSupport (c : Caps) (p q : CapPair) (k : Nat) : certByte (addSupport c p k) q = certByte c q := by
  cases p <;> rfl

theorem supByte_addCert (c : Caps) (p q : CapPair) (k : Nat) : supByte (addCert c p k) q = supByte c q := by
  cases p <;> rfl

theorem certByte_addCert (c : Caps) (p q : CapPair) (k : Nat) :
    certByte (addCert c p k) q = if q = p then withBit (certByte c q) k else certByte c q := by
  cases p <;> cases q <;> rfl

theorem capsWithin_addSupport (c : Caps) (p : CapPair) (k : Nat) : CapsWithin c (addSupport c p k) where
  supByte q j h := by
    rw [supByte_addSupport]
    split
    · exact getLsbD_withBit_of_getLsbD k h
    · exact h
  certByte q j h := by rwa [certByte_addSupport]

theorem capsWithin_addCert (c : Caps) (p : CapPair) (k : Nat) : CapsWithin c (addCert c p k) where
  supByte q j h := by rwa [supByte_addCert]
  certByte q j h := by
    rw [certByte_addCert]
    split
    · exact getLsbD_withBit_of_getLsbD k h
    · exact h

/-- `add` only adds bits (40_speed_caps.md R107). -/
theorem capsWithin_addCap (c : Caps) (v : Speed) (cert : Bool) : CapsWithin c (addCap c v cert) := by
  unfold addCap
  split
  · exact .refl c
  split
  · exact (capsWithin_addSupport c _ _).trans (capsWithin_addCert _ _ _)
  · exact capsWithin_addSupport c _ _

/-- A speed is supported where its bit, if it has one, is set (40_speed_caps.md R105). -/
theorem has_some_iff (c : Caps) (v : Speed) :
    has c (some v) = true ↔ ∀ p k, capBit v = some (p, k) → (supByte c p).getLsbD k = true := by
  simp only [has]
  cases capBit v with
  | none => simp
  | some b => simp [Prod.ext_iff, and_imp]

/-- A speed is certified where its bit, if it has one, is set (40_speed_caps.md R106). -/
theorem isCertified_some_iff (c : Caps) (v : Speed) :
    isCertified c (some v) = true ↔ ∀ p k, capBit v = some (p, k) → (certByte c p).getLsbD k = true := by
  simp only [isCertified]
  cases capBit v with
  | none => simp
  | some b => simp [Prod.ext_iff, and_imp]

theorem has_mono {c d : Caps} (h : CapsWithin c d) (v : Speed) (hv : has c (some v) = true) :
    has d (some v) = true := by
  rw [has_some_iff] at hv ⊢
  exact fun p k hbit => h.supByte p k (hv p k hbit)

theorem isCertified_mono {c d : Caps} (h : CapsWithin c d) (v : Speed) (hv : isCertified c (some v) = true) :
    isCertified d (some v) = true := by
  rw [isCertified_some_iff] at hv ⊢
  exact fun p k hbit => h.certByte p k (hv p k hbit)

/-! ### The step -/

/-- The capabilities of a step that is no reset: as they were, or one speed added by a taken op 1. -/
theorem localCaps_of_step {s t : State} (hstep : step s = .next t) (hrst : (currentSample s).rst = false) :
    t.localCaps = s.localCaps ∨
      ((t.takenCmd = true ∧ cmdOp (currentSample s).cmdWord = 1) ∧
        ∃ v cert, t.localCaps = addCap s.localCaps v cert) := by
  cases effect_of_step s t hstep with
  | reset hreset => simp [hrst] at hreset
  | stalled => simp
  | ran s1 s2 s3 _ _ hrx hseq hcmd =>
    obtain ⟨-, -, -, -, htaken, -⟩ := frame_of_phases hrx hseq hcmd
    have hcaps1 : s1.localCaps = s.localCaps := by
      rw [(sameCapsAndStamps_of_rxEffect hrx).localCaps]
      split <;> simp
    have hcaps2 : s2.localCaps = s.localCaps := (sameCapsAndStamps_of_seqEffect hseq).localCaps.trans hcaps1
    have hcaps := localCaps_of_cmdEffect hcmd
    rw [hcaps2] at hcaps
    rcases hcaps with hsame | ⟨htook, hop, hadded⟩
    · exact .inl hsame
    · exact .inr ⟨⟨by simpa [htaken] using htook, hop⟩, hadded⟩

/-- Settles O49. -/
theorem capabilitiesOnlyGrow : Obligations.CapabilitiesOnlyGrow := by
  unfold Obligations.CapabilitiesOnlyGrow
  intro s t hstep hrst
  have hcaps := localCaps_of_step hstep hrst
  have hwithin : CapsWithin s.localCaps t.localCaps := by
    rcases hcaps with hsame | ⟨-, v, cert, hadded⟩
    · exact hsame ▸ .refl _
    · exact hadded ▸ capsWithin_addCap _ v cert
  exact ⟨hcaps.imp_right And.left, fun v => ⟨has_mono hwithin v, isCertified_mono hwithin v⟩⟩

/-- Settles O51: the RX phase stamps the receipt, the CMD phase the keep-alive byte, both with the sampled `now`. -/
theorem timestampsFollowTheirEvents : Obligations.TimestampsFollowTheirEvents := by
  unfold Obligations.TimestampsFollowTheirEvents
  intro s t hstep hrst
  cases effect_of_step s t hstep with
  | reset hreset => simp [hrst] at hreset
  | stalled => simp
  | ran s1 s2 s3 _ _ hrx hseq hcmd =>
    obtain ⟨-, -, -, htakenRx, htakenCmd, -⟩ := frame_of_phases hrx hseq hcmd
    obtain ⟨-, -, hnow, -⟩ := phaseFrame_trans (frame_of_rxEffect hrx) (frame_of_seqEffect hseq)
    have hstamps1 := sameCapsAndStamps_of_rxEffect hrx
    have hstamps2 := sameCapsAndStamps_of_seqEffect hseq
    have htx2 : s2.lastAsTxTime = s.lastAsTxTime := by
      rw [hstamps2.lastAsTxTime, hstamps1.lastAsTxTime]
      split <;> simp
    constructor
    · rw [pushFifo_lastRxTime, popFifo_lastRxTime, lastRxTime_of_cmdEffect hcmd, hstamps2.lastRxTime,
        hstamps1.lastRxTime, pushFifo_takenRx, popFifo_takenRx, htakenRx, beginStep_takenRx]
      split <;> simp
    · have htx := lastAsTxTime_of_cmdEffect hcmd
      rw [htx2, hnow] at htx
      simpa [htakenCmd] using htx

end Sys2Proof.Machine
end

section
/-! PROOF. Where a rule emits a frame and commits, `BAUD` divides the byte stream (20_memory.md R59): a frame before the
commit goes out at the rate that stood, one after it at the committed rate. Each of the five rules is one of these two
orders, behind its condition. -/

namespace Sys2Proof.Machine

/-! ### The two orders of a frame and a commit -/

/-- A frame before the commit goes out at the rate before it (43_engine_common.md R165). -/
theorem sentAtRate_commit_emitFrame (r : BitVec 32) (c : Command) (p : List Byte) (v : Speed) {s : State}
    (hempty : s.events = []) :
    sentAtRate r (commit v (emitFrame c p s)).events = (frameBytes c p).map (fun b => (r, b)) := by
  rw [commit_events, emitFrame_events, hempty, List.nil_append, sentAtRate_append, sentAtRate_map_tx, rateAfter_map_tx]
  exact List.append_nil _

/-- A frame after the commit goes out at the committed rate (43_engine_common.md R164). -/
theorem sentAtRate_emitFrame_commit (r : BitVec 32) (c : Command) (p : List Byte) (v : Speed) {s : State}
    (hempty : s.events = []) :
    sentAtRate r (emitFrame c p (commit v s)).events = (frameBytes c p).map (fun b => (baudFor v, b)) := by
  rw [emitFrame_events, commit_events, hempty, List.nil_append]
  exact sentAtRate_map_tx (baudFor v) (frameBytes c p)

/-! ### Roles, ids and capabilities that the conditions ask for -/

theorem mayOriginate_iff (r : Role) : mayOriginate r = true ↔ r ≠ .slave := by
  cases r <;> decide

theorem mayAnswer_iff (r : Role) : mayAnswer r = true ↔ r ≠ .master := by
  cases r <;> decide

theorem fromId_idByte (v : Speed) : fromId (idByte v) = some v := by
  cases v <;> rfl

theorem fromField_idFor (v : Speed) : fromField (BitVec.ofNat 4 (idFor v)) = some v := by
  cases v <;> rfl

/-- 1× is always supported (40_speed_caps.md R105). -/
theorem has_x1 (c : Caps) : has c (some .x1) = true := rfl

/-! ### The five rules where their conditions hold -/

section
variable {s : State}

theorem exec_push_of_originator (hrole : s.cfg.role ≠ .slave) (v : Speed) :
    exec (.push (BitVec.ofNat 4 (idFor v))) s = .next (commit v (emitFrame .speedPush [idByte v] s)) := by
  simp [exec, execPush, (mayOriginate_iff _).mpr hrole, fromField_idFor]

/-- The direct path: 1× with any test id, or a supported and certified target that is its own test speed
(45_slave.md R211). -/
theorem exec_speedNegotiate_direct (hrole : s.cfg.role ≠ .master) {a : Byte} {v : Speed}
    (hdirect : v = .x1 ∨ has s.localCaps (some v) = true ∧ isCertified s.localCaps (some v) = true ∧ a = idByte v) :
    exec (.speedNegotiate a (idByte v)) s = .next (acceptDirectly v s) := by
  rcases hdirect with rfl | ⟨hhas, hcert, rfl⟩
  · simp [exec, execSpeedNegotiate, (mayAnswer_iff _).mpr hrole, fromId_idByte, has_x1]
  · simp [exec, execSpeedNegotiate, (mayAnswer_iff _).mpr hrole, fromId_idByte, hhas, hcert]

theorem exec_speedTest2_awaited (hrole : s.cfg.role ≠ .master) (htest : s.testState = .awaitingTest2) :
    exec .speedTest2 s = .next (setTestState .idle (commit s.pendingTarget (emitFrame .speedResult2 [] s))) := by
  simp [exec, execSpeedTest2, (mayAnswer_iff _).mpr hrole, htest]

theorem exec_speedTest_passed (hrole : s.cfg.role ≠ .master) (htest : s.testState = .awaitingTest) :
    exec (.speedTest testPattern) s =
      .next (setTestState .awaitingTest2 (emitFrame .speedResult testPattern (commit s.pendingTest s))) := by
  simp [exec, execSpeedTest, (mayAnswer_iff _).mpr hrole, htest]

theorem seqTime_settled (hseq : s.seqState = .settle) (htime : s.cfg.settleMs ≤ elapsed s.now s.seqT0) :
    seqTime s = .next (endSettle s) := by
  simp [seqTime, hseq, htime]

end

/-- Settles O48: the rule's condition gives its next state, and the order of its frame and its commit gives the rate. -/
theorem framesGoOutAtTheirRate : Obligations.FramesGoOutAtTheirRate := by
  unfold Obligations.FramesGoOutAtTheirRate
  intro s t v hempty
  refine ⟨fun hrole hexec => ?push, fun a hrole hdirect hexec => ?direct, fun hrole htest hexec => ?test2,
    fun hrole htest hexec => ?test, fun hseq htime hexec => ?settle⟩
  case push =>
    cases (exec_push_of_originator hrole v).symm.trans hexec
    exact ⟨sentAtRate_commit_emitFrame _ _ _ _ hempty, rfl⟩
  case direct =>
    cases (exec_speedNegotiate_direct hrole hdirect).symm.trans hexec
    exact ⟨sentAtRate_commit_emitFrame _ _ _ _ hempty, rfl⟩
  case test2 =>
    cases (exec_speedTest2_awaited hrole htest).symm.trans hexec
    exact ⟨sentAtRate_commit_emitFrame _ _ _ _ hempty, rfl⟩
  case test =>
    cases (exec_speedTest_passed hrole htest).symm.trans hexec
    exact ⟨sentAtRate_emitFrame_commit _ _ _ _ hempty, rfl⟩
  case settle =>
    cases (seqTime_settled hseq htime).symm.trans hexec
    exact ⟨sentAtRate_emitFrame_commit _ _ _ _ hempty, rfl⟩

end Sys2Proof.Machine
end

section
/-! PROOF. The decoder said once: a built frame passes the four checks, one equation of `decodeCommand` per operation, and a
field of a command word depends on its own bits alone. The encoding's obligations are read off these. -/

namespace Sys2Proof

/-! ### Built frames pass the codec (41_codec.md R122 to R126) -/

@[simp] theorem checkDelimiters_frameBytes (c : Command) (p : List Byte) : checkDelimiters (frameBytes c p) = true := by
  have hlen : 2 ≤ (frameBytes c p).length := by rw [frameBytes_length]; omega
  have hhead : (frameBytes c p).head? = some 0xF0 := rfl
  rw [checkDelimiters, decide_eq_true hlen, hhead, frameBytes_getLast?]
  rfl

@[simp] theorem checkManufacturer_frameBytes (c : Command) (p : List Byte) : checkManufacturer (frameBytes c p) = true := by
  have hlen : 6 ≤ (frameBytes c p).length := by rw [frameBytes_length]; omega
  have hbytes : ((frameBytes c p).drop 1).take 5 = manufacturer := rfl
  rw [checkManufacturer, decide_eq_true hlen, hbytes]
  rfl

@[simp] theorem checkCommand_frameBytes (c : Command) (p : List Byte) : checkCommand (frameBytes c p) = some c :=
  commandOf_commandCode c

theorem checkLength_frameBytes {c : Command} {p : List Byte} (hlen : p.length = payloadLength c) :
    checkLength c (frameBytes c p) = true := by
  rw [checkLength, frameBytes_length, hlen, beq_self_eq_true]

/-- A built frame with a payload of its command's length is accepted as their instruction. -/
theorem decodeFrame_frameBytes {c : Command} {p : List Byte} {i : Instr} (hlen : p.length = payloadLength c)
    (hinstr : frameInstr c p = some i) : decodeFrame (frameBytes c p) = .accept i := by
  simp [decodeFrame, checkLength_frameBytes hlen, framePayload_frameBytes, hinstr]

/-! ### The operations of a command word (30_encoding.md R82, R83) -/

section
variable {w : CmdWord}

theorem decodeCommand_of_op_zero (h : cmdOp w = 0) : decodeCommand w = .reserved0 := by simp [decodeCommand, h]
theorem decodeCommand_of_op_one (h : cmdOp w = 1) : decodeCommand w = .setSupported (cmdSpeed w) (cmdCert w) := by
  simp [decodeCommand, h]
theorem decodeCommand_of_op_two (h : cmdOp w = 2) : decodeCommand w = .negotiate (cmdSpeed w) (cmdTimeout w) := by
  simp [decodeCommand, h]
theorem decodeCommand_of_op_three (h : cmdOp w = 3) : decodeCommand w = .push (cmdSpeed w) := by simp [decodeCommand, h]
theorem decodeCommand_of_op_four (h : cmdOp w = 4) : decodeCommand w = .tick := by simp [decodeCommand, h]
theorem decodeCommand_of_op_five (h : cmdOp w = 5) : decodeCommand w = .sendActiveSense := by simp [decodeCommand, h]
theorem decodeCommand_of_op_six (h : cmdOp w = 6) : decodeCommand w = .reserved6 := by simp [decodeCommand, h]
theorem decodeCommand_of_op_seven (h : cmdOp w = 7) : decodeCommand w = .reserved7 := by simp [decodeCommand, h]

end

/-- The op field has eight values, and all are rows of the opcode table. -/
theorem op_cases : ∀ op : BitVec 3, op = 0 ∨ op = 1 ∨ op = 2 ∨ op = 3 ∨ op = 4 ∨ op = 5 ∨ op = 6 ∨ op = 7 := by decide

/-! ### Built command words decode to their operation and the fields it reads -/

theorem decodeCommand_setSupported (v : BitVec 4) (cert : Bool) (n : Ms) :
    decodeCommand (cmdWordOf 1 v cert n) = .setSupported v cert := by
  simp [decodeCommand_of_op_one]

theorem decodeCommand_negotiate (v : BitVec 4) (cert : Bool) (n : Ms) :
    decodeCommand (cmdWordOf 2 v cert n) = .negotiate v n := by
  simp [decodeCommand_of_op_two]

theorem decodeCommand_push (v : BitVec 4) (cert : Bool) (n : Ms) : decodeCommand (cmdWordOf 3 v cert n) = .push v := by
  simp [decodeCommand_of_op_three]

theorem decodeCommand_tick (v : BitVec 4) (cert : Bool) (n : Ms) : decodeCommand (cmdWordOf 4 v cert n) = .tick :=
  decodeCommand_of_op_four (cmdOp_cmdWordOf 4 v cert n)

theorem decodeCommand_sendActiveSense (v : BitVec 4) (cert : Bool) (n : Ms) :
    decodeCommand (cmdWordOf 5 v cert n) = .sendActiveSense :=
  decodeCommand_of_op_five (cmdOp_cmdWordOf 5 v cert n)

/-! ### A field depends on its own bits alone -/

section
variable {w v : CmdWord}

/-- Words that agree on the `n` bits from `lo` have the same field there. -/
theorem extractLsb'_congr {lo n : Nat} (h : ∀ k, lo ≤ k → k < lo + n → w.getLsbD k = v.getLsbD k) :
    w.extractLsb' lo n = v.extractLsb' lo n := by
  apply BitVec.eq_of_getLsbD_eq
  intro k hk
  simp only [BitVec.getLsbD_extractLsb', h (lo + k) (by omega) (by omega)]

theorem cmdOp_congr (h : ∀ k, k < 3 → w.getLsbD k = v.getLsbD k) : cmdOp w = cmdOp v :=
  extractLsb'_congr fun k _ hk => h k hk

theorem cmdSpeed_congr (h : ∀ k, 3 ≤ k → k < 7 → w.getLsbD k = v.getLsbD k) : cmdSpeed w = cmdSpeed v :=
  extractLsb'_congr h

theorem cmdTimeout_congr (h : ∀ k, 8 ≤ k → k < 40 → w.getLsbD k = v.getLsbD k) : cmdTimeout w = cmdTimeout v :=
  extractLsb'_congr h

end

end Sys2Proof
end

section
/-! PROOF. The encoding (30_encoding.md): which bits of a command word an operation reads, what the input syntax assembles
to, and a few inputs written out. -/

namespace Sys2Proof.Machine

/-- Settles O6: both words have the same op, and the equation of that op names the only other fields read. -/
theorem unusedCommandBitsAreIgnored : Obligations.UnusedCommandBitsAreIgnored := by
  unfold Obligations.UnusedCommandBitsAreIgnored
  intro w v hop hspeed hcert htimeout
  have hv : cmdOp v = cmdOp w := (cmdOp_congr hop).symm
  rcases op_cases (cmdOp w) with h | h | h | h | h | h | h | h <;> rw [h] at hv
  · rw [decodeCommand_of_op_zero h, decodeCommand_of_op_zero hv]
  · have hs : cmdSpeed w = cmdSpeed v := cmdSpeed_congr (hspeed (.inl h))
    have hc : cmdCert w = cmdCert v := hcert h
    rw [decodeCommand_of_op_one h, decodeCommand_of_op_one hv, hs, hc]
  · have hs : cmdSpeed w = cmdSpeed v := cmdSpeed_congr (hspeed (.inr (.inl h)))
    have ht : cmdTimeout w = cmdTimeout v := cmdTimeout_congr (htimeout h)
    rw [decodeCommand_of_op_two h, decodeCommand_of_op_two hv, hs, ht]
  · have hs : cmdSpeed w = cmdSpeed v := cmdSpeed_congr (hspeed (.inr (.inr h)))
    rw [decodeCommand_of_op_three h, decodeCommand_of_op_three hv, hs]
  · rw [decodeCommand_of_op_four h, decodeCommand_of_op_four hv]
  · rw [decodeCommand_of_op_five h, decodeCommand_of_op_five hv]
  · rw [decodeCommand_of_op_six h, decodeCommand_of_op_six hv]
  · rw [decodeCommand_of_op_seven h, decodeCommand_of_op_seven hv]

/-- A frame of the input syntax is built from a command and a payload of its length that make its instruction. -/
theorem frameTextBytes_built (f : FrameText) : ∃ c p, frameTextBytes f = frameBytes c p ∧
    p.length = payloadLength c ∧ frameInstr c p = some (frameTextInstr f) := by
  cases f <;> exact ⟨_, _, rfl, rfl, rfl⟩

theorem decodeFrame_frameTextBytes (f : FrameText) : decodeFrame (frameTextBytes f) = .accept (frameTextInstr f) := by
  obtain ⟨c, p, hbytes, hlen, hinstr⟩ := frameTextBytes_built f
  rw [hbytes, decodeFrame_frameBytes hlen hinstr]

/-- Settles O7: a frame is built by `frameBytes` and a host word by `cmdWordOf`, and both decode to what they were built
from. -/
theorem assembledInputsDecode : Obligations.AssembledInputsDecode := by
  unfold Obligations.AssembledInputsDecode
  exact ⟨decodeFrame_frameTextBytes,
    fun s cert => decodeCommand_setSupported (speedTextId s) cert 0,
    fun s t => decodeCommand_negotiate (speedTextId s) false t,
    fun s => decodeCommand_push (speedTextId s) false 0,
    decodeCommand_tick 0 false 0,
    decodeCommand_sendActiveSense 0 false 0,
    fun v => ⟨fromField_idFor v, fromId_idByte v⟩⟩

/-- Settles O5: the accepted frames and the command words are the built ones of their fields; the other inputs are
evaluated. -/
theorem writtenWordsDecode : Obligations.WrittenWordsDecode := by
  unfold Obligations.WrittenWordsDecode
  refine ⟨?negotiateFrame, ?pushFrame, ?wrongManufacturer, ?byteFE, ?byte80, ?negotiateWord, ?setSupportedWord, ?pushWord⟩
  case negotiateFrame => exact decodeFrame_frameBytes (c := .speedNegotiate) (p := [0x07, 0x04]) rfl rfl
  case pushFrame => exact decodeFrame_frameBytes (c := .speedPush) (p := [0x04]) rfl rfl
  case wrongManufacturer => decide
  case byteFE => decide
  case byte80 => decide
  case negotiateWord => exact decodeCommand_negotiate 4 false 30
  case setSupportedWord => exact decodeCommand_setSupported 2 true 0
  case pushWord => exact decodeCommand_push 7 false 0

end Sys2Proof.Machine
end

section
/-! PROOF. The speed table and the capability set said once: an id and a speed name each other, a speed's id gives its
capability bit, and `add` makes each byte the union of what it was and the speed's own bit. -/

namespace Sys2Proof.Machine

/-! ### Ids (40_speed_caps.md R101, R102) -/

theorem speedOfId_idFor (s : Speed) : speedOfId (idFor s) = some s := by
  cases s <;> rfl

/-- Ids and speeds name each other: the two tables are inverse. -/
theorem speedOfId_eq_some_iff (n : Nat) (s : Speed) : speedOfId n = some s ↔ n = idFor s := by
  constructor
  · intro h
    unfold speedOfId at h
    split at h <;> cases h <;> rfl
  · rintro rfl
    exact speedOfId_idFor s

theorem idFor_injective : Function.Injective idFor := fun s t h =>
  Option.some.inj (by rw [← speedOfId_idFor s, h, speedOfId_idFor])

theorem one_le_idFor (s : Speed) : 1 ≤ idFor s := by
  cases s <;> decide

theorem mem_allSpeeds (s : Speed) : s ∈ allSpeeds := by
  cases s <;> decide

/-! ### The capability bit of an id (30_encoding.md R76) -/

theorem capBit_eq (s : Speed) :
    capBit s =
      if idFor s = 1 then none
      else if idFor s ≤ 8 then some (.first, idFor s - 2) else some (.second, idFor s - 9) := by
  cases s <;> rfl

theorem capBit_eq_first_iff (s : Speed) (k : Nat) :
    capBit s = some (.first, k) ↔ (2 ≤ idFor s ∧ idFor s ≤ 8) ∧ k = idFor s - 2 := by
  have hpos := one_le_idFor s
  rw [capBit_eq]
  split_ifs <;> simp <;> omega

theorem capBit_eq_second_iff (s : Speed) (k : Nat) :
    capBit s = some (.second, k) ↔ 9 ≤ idFor s ∧ k = idFor s - 9 := by
  rw [capBit_eq]
  split_ifs <;> simp <;> omega

theorem bit_lt_of_capBit {s : Speed} {p : CapPair} {k : Nat} (h : capBit s = some (p, k)) : k < 8 := by
  cases s <;> cases h <;> decide

/-- No two speeds share a bit. -/
theorem capBit_eq_iff_of_capBit {v : Speed} {b : CapPair × Nat} (hv : capBit v = some b) (s : Speed) :
    capBit s = some b ↔ v = s := by
  refine ⟨fun hs => idFor_injective ?_, fun h => h ▸ hv⟩
  obtain ⟨p, k⟩ := b
  cases p with
  | first =>
    rw [capBit_eq_first_iff] at hv hs
    omega
  | second =>
    rw [capBit_eq_second_iff] at hv hs
    omega

/-! ### The queries (40_speed_caps.md R105, R106) -/

section
variable {s : Speed}

theorem has_of_capBit_none (c : Caps) (h : capBit s = none) : has c (some s) = true := by
  simp [has, h]

theorem isCertified_of_capBit_none (c : Caps) (h : capBit s = none) : isCertified c (some s) = true := by
  simp [isCertified, h]

theorem has_of_capBit (c : Caps) {p : CapPair} {k : Nat} (h : capBit s = some (p, k)) :
    has c (some s) = (supByte c p).getLsbD k := by
  simp [has, h]

theorem isCertified_of_capBit (c : Caps) {p : CapPair} {k : Nat} (h : capBit s = some (p, k)) :
    isCertified c (some s) = (certByte c p).getLsbD k := by
  simp [isCertified, h]

end

/-! ### Bits after `add` (40_speed_caps.md R107) -/

theorem getLsbD_withBit (b : Byte) {k : Nat} (hk : k < 8) (j : Nat) :
    (withBit b k).getLsbD j = (b.getLsbD j || decide (k = j)) := by
  simp [withBit, BitVec.getLsbD_twoPow, hk]

theorem getLsbD_supByte_addSupport (c : Caps) (p : CapPair) {k : Nat} (hk : k < 8) (q : CapPair) (j : Nat) :
    (supByte (addSupport c p k) q).getLsbD j = ((supByte c q).getLsbD j || decide ((p, k) = (q, j))) := by
  rw [supByte_addSupport]
  split
  next hpair => simp [getLsbD_withBit _ hk, hpair]
  next hpair => simp [Ne.symm hpair]

theorem getLsbD_certByte_addCert (c : Caps) (p : CapPair) {k : Nat} (hk : k < 8) (q : CapPair) (j : Nat) :
    (certByte (addCert c p k) q).getLsbD j = ((certByte c q).getLsbD j || decide ((p, k) = (q, j))) := by
  rw [certByte_addCert]
  split
  next hpair => simp [getLsbD_withBit _ hk, hpair]
  next hpair => simp [Ne.symm hpair]

/-- The support bits after `add`: those before, and the speed's own. -/
theorem getLsbD_supByte_addCap (c : Caps) (s : Speed) (cert : Bool) (p : CapPair) (k : Nat) :
    (supByte (addCap c s cert) p).getLsbD k = ((supByte c p).getLsbD k || decide (capBit s = some (p, k))) := by
  unfold addCap
  split
  next hbit => simp [hbit]
  next hbit =>
    have hlt := bit_lt_of_capBit hbit
    cases cert <;> simp [hbit, supByte_addCert, getLsbD_supByte_addSupport c _ hlt]

/-- The certification bits after `add`: those before, and the speed's own where asked. -/
theorem getLsbD_certByte_addCap (c : Caps) (s : Speed) (cert : Bool) (p : CapPair) (k : Nat) :
    (certByte (addCap c s cert) p).getLsbD k =
      ((certByte c p).getLsbD k || (cert && decide (capBit s = some (p, k)))) := by
  unfold addCap
  split
  next hbit => simp [hbit]
  next hbit =>
    have hlt := bit_lt_of_capBit hbit
    cases cert <;> simp [hbit, certByte_addSupport, getLsbD_certByte_addCert _ _ hlt]

/-! ### Queries after `add` -/

theorem has_addCap (c : Caps) (s v : Speed) (cert : Bool) :
    has (addCap c s cert) (some v) = (has c (some v) || decide (v = s)) := by
  cases hbit : capBit v with
  | none => simp [has_of_capBit_none _ hbit]
  | some b =>
    rw [has_of_capBit _ hbit, has_of_capBit _ hbit, getLsbD_supByte_addCap]
    simp only [Prod.mk.eta, capBit_eq_iff_of_capBit hbit]

theorem isCertified_addCap (c : Caps) (s v : Speed) (cert : Bool) :
    isCertified (addCap c s cert) (some v) = (isCertified c (some v) || (cert && decide (v = s))) := by
  cases hbit : capBit v with
  | none => simp [isCertified_of_capBit_none _ hbit]
  | some b =>
    rw [isCertified_of_capBit _ hbit, isCertified_of_capBit _ hbit, getLsbD_certByte_addCap]
    simp only [Prod.mk.eta, capBit_eq_iff_of_capBit hbit]

/-- A capability set is its support bits and its certification bits. -/
theorem caps_eq_of_getLsbD_eq {c d : Caps} (hsup : ∀ p k, (supByte c p).getLsbD k = (supByte d p).getLsbD k)
    (hcert : ∀ p k, (certByte c p).getLsbD k = (certByte d p).getLsbD k) : c = d := by
  have hs : ∀ p, supByte c p = supByte d p := fun p => BitVec.eq_of_getLsbD_eq fun k _ => hsup p k
  have hc : ∀ p, certByte c p = certByte d p := fun p => BitVec.eq_of_getLsbD_eq fun k _ => hcert p k
  calc c = ⟨supByte c .first, supByte c .second, certByte c .first, certByte c .second⟩ := rfl
    _ = ⟨supByte d .first, supByte d .second, certByte d .first, certByte d .second⟩ := by simp only [hs, hc]
    _ = d := rfl

theorem addCap_idem (c : Caps) (s : Speed) (x : Bool) : addCap (addCap c s x) s x = addCap c s x := by
  apply caps_eq_of_getLsbD_eq
  · simp [getLsbD_supByte_addCap]
  · simp [getLsbD_certByte_addCap]

theorem addCap_comm (c : Caps) (s t : Speed) (x y : Bool) :
    addCap (addCap c s x) t y = addCap (addCap c t y) s x := by
  apply caps_eq_of_getLsbD_eq
  · simp only [getLsbD_supByte_addCap, Bool.or_right_comm, implies_true]
  · simp only [getLsbD_certByte_addCap, Bool.or_right_comm, implies_true]

/-! ### The obligations -/

/-- Settles O8: the tables are evaluated, and the lookups are read off `speedOfId_eq_some_iff`. -/
theorem speedTableValues : Obligations.SpeedTableValues := by
  unfold Obligations.SpeedTableValues
  refine ⟨rfl, mem_allSpeeds, fun b s => speedOfId_eq_some_iff b.toNat s, fun s t => ?_⟩
  exact (speedOfId_eq_some_iff (idFor s + 1) t).trans eq_comm

/-- Settles O9: the bit that a query reads is the one that `capBit_eq` gives for the speed's id. -/
theorem capabilityQueriesReadTheirBit : Obligations.CapabilityQueriesReadTheirBit := by
  unfold Obligations.CapabilityQueriesReadTheirBit
  intro c s
  refine ⟨rfl, rfl, ?_⟩
  have hbit := capBit_eq s
  split_ifs at hbit ⊢
  · exact ⟨has_of_capBit_none c hbit, isCertified_of_capBit_none c hbit⟩
  · exact ⟨has_of_capBit c hbit, isCertified_of_capBit c hbit⟩
  · exact ⟨has_of_capBit c hbit, isCertified_of_capBit c hbit⟩

/-- Settles O10: the bit laws of `add` at the four bytes, with the speed's own bit read off its id. -/
theorem addSetsOnlyItsOwnBits : Obligations.AddSetsOnlyItsOwnBits := by
  unfold Obligations.AddSetsOnlyItsOwnBits
  intro c s cert k _
  have hfirst : decide (capBit s = some (.first, k)) = (decide (2 ≤ idFor s ∧ idFor s ≤ 8) && k == idFor s - 2) := by
    simp only [capBit_eq_first_iff, Bool.decide_and, beq_eq_decide]
  have hsecond : decide (capBit s = some (.second, k)) = (decide (9 ≤ idFor s) && k == idFor s - 9) := by
    simp only [capBit_eq_second_iff, Bool.decide_and, beq_eq_decide]
  rw [Bool.and_assoc, Bool.and_assoc, ← hfirst, ← hsecond]
  exact ⟨getLsbD_supByte_addCap c s cert .first k, getLsbD_supByte_addCap c s cert .second k,
    getLsbD_certByte_addCap c s cert .first k, getLsbD_certByte_addCap c s cert .second k⟩

/-- Settles O11: the laws of `add` follow from what it does to each bit and to each query. -/
theorem capabilitySetLaws : Obligations.CapabilitySetLaws := by
  unfold Obligations.CapabilitySetLaws
  refine ⟨fun _ => rfl, fun c s x => ?hasAdded, fun c s => ?certifiedAdded, addCap_idem, addCap_comm,
    fun c s x hinv v hcert => ?invariant, fun c d s p k hbit => ⟨fun hsup => ?hasReads, fun hcert => ?certifiedReads⟩⟩
  case hasAdded => simp [has_addCap]
  case certifiedAdded => simp [isCertified_addCap]
  case invariant =>
    rw [isCertified_addCap, Bool.or_eq_true] at hcert
    rw [has_addCap, Bool.or_eq_true]
    exact hcert.imp (hinv v) fun hadded => ((Bool.and_eq_true _ _).mp hadded).2
  case hasReads => rw [has_of_capBit c hbit, has_of_capBit d hbit, hsup]
  case certifiedReads => rw [isCertified_of_capBit c hbit, isCertified_of_capBit d hbit, hcert]

end Sys2Proof.Machine
end

section
/-! PROOF. The codec said once in each direction (41_codec.md): what each check asks, acceptance as the four checks, and an
accepted frame as the built frame of its command and payload; an instruction and its encoding name each other. -/

namespace Sys2Proof

/-! ### The four checks (41_codec.md R122 to R125) and the payload (R126) -/

theorem checkDelimiters_iff (f : List Byte) :
    checkDelimiters f = true ↔ 2 ≤ f.length ∧ f[0]? = some 0xF0 ∧ f[f.length - 1]? = some 0xF7 := by
  simp [checkDelimiters, List.head?_eq_getElem?, List.getLast?_eq_getElem?, and_assoc]

theorem checkManufacturer_iff (f : List Byte) :
    checkManufacturer f = true ↔ 6 ≤ f.length ∧ (f.drop 1).take 5 = [0x00, 0x20, 0x3C, 0x00, 0x00] := by
  simp [checkManufacturer, manufacturer]

theorem commandOf_eq_some_iff (b : Byte) (c : Command) : commandOf b = some c ↔ b = commandCode c :=
  ⟨commandCode_of_commandOf, fun h => h ▸ commandOf_commandCode c⟩

theorem checkCommand_eq_some_iff (f : List Byte) (c : Command) :
    checkCommand f = some c ↔ f[6]? = some (commandCode c) := by
  simp [checkCommand, Option.bind_eq_some_iff, commandOf_eq_some_iff]

theorem checkLength_iff (c : Command) (f : List Byte) : checkLength c f = true ↔ f.length = 8 + payloadLength c :=
  beq_iff_eq

theorem framePayload_eq_take (f : List Byte) : framePayload f = (f.drop 7).take (f.length - 8) := by
  rw [framePayload, List.dropLast_eq_take, List.length_drop, Nat.sub_sub]

/-! ### Acceptance -/

/-- Acceptance is the four checks, and then the instruction of the command and the payload. -/
theorem decodeFrame_eq_accept_iff (f : List Byte) (i : Instr) :
    decodeFrame f = .accept i ↔ checkDelimiters f = true ∧ checkManufacturer f = true ∧
      ∃ c, checkCommand f = some c ∧ checkLength c f = true ∧ frameInstr c (framePayload f) = some i := by
  unfold decodeFrame
  cases checkDelimiters f with
  | false => simp
  | true =>
    cases checkManufacturer f with
    | false => simp
    | true =>
      cases checkCommand f with
      | none => simp
      | some c =>
        cases hlen : checkLength c f with
        | false => simp [hlen]
        | true => cases hinstr : frameInstr c (framePayload f) <;> simp [hlen, hinstr]

/-- A byte list with the fixed bytes of a frame is the built frame of its command and its payload (R121). -/
theorem eq_frameBytes_of_fixed_bytes {f : List Byte} {c : Command} (hlen : 8 ≤ f.length) (hfirst : f[0]? = some 0xF0)
    (hmfg : (f.drop 1).take 5 = manufacturer) (hcmd : f[6]? = some (commandCode c))
    (hlast : f[f.length - 1]? = some 0xF7) : f = frameBytes c (framePayload f) := by
  match f with
  | a :: m1 :: m2 :: m3 :: m4 :: m5 :: k :: x :: rest =>
    have ha : a = 0xF0 := Option.some.inj hfirst
    have hm : [m1, m2, m3, m4, m5] = manufacturer := hmfg
    have hk : k = commandCode c := Option.some.inj hcmd
    have hend : (x :: rest).dropLast ++ [0xF7] = x :: rest :=
      List.dropLast_append_getLast? 0xF7 (by simpa [List.getLast?_eq_getElem?] using hlast)
    calc a :: m1 :: m2 :: m3 :: m4 :: m5 :: k :: x :: rest
        = [a] ++ [m1, m2, m3, m4, m5] ++ [k] ++ (x :: rest) := rfl
      _ = [0xF0] ++ manufacturer ++ [commandCode c] ++ ((x :: rest).dropLast ++ [0xF7]) := by rw [ha, hm, hk, hend]
      _ = frameBytes c (x :: rest).dropLast := (List.append_assoc _ _ _).symm

/-- The accepted byte lists are the built frames of a command and a payload of its length. -/
theorem decodeFrame_eq_accept_iff_built (f : List Byte) (i : Instr) :
    decodeFrame f = .accept i ↔
      ∃ c p, f = frameBytes c p ∧ p.length = payloadLength c ∧ frameInstr c p = some i := by
  constructor
  · intro h
    obtain ⟨hdelims, hmfg, c, hcmd, hlen, hinstr⟩ := (decodeFrame_eq_accept_iff f i).mp h
    obtain ⟨-, hfirst, hlast⟩ := (checkDelimiters_iff f).mp hdelims
    have hlen : f.length = 8 + payloadLength c := (checkLength_iff c f).mp hlen
    have hbuilt : f = frameBytes c (framePayload f) :=
      eq_frameBytes_of_fixed_bytes (by omega) hfirst ((checkManufacturer_iff f).mp hmfg).2
        ((checkCommand_eq_some_iff f c).mp hcmd) hlast
    have hpayload : f.length = 8 + (framePayload f).length := by
      rw [hbuilt, frameBytes_length, framePayload_frameBytes]
    exact ⟨c, framePayload f, hbuilt, by omega, hinstr⟩
  · rintro ⟨c, p, rfl, hlen, hinstr⟩
    exact decodeFrame_frameBytes hlen hinstr

/-! ### An instruction's own encoding decodes to it -/

/-- Encoded as a frame, a well-formed instruction is that of the frame's command and payload. -/
theorem encode_frame_built {i : Instr} {f : List Byte} (hwf : wellFormed i = true) (h : encode i = .frame f) :
    ∃ c p, f = frameBytes c p ∧ p.length = payloadLength c ∧ frameInstr c p = some i := by
  cases i <;> cases h
  case speedTest => exact ⟨_, _, rfl, beq_iff_eq.mp hwf, rfl⟩
  case speedResult => exact ⟨_, _, rfl, beq_iff_eq.mp hwf, rfl⟩
  all_goals exact ⟨_, _, rfl, rfl, rfl⟩

theorem plainByte_iff (b : Byte) : plainByte b = true ↔ b ≠ 0xF0 ∧ b ≠ 0xF7 ∧ b ≠ 0xFE := by
  simp only [plainByte, Bool.and_eq_true, bne_iff_ne, and_assoc]

theorem decodeByte_of_plainByte {b : Byte} (h : plainByte b = true) : decodeByte b = .rxByte b := by
  obtain ⟨hF0, hF7, hFE⟩ := (plainByte_iff b).mp h
  rw [decodeByte, if_neg hF0, if_neg hF7, if_neg hFE]

theorem decodeByte_of_encode {i : Instr} {b : Byte} (hwf : wellFormed i = true) (h : encode i = .byte b) :
    decodeByte b = i := by
  cases i <;> cases h
  case rxByte => exact decodeByte_of_plainByte hwf
  all_goals rfl

theorem decodeCommand_of_encode {i : Instr} {w : CmdWord} (h : encode i = .command w) : decodeCommand w = i := by
  cases i <;> cases h
  case setSupported v cert => exact decodeCommand_setSupported v cert 0
  case negotiate v n => exact decodeCommand_negotiate v false n
  case push v => exact decodeCommand_push v false 0
  all_goals rfl

/-- A received byte's row is well formed, and encodes back to the byte. -/
theorem encode_decodeByte (b : Byte) : wellFormed (decodeByte b) = true ∧ encode (decodeByte b) = .byte b := by
  unfold decodeByte
  split
  case isTrue hF0 => exact ⟨rfl, congrArg Encoded.byte hF0.symm⟩
  split
  case isTrue hF7 => exact ⟨rfl, congrArg Encoded.byte hF7.symm⟩
  split
  case isTrue hFE => exact ⟨rfl, congrArg Encoded.byte hFE.symm⟩
  case isFalse hF0 hF7 hFE => exact ⟨(plainByte_iff b).mpr ⟨hF0, hF7, hFE⟩, rfl⟩

end Sys2Proof
end

section
/-! PROOF. The codec (41_codec.md R120 to R126): encoding and decoding undo each other, and what is accepted. -/

namespace Sys2Proof.Machine

/-- Settles O1, by the format of the encoding: a built frame, a byte of its row, or a built command word. -/
theorem decodeOfEncodeGivesTheInstruction : Obligations.DecodeOfEncodeGivesTheInstruction := by
  unfold Obligations.DecodeOfEncodeGivesTheInstruction
  intro i hwf
  cases hcode : encode i with
  | frame f => exact (decodeFrame_eq_accept_iff_built f i).mpr (encode_frame_built hwf hcode)
  | byte b => exact congrArg Decoded.accept (decodeByte_of_encode hwf hcode)
  | command w => exact congrArg Decoded.accept (decodeCommand_of_encode hcode)

/-- Settles O2: an accepted frame is a built one, and the encoder builds the same. -/
theorem decodedInputIsItsEncoding : Obligations.DecodedInputIsItsEncoding := by
  unfold Obligations.DecodedInputIsItsEncoding
  refine ⟨fun f i haccept => ?_, encode_decodeByte⟩
  obtain ⟨c, p, rfl, hlen, hinstr⟩ := (decodeFrame_eq_accept_iff_built f i).mp haccept
  exact encode_of_frameInstr hinstr hlen

/-- Settles O3, a check at a time. -/
theorem codecAcceptsExactlyTheFourChecks : Obligations.CodecAcceptsExactlyTheFourChecks := by
  unfold Obligations.CodecAcceptsExactlyTheFourChecks
  intro f i
  simp only [decodeFrame_eq_accept_iff, checkDelimiters_iff, checkManufacturer_iff, checkCommand_eq_some_iff,
    checkLength_iff, framePayload_eq_take]

/-- Settles O4: the fixed bytes stand where `frameBytes` puts them. -/
theorem builtFramesPassTheCodec : Obligations.BuiltFramesPassTheCodec := by
  unfold Obligations.BuiltFramesPassTheCodec
  intro c p hlen
  obtain ⟨i, hinstr⟩ := frameInstr_isSome c p hlen
  have hlength : (frameBytes c p).length = 8 + payloadLength c := by rw [frameBytes_length, hlen]
  exact ⟨rfl, rfl, rfl, frameBytes_getLast? c p, hlength, i, hinstr, decodeFrame_frameBytes hlen hinstr⟩

end Sys2Proof.Machine
end

section
/-! PROOF. Frames fed a byte at a time (42_reassembler.md R140 to R145): what each byte does to the frame in progress, which
`withFrameBody` writes as the bytes received so far, and what a run of bytes does in the end. -/

namespace Sys2Proof.Machine

/-! ### The frame in progress -/

@[simp] theorem withFrameBody_cfg (got : List Byte) (s : State) : (withFrameBody got s).cfg = s.cfg := rfl
@[simp] theorem withFrameBody_rxLen (got : List Byte) (s : State) : (withFrameBody got s).rxLen = got.length := rfl
@[simp] theorem withFrameBody_rxBuf (got : List Byte) (s : State) :
    (withFrameBody got s).rxBuf = got ++ s.rxBuf.drop got.length := rfl

@[simp] theorem stampRx_stampRx (s : State) : stampRx (stampRx s) = stampRx s := rfl

theorem stampRx_withFrameBody (got : List Byte) (s : State) :
    stampRx (withFrameBody got s) = withFrameBody got (stampRx s) := rfl

@[simp] theorem candidate_withFrameBody (got : List Byte) (s : State) : candidate (withFrameBody got s) = got :=
  List.take_left

theorem startFrame_eq_withFrameBody {s : State} (h : 0 < s.rxBuf.length) :
    startFrame s = withFrameBody [0xF0] s := by
  have hbuf : s.rxBuf.set 0 0xF0 = [0xF0] ++ s.rxBuf.drop 1 := by
    rw [List.set_eq_take_append_cons_drop, if_pos h]
    rfl
  rw [startFrame, hbuf]
  rfl

theorem storeByte_withFrameBody (b : Byte) {got : List Byte} {s : State} (hroom : got.length < s.rxBuf.length) :
    storeByte b (withFrameBody got s) = withFrameBody (got ++ [b]) s := by
  have hbuf : (got ++ s.rxBuf.drop got.length).set got.length b = got ++ [b] ++ s.rxBuf.drop (got ++ [b]).length := by
    rw [List.set_append_right _ _ (Nat.le_refl _), Nat.sub_self, List.drop_eq_getElem_cons hroom, List.set_cons_zero,
      List.length_append, List.append_assoc]
    rfl
  simp only [storeByte, withFrameBody_rxBuf, withFrameBody_rxLen, hbuf]
  simp [withFrameBody]

/-! ### One received byte -/

theorem exec_decodeByte_F7 (s : State) : exec (decodeByte 0xF7) s = execRxF7 s := rfl

/-- A byte that is no delimiter is stored, ignored or an overflow, FE as any other (R142, R144 to R146). -/
theorem exec_decodeByte_of_body {b : Byte} (hF0 : b ≠ 0xF0) (hF7 : b ≠ 0xF7) (s : State) :
    exec (decodeByte b) s = .next (storeOrDrop b (stampRx s)) := by
  rw [decodeByte, if_neg hF0, if_neg hF7]
  split
  case isTrue hFE => rw [hFE]; rfl
  case isFalse => rfl

/-- Outside a frame every byte but F0 is ignored (R144). -/
theorem exec_decodeByte_of_outside {b : Byte} {s : State} (hF0 : b ≠ 0xF0) (hout : s.rxLen = 0) :
    exec (decodeByte b) s = .next (stampRx s) := by
  by_cases hF7 : b = 0xF7
  · rw [hF7, exec_decodeByte_F7, execRxF7, if_pos hout]
  · rw [exec_decodeByte_of_body hF0 hF7, storeOrDrop, stampRx_rxLen, if_pos hout]

/-- At a full buffer every byte but F0 is an overflow (R145). -/
theorem exec_decodeByte_of_full {b : Byte} {s : State} (hF0 : b ≠ 0xF0) (hin : s.rxLen ≠ 0)
    (hfull : s.rxLen = s.cfg.rxBufCap) : exec (decodeByte b) s = .next (leaveFrame (stampRx s)) := by
  by_cases hF7 : b = 0xF7
  · rw [hF7, exec_decodeByte_F7, execRxF7, if_neg hin, if_pos hfull]
  · rw [exec_decodeByte_of_body hF0 hF7, storeOrDrop, stampRx_rxLen, stampRx_cfg, if_neg hin, if_pos hfull]

theorem endFrame_of_reject {s : State} {why : FrameError}
    (h : decodeFrame (candidate (storeByte 0xF7 s)) = .reject why) :
    endFrame s = .next (leaveFrame (storeByte 0xF7 s)) := by
  rw [endFrame, h]

/-! ### A run of bytes -/

theorem feedBytes_append (xs ys : List Byte) (s : State) :
    feedBytes (xs ++ ys) s = andThen (feedBytes xs s) (feedBytes ys) := by
  induction xs generalizing s with
  | nil => rfl
  | cons b rest ih =>
    simp only [List.cons_append, feedBytes, andThen_assoc]
    exact congrArg (andThen _) (funext ih)

theorem feedBytes_of_outside {bs : List Byte} {s : State} (hbs : ∀ b ∈ bs, b ≠ 0xF0) (hout : s.rxLen = 0) :
    feedBytes bs (stampRx s) = .next (stampRx s) := by
  induction bs with
  | nil => rfl
  | cons b rest ih =>
    rw [feedBytes, exec_decodeByte_of_outside (s := stampRx s) (hbs b List.mem_cons_self) hout, andThen_next, stampRx_stampRx]
    exact ih fun x hx => hbs x (List.mem_cons_of_mem b hx)

theorem feedBytes_F0 {s : State} (hroom : 0 < s.rxBuf.length) :
    feedBytes [0xF0] s = .next (withFrameBody [0xF0] (stampRx s)) :=
  congrArg Host.Outcome.next (startFrame_eq_withFrameBody (s := stampRx s) hroom)

/-- At a full buffer the next byte drops the frame, and what follows outside a frame is ignored (R144, R145). -/
theorem feedBytes_of_full {bs got : List Byte} {s : State} (hbs : ∀ b ∈ bs, b ≠ 0xF0) (hne : bs ≠ []) (hin : got ≠ [])
    (hfull : got.length = s.cfg.rxBufCap) :
    feedBytes bs (withFrameBody got (stampRx s)) = .next (leaveFrame (withFrameBody got (stampRx s))) := by
  cases bs with
  | nil => contradiction
  | cons b rest =>
    have hlen : got.length ≠ 0 := mt List.length_eq_zero_iff.mp hin
    rw [feedBytes, exec_decodeByte_of_full (hbs b List.mem_cons_self) hlen hfull, andThen_next]
    exact feedBytes_of_outside (s := leaveFrame (withFrameBody got (stampRx s)))
      (fun x hx => hbs x (List.mem_cons_of_mem b hx)) rfl

section
variable {s : State} (hcap : s.rxBuf.length = s.cfg.rxBufCap)
include hcap

/-- Bytes that are no delimiters and fit in the buffer are appended to the frame in progress (R142). -/
theorem feedBytes_of_fits {bs got : List Byte} (hbs : ∀ b ∈ bs, b ≠ 0xF0 ∧ b ≠ 0xF7) (hin : got ≠ [])
    (hfits : got.length + bs.length ≤ s.cfg.rxBufCap) :
    feedBytes bs (withFrameBody got (stampRx s)) = .next (withFrameBody (got ++ bs) (stampRx s)) := by
  induction bs generalizing got with
  | nil => rw [List.append_nil, feedBytes]
  | cons b rest ih =>
    obtain ⟨hF0, hF7⟩ := hbs b List.mem_cons_self
    have hlen : got.length ≠ 0 := mt List.length_eq_zero_iff.mp hin
    rw [List.length_cons] at hfits
    have hstore : exec (decodeByte b) (withFrameBody got (stampRx s)) = .next (withFrameBody (got ++ [b]) (stampRx s)) := by
      rw [exec_decodeByte_of_body hF0 hF7, stampRx_withFrameBody, stampRx_stampRx, storeOrDrop, withFrameBody_rxLen,
        if_neg hlen, withFrameBody_cfg, stampRx_cfg, if_neg (by omega),
        storeByte_withFrameBody b (by rw [stampRx_rxBuf]; omega)]
    rw [feedBytes, hstore, andThen_next, ih (fun x hx => hbs x (List.mem_cons_of_mem b hx)) (by simp)
      (by rw [List.length_append, List.length_singleton]; omega), List.append_assoc, List.singleton_append]

/-- A frame's F0 and body, where they fit, are the frame in progress. -/
theorem feedBytes_start {body : List Byte} (hbody : ∀ b ∈ body, b ≠ 0xF0 ∧ b ≠ 0xF7)
    (hfits : 1 + body.length ≤ s.cfg.rxBufCap) :
    feedBytes ([0xF0] ++ body) s = .next (withFrameBody ([0xF0] ++ body) (stampRx s)) := by
  rw [feedBytes_append, feedBytes_F0 (by omega), andThen_next]
  exact feedBytes_of_fits hcap hbody (List.cons_ne_nil _ _) hfits

/-- A frame that goes on when the buffer is full is dropped there (R145; 60_exceptions.md R252). -/
theorem feedBytes_of_overflow {body more : List Byte} (hbody : ∀ b ∈ body, b ≠ 0xF0 ∧ b ≠ 0xF7)
    (hfull : 1 + body.length = s.cfg.rxBufCap) (hmore : ∀ b ∈ more, b ≠ 0xF0) (hne : more ≠ []) :
    feedBytes ([0xF0] ++ body ++ more) s = .next (leaveFrame (withFrameBody ([0xF0] ++ body) (stampRx s))) := by
  rw [feedBytes_append, feedBytes_start hcap hbody hfull.le, andThen_next]
  exact feedBytes_of_full hmore hne (List.cons_ne_nil _ _) (by rw [List.length_append, List.length_singleton, hfull])

/-- F7 ends a frame in progress where it still fits; if the codec rejects the frame, nothing more happens (R143;
41_codec.md R127). -/
theorem feedBytes_F7_of_reject {got : List Byte} {why : FrameError} (hin : got ≠ []) (hroom : got.length < s.cfg.rxBufCap)
    (hreject : decodeFrame (got ++ [0xF7]) = .reject why) :
    feedBytes [0xF7] (withFrameBody got (stampRx s)) = .next (leaveFrame (withFrameBody (got ++ [0xF7]) (stampRx s))) := by
  have hlen : got.length ≠ 0 := mt List.length_eq_zero_iff.mp hin
  have hstore : storeByte 0xF7 (withFrameBody got (stampRx s)) = withFrameBody (got ++ [0xF7]) (stampRx s) :=
    storeByte_withFrameBody _ (by rw [stampRx_rxBuf]; omega)
  have hend : execRxF7 (withFrameBody got (stampRx s)) = endFrame (withFrameBody got (stampRx s)) := by
    rw [execRxF7, withFrameBody_rxLen, if_neg hlen, withFrameBody_cfg, stampRx_cfg, if_neg (by omega),
      stampRx_withFrameBody, stampRx_stampRx]
  rw [feedBytes, exec_decodeByte_F7, hend, endFrame_of_reject (by rw [hstore, candidate_withFrameBody, hreject]), hstore]
  rfl

/-- A whole frame that fits and is rejected is dropped at its F7 (60_exceptions.md R251). -/
theorem feedBytes_of_reject {body : List Byte} {why : FrameError} (hbody : ∀ b ∈ body, b ≠ 0xF0 ∧ b ≠ 0xF7)
    (hfits : body.length + 2 ≤ s.cfg.rxBufCap) (hreject : decodeFrame ([0xF0] ++ body ++ [0xF7]) = .reject why) :
    feedBytes ([0xF0] ++ body ++ [0xF7]) s =
      .next (leaveFrame (withFrameBody ([0xF0] ++ body ++ [0xF7]) (stampRx s))) := by
  rw [feedBytes_append, feedBytes_start hcap hbody (by omega), andThen_next]
  exact feedBytes_F7_of_reject hcap (List.cons_ne_nil _ _) (by rw [List.length_append, List.length_singleton]; omega)
    hreject

/-- A bad frame leaves the reassembler outside a frame, with what it kept of the bytes in the buffer. -/
theorem feedBytes_of_bad_frame {body : List Byte} (hbody : ∀ b ∈ body, b ≠ 0xF0 ∧ b ≠ 0xF7)
    (hbad : s.cfg.rxBufCap < body.length + 2 ∨ ∃ why, decodeFrame ([0xF0] ++ body ++ [0xF7]) = .reject why)
    (hmin : 2 ≤ s.cfg.rxBufCap) :
    ∃ kept : List Byte, kept.length ≤ s.rxBuf.length ∧
      feedBytes ([0xF0] ++ body ++ [0xF7]) s = .next (leaveFrame (withFrameBody kept (stampRx s))) := by
  rcases Nat.lt_or_ge s.cfg.rxBufCap (body.length + 2) with hlong | hfits
  · obtain ⟨xs, ys, rfl, hxs⟩ : ∃ xs ys, body = xs ++ ys ∧ 1 + xs.length = s.cfg.rxBufCap :=
      ⟨body.take (s.cfg.rxBufCap - 1), body.drop (s.cfg.rxBufCap - 1), (List.take_append_drop _ _).symm, by
        rw [List.length_take]; omega⟩
    obtain ⟨hbodyFits, hbodyMore⟩ := List.forall_mem_append.mp hbody
    have hmore : ∀ b ∈ ys ++ [0xF7], b ≠ 0xF0 :=
      List.forall_mem_append.mpr ⟨fun b hb => (hbodyMore b hb).1, List.forall_mem_singleton.mpr (by decide)⟩
    refine ⟨[0xF0] ++ xs, by rw [List.length_append, List.length_singleton]; omega, ?_⟩
    have h := feedBytes_of_overflow hcap hbodyFits hxs hmore (by simp)
    rwa [← List.append_assoc, List.append_assoc [0xF0]] at h
  · obtain ⟨why, hreject⟩ := hbad.resolve_left (by omega)
    refine ⟨[0xF0] ++ body ++ [0xF7], ?_, feedBytes_of_reject hcap hbody hfits hreject⟩
    simp only [List.length_append, List.length_singleton]
    omega

end

end Sys2Proof.Machine
end

section
/-! PROOF. Errors of reception are silent (60_exceptions.md R251, R252). -/

namespace Sys2Proof.Machine

/-- Settles O18: the bytes that a bad frame leaves in the buffer are its only other trace, as `rx_len` was 0 before. -/
theorem badFrameLeavesOnlyTheTimestamp : Obligations.BadFrameLeavesOnlyTheTimestamp := by
  unfold Obligations.BadFrameLeavesOnlyTheTimestamp
  intro body s hbody hbad hmin hcap hout
  obtain ⟨kept, hkept, hfeed⟩ := feedBytes_of_bad_frame hcap hbody hbad hmin
  refine ⟨kept ++ s.rxBuf.drop kept.length, ?_, ?_⟩
  · rw [List.length_append, List.length_drop]
    omega
  · rw [hfeed, hout]
    rfl

end Sys2Proof.Machine
end

section
/-! PROOF. The received bytes, one class at a time (42_reassembler.md R140 to R147): what F0 and a body byte do, and F7 outside
a frame, at a full buffer, and inside a frame, where the decoded candidate runs. -/

namespace Sys2Proof.Machine

/-! ### What the codec's answer runs -/

/-- What the end of a frame does with the codec's answer: dispatch, or drop silently (R143, R147; 41_codec.md R127). -/
def runDecoded (d : Decoded) (s : State) : Result :=
  match d with
  | .accept i => dispatchFrame i s
  | .reject _ => .next s

theorem runDecoded_next (d : Decoded) (s : State) : ∃ t, runDecoded d s = .next t := by
  cases d with
  | accept i =>
    obtain ⟨t, ht, -⟩ := dispatchFrame_effect i s
    exact ⟨t, ht⟩
  | reject why => exact ⟨s, rfl⟩

/-- The codec accepts frame instructions only, so what it accepts is dispatched as `exec` runs it. -/
theorem runDecoded_of_accept {f : List Byte} {i : Instr} (h : decodeFrame f = .accept i) (s : State) :
    runDecoded (decodeFrame f) s = exec i s := by
  obtain ⟨c, p, -, hlen, hinstr⟩ := (decodeFrame_eq_accept_iff_built f i).mp h
  obtain ⟨-, hencode⟩ := encode_of_frameInstr hinstr hlen
  rw [h, exec_eq_dispatchFrame hencode]
  rfl

/-! ### F7 -/

/-- The frame that F7 closes is the bytes before it and F7 itself (R143). -/
theorem endFrame_eq_runDecoded {s : State} (hroom : s.rxLen < s.rxBuf.length) :
    endFrame s = runDecoded (decodeFrame (candidate s ++ [0xF7])) (leaveFrame (storeByte 0xF7 s)) := by
  rw [endFrame, candidate_storeByte 0xF7 s hroom]
  cases decodeFrame (candidate s ++ [0xF7]) <;> rfl

theorem execRxF7_of_outside {s : State} (hout : s.rxLen = 0) : execRxF7 s = .next (stampRx s) := if_pos hout

theorem execRxF7_of_full {s : State} (hin : s.rxLen ≠ 0) (hfull : s.rxLen = s.cfg.rxBufCap) :
    execRxF7 s = .next (leaveFrame (stampRx s)) := by
  rw [execRxF7, if_neg hin, if_pos hfull]

theorem execRxF7_of_room {s : State} (hin : s.rxLen ≠ 0) (hroom : s.rxLen < s.cfg.rxBufCap)
    (hcap : s.rxBuf.length = s.cfg.rxBufCap) :
    execRxF7 s = runDecoded (decodeFrame (candidate s ++ [0xF7])) (leaveFrame (storeByte 0xF7 (stampRx s))) := by
  rw [execRxF7, if_neg hin, if_neg hroom.ne]
  exact endFrame_eq_runDecoded (s := stampRx s) (hroom.trans_eq hcap.symm)

/-! ### The obligations -/

/-- Settles O13. -/
theorem startByteStartsAFrame : Obligations.StartByteStartsAFrame := by
  unfold Obligations.StartByteStartsAFrame
  intro s
  rfl

/-- Settles O14: both rows are `storeOrDrop`, which has three branches. -/
theorem bodyByteIsStoredIgnoredOrOverflows : Obligations.BodyByteIsStoredIgnoredOrOverflows := by
  unfold Obligations.BodyByteIsStoredIgnoredOrOverflows
  intro b i s hi
  have hexec : exec i s = .next (storeOrDrop b (stampRx s)) := by
    rcases hi with rfl | ⟨rfl, rfl⟩ <;> rfl
  rw [hexec]
  rcases storeOrDrop_cases b (stampRx s) with ⟨hout, h⟩ | ⟨hin, hfull, h⟩ | ⟨hin, hroom, h⟩
  · rw [h]
    exact (if_pos hout).symm
  · rw [h]
    exact ((if_neg hin).trans (if_pos hfull)).symm
  · rw [h]
    exact ((if_neg hin).trans (if_neg hroom)).symm

/-- Settles O15. -/
theorem endByteOutsideAFrameOrAtAFullBuffer : Obligations.EndByteOutsideAFrameOrAtAFullBuffer := by
  unfold Obligations.EndByteOutsideAFrameOrAtAFullBuffer
  exact fun s => ⟨execRxF7_of_outside, execRxF7_of_full⟩

/-- Settles O16: the reassembler leaves the frame first, then the codec's answer runs. -/
theorem endByteRunsTheDecodedFrame : Obligations.EndByteRunsTheDecodedFrame := by
  unfold Obligations.EndByteRunsTheDecodedFrame
  intro s hin hroom hcap
  have hrun : exec .rxF7 s = _ := execRxF7_of_room hin hroom hcap
  split
  case h_1 i haccept =>
    obtain ⟨t, ht⟩ := runDecoded_next (decodeFrame (candidate s ++ [0xF7])) (leaveFrame (storeByte 0xF7 (stampRx s)))
    exact ⟨t, (runDecoded_of_accept haccept _).symm.trans ht, hrun.trans ht⟩
  case h_2 why hreject => exact hrun.trans (congrArg (runDecoded · _) hreject)

end Sys2Proof.Machine
end

section
/-! PROOF. A frame fed a byte at a time (42_reassembler.md R141 to R143, R147): its F0 and body are stored, and its F7 runs
the instruction that the codec reads back from what was stored. -/

namespace Sys2Proof.Machine

theorem feedBytes_singleton (b : Byte) (s : State) : feedBytes [b] s = exec (decodeByte b) s := by
  rw [feedBytes]
  cases exec (decodeByte b) s <;> rfl

/-- F7 after the bytes of a frame in progress, where it still fits. -/
theorem feedBytes_F7_of_room {got : List Byte} {s : State} (hcap : s.rxBuf.length = s.cfg.rxBufCap) (hin : got ≠ [])
    (hroom : got.length < s.cfg.rxBufCap) :
    feedBytes [0xF7] (withFrameBody got (stampRx s)) =
      runDecoded (decodeFrame (got ++ [0xF7])) (leaveFrame (withFrameBody (got ++ [0xF7]) (stampRx s))) := by
  have hstore : storeByte 0xF7 (withFrameBody got (stampRx s)) = withFrameBody (got ++ [0xF7]) (stampRx s) :=
    storeByte_withFrameBody _ (by rw [stampRx_rxBuf]; omega)
  have hlength : (withFrameBody got (stampRx s)).rxBuf.length = s.cfg.rxBufCap := by
    simp only [withFrameBody_rxBuf, stampRx_rxBuf, List.length_append, List.length_drop]
    omega
  rw [feedBytes_singleton, exec_decodeByte_F7, execRxF7_of_room (mt List.length_eq_zero_iff.mp hin) hroom hlength,
    candidate_withFrameBody, stampRx_withFrameBody, stampRx_stampRx, hstore]

/-- A whole frame that fits is decoded and run at its F7, whatever the reassembler held before. -/
theorem feedBytes_of_frame {body : List Byte} {s : State} (hcap : s.rxBuf.length = s.cfg.rxBufCap)
    (hbody : ∀ b ∈ body, b ≠ 0xF0 ∧ b ≠ 0xF7) (hfits : body.length + 2 ≤ s.cfg.rxBufCap) :
    feedBytes ([0xF0] ++ body ++ [0xF7]) s =
      runDecoded (decodeFrame ([0xF0] ++ body ++ [0xF7]))
        (leaveFrame (withFrameBody ([0xF0] ++ body ++ [0xF7]) (stampRx s))) := by
  rw [feedBytes_append, feedBytes_start hcap hbody (by omega), andThen_next]
  exact feedBytes_F7_of_room hcap (List.cons_ne_nil _ _) (by rw [List.length_append, List.length_singleton]; omega)

/-- Only its payload can bring a delimiter into a frame's body (R120). -/
theorem no_delimiter_in_frame_body (c : Command) {p : List Byte} (hp : ∀ b ∈ p, b ≠ 0xF0 ∧ b ≠ 0xF7) :
    ∀ b ∈ manufacturer ++ [commandCode c] ++ p, b ≠ 0xF0 ∧ b ≠ 0xF7 :=
  List.forall_mem_append.mpr
    ⟨List.forall_mem_append.mpr ⟨by decide, List.forall_mem_singleton.mpr (commandCode_ne_delimiter c)⟩, hp⟩

/-- Settles O17: the frame is a built one, which fits in 16 bytes and decodes to its instruction. -/
theorem frameFedByteByByteRunsItsInstruction : Obligations.FrameFedByteByByteRunsItsInstruction := by
  unfold Obligations.FrameFedByteByByteRunsItsInstruction
  intro i f s hwf hencode hpayload hmin hcap
  obtain ⟨c, p, rfl, hlen, hinstr⟩ := encode_frame_built hwf hencode
  have hbody : ∀ b ∈ p, b ≠ 0xF0 ∧ b ≠ 0xF7 := framePayload_frameBytes c p ▸ hpayload
  have hfits : (manufacturer ++ [commandCode c] ++ p).length + 2 ≤ s.cfg.rxBufCap := by
    have hshort := payloadLength_le c
    simp only [manufacturer, List.length_append, List.length_cons, List.length_nil]
    omega
  have hbuilt : frameBytes c p = [0xF0] ++ (manufacturer ++ [commandCode c] ++ p) ++ [0xF7] := rfl
  have hfeed := feedBytes_of_frame hcap (no_delimiter_in_frame_body c hbody) hfits
  rw [← hbuilt] at hfeed
  exact hfeed.trans (runDecoded_of_accept (decodeFrame_frameBytes hlen hinstr) _)

end Sys2Proof.Machine
end

section
/-! PROOF. Only the reassembler reads the receive buffer or its capacity; every other part of a step commutes with a change
of both. F7 can complete an accepted frame only while fewer than 16 bytes are in progress, since no frame is longer than 16
(41_codec.md R125), and every buffer holds as many. So R148's relation fixes what is dispatched, and each byte keeps it. -/

namespace Sys2Proof.Machine

/-- The state with another receive buffer. -/
def withBuffer (cap : Nat) (buf : List Byte) (len : Nat) (s : State) : State :=
  { s with cfg := { s.cfg with rxBufCap := cap }, rxBuf := buf, rxLen := len }

@[simp] theorem withBuffer_probePolicy (cap : Nat) (buf : List Byte) (len : Nat) (s : State) :
    (withBuffer cap buf len s).cfg.probePolicy = s.cfg.probePolicy := rfl
@[simp] theorem withBuffer_seqTarget (cap : Nat) (buf : List Byte) (len : Nat) (s : State) :
    (withBuffer cap buf len s).seqTarget = s.seqTarget := rfl
@[simp] theorem withBuffer_seqState (cap : Nat) (buf : List Byte) (len : Nat) (s : State) :
    (withBuffer cap buf len s).seqState = s.seqState := rfl

/-- A result whose next state has another receive buffer. -/
def rebuffered (cap : Nat) (buf : List Byte) (len : Nat) (r : Result) : Result :=
  andThen r (fun t => .next (withBuffer cap buf len t))

/-- A part of a step that neither reads nor writes the receive buffer or its capacity. -/
def BufferBlind (f : State → Result) : Prop :=
  ∀ cap buf len s, f (withBuffer cap buf len s) = rebuffered cap buf len (f s)

/-- A branch that does not ask for the buffer commutes with the change where its two arms do. -/
theorem ite_eq_rebuffered {p q : Prop} [Decidable p] [Decidable q] {cap : Nat} {buf : List Byte} {len : Nat}
    {r1 r2 u1 u2 : Result} (hpq : p ↔ q) (h1 : r1 = rebuffered cap buf len u1) (h2 : r2 = rebuffered cap buf len u2) :
    (if p then r1 else r2) = rebuffered cap buf len (if q then u1 else u2) := by
  by_cases hq : q
  · rw [if_pos (hpq.mpr hq), if_pos hq, h1]
  · rw [if_neg (hq ∘ hpq.mp), if_neg hq, h2]

/-! ### The parts of a step that do not know of the buffer -/

theorem bufferBlind_andThen {f g : State → Result} (hf : BufferBlind f) (hg : BufferBlind g) :
    BufferBlind (fun s => andThen (f s) g) := by
  intro cap buf len s
  simp only [hf cap buf len s]
  cases f s with
  | next t => exact hg cap buf len t
  | fault e => rfl
  | refused e => rfl

theorem bufferBlind_dispatchFrame (i : Instr) : BufferBlind (dispatchFrame i) := by
  intro cap buf len s
  cases i with
  | speedRequest => exact ite_eq_rebuffered .rfl rfl rfl
  | speedAnswer m1 m2 c1 c2 =>
    refine ite_eq_rebuffered .rfl (ite_eq_rebuffered .rfl rfl ?_) rfl
    simp only [withBuffer_probePolicy, withBuffer_seqTarget]
    cases selectTest s.cfg.probePolicy (capsFromBytes m1 m2 c1 c2) s.seqTarget <;> rfl
  | speedNegotiate testId targetId =>
    refine ite_eq_rebuffered .rfl ?_ rfl
    cases fromId targetId with
    | none => rfl
    | some target =>
      refine ite_eq_rebuffered .rfl rfl (ite_eq_rebuffered .rfl rfl ?_)
      cases fromId testId <;> rfl
  | speedAck => exact ite_eq_rebuffered .rfl (ite_eq_rebuffered .rfl rfl rfl) rfl
  | speedTest p => exact ite_eq_rebuffered .rfl (ite_eq_rebuffered .rfl rfl rfl) rfl
  | speedResult p => exact ite_eq_rebuffered .rfl (ite_eq_rebuffered .rfl rfl rfl) rfl
  | speedTest2 => exact ite_eq_rebuffered .rfl rfl rfl
  | speedResult2 => exact ite_eq_rebuffered .rfl rfl rfl
  | speedPush b =>
    simp only [dispatchFrame, execSpeedPush]
    cases fromId b with
    | none => rfl
    | some v => exact ite_eq_rebuffered .rfl rfl rfl
  | _ => rfl

theorem bufferBlind_runDecoded (d : Decoded) : BufferBlind (runDecoded d) := by
  cases d with
  | accept i => exact bufferBlind_dispatchFrame i
  | reject why => exact fun _ _ _ _ => rfl

theorem bufferBlind_seqTime : BufferBlind seqTime := by
  intro cap buf len s
  simp only [seqTime, withBuffer_seqState]
  cases s.seqState with
  | idle => rfl
  | _ => exact ite_eq_rebuffered .rfl rfl rfl

/-- A command that passes its role check is decided by its speed field. -/
theorem bufferBlind_exec_decodeCommand (w : CmdWord) : BufferBlind (exec (decodeCommand w)) := by
  intro cap buf len s
  rcases op_cases (cmdOp w) with h | h | h | h | h | h | h | h
  · rw [decodeCommand_of_op_zero h]
    rfl
  · simp only [decodeCommand_of_op_one h, exec, execSetSupported]
    cases fromField (cmdSpeed w) <;> rfl
  · rw [decodeCommand_of_op_two h]
    refine ite_eq_rebuffered .rfl rfl ?_
    cases fromField (cmdSpeed w) <;> rfl
  · rw [decodeCommand_of_op_three h]
    refine ite_eq_rebuffered .rfl rfl ?_
    cases fromField (cmdSpeed w) <;> rfl
  · rw [decodeCommand_of_op_four h]
    exact ite_eq_rebuffered .rfl rfl (ite_eq_rebuffered .rfl rfl (ite_eq_rebuffered .rfl rfl rfl))
  · rw [decodeCommand_of_op_five h]
    exact ite_eq_rebuffered .rfl rfl rfl
  · rw [decodeCommand_of_op_six h]
    rfl
  · rw [decodeCommand_of_op_seven h]
    rfl

theorem bufferBlind_cmdPhase (taken : Bool) (w : CmdWord) : BufferBlind (cmdPhase taken w) := by
  cases taken
  · exact fun _ _ _ _ => rfl
  · exact bufferBlind_exec_decodeCommand w

theorem dropSample_withBuffer (cap : Nat) (buf : List Byte) (len : Nat) (s : State) :
    dropSample (withBuffer cap buf len s) = withBuffer cap buf len (dropSample s) := by
  have hinputs : (withBuffer cap buf len s).inputs = s.inputs := rfl
  simp only [dropSample, hinputs]
  cases s.inputs <;> rfl

/-! ### States alike but for the buffer -/

theorem BufferBlind.keeps_buffer {f : State → Result} (hf : BufferBlind f) {s t : State} (h : f s = .next t) :
    t.rxBuf = s.rxBuf ∧ t.rxLen = s.rxLen := by
  have hself : f s = rebuffered s.cfg.rxBufCap s.rxBuf s.rxLen (f s) := hf s.cfg.rxBufCap s.rxBuf s.rxLen s
  rw [h] at hself
  have ht : t = withBuffer s.cfg.rxBufCap s.rxBuf s.rxLen t := Host.Outcome.next.inj hself
  exact ⟨(congrArg State.rxBuf ht :), (congrArg State.rxLen ht :)⟩

/-- What does not know of the buffer keeps states alike but for it. -/
theorem BufferBlind.sameButCapacity {f : State → Result} (hf : BufferBlind f) {s1 s2 t1 t2 : State}
    (h : sameButCapacity s1 s2) (h1 : f s1 = .next t1) (h2 : f s2 = .next t2) : sameButCapacity t1 t2 := by
  obtain ⟨hrest, hframe⟩ := h
  obtain ⟨hbuf1, hlen1⟩ := hf.keeps_buffer h1
  obtain ⟨hbuf2, hlen2⟩ := hf.keeps_buffer h2
  have hout1 : f (withoutBuffer s1) = .next (withoutBuffer t1) := (hf 0 [] 0 s1).trans (by rw [h1]; rfl)
  have hout2 : f (withoutBuffer s2) = .next (withoutBuffer t2) := (hf 0 [] 0 s2).trans (by rw [h2]; rfl)
  rw [hrest, hout2] at hout1
  refine ⟨(Host.Outcome.next.inj hout1).symm, ?_⟩
  simpa only [sameFrameInProgress, candidate, hbuf1, hlen1, hbuf2, hlen2] using hframe

/-- So does an operation that commutes with a change of the buffer. -/
theorem sameButCapacity_map {g : State → State}
    (hg : ∀ cap buf len s, g (withBuffer cap buf len s) = withBuffer cap buf len (g s)) {s1 s2 : State}
    (h : sameButCapacity s1 s2) : sameButCapacity (g s1) (g s2) :=
  BufferBlind.sameButCapacity (f := fun s => .next (g s))
    (fun cap buf len s => congrArg Host.Outcome.next (hg cap buf len s)) h rfl rfl

/-- Outside a frame nothing is left of the buffer. -/
theorem sameButCapacity_of_outside {s1 s2 : State} (h : withoutBuffer s1 = withoutBuffer s2) (h1 : s1.rxLen = 0)
    (h2 : s2.rxLen = 0) : sameButCapacity s1 s2 := ⟨h, .inl ⟨h1, h2⟩⟩

theorem sameFrameInProgress_symm {s t : State} (h : sameFrameInProgress s t) : sameFrameInProgress t s := by
  rcases h with ⟨hs, ht⟩ | ⟨hs, ht, hsame⟩ | ⟨hs, ht⟩ | ⟨hs, ht⟩
  · exact .inl ⟨ht, hs⟩
  · exact .inr (.inl ⟨ht, hs, hsame.symm⟩)
  · exact .inr (.inr (.inr ⟨ht, hs⟩))
  · exact .inr (.inr (.inl ⟨ht, hs⟩))

/-! ### The candidate that can still be accepted -/

/-- No accepted frame is longer than 16 bytes (30_encoding.md R73; 41_codec.md R125). -/
theorem length_le_of_decodeFrame_accept {f : List Byte} {i : Instr} (h : decodeFrame f = .accept i) : f.length ≤ 16 := by
  obtain ⟨c, p, rfl, hlen, -⟩ := (decodeFrame_eq_accept_iff_built f i).mp h
  have hshort := payloadLength_le c
  rw [frameBytes_length]
  omega

theorem runDecoded_of_long {f : List Byte} (h : 16 < f.length) (s : State) : runDecoded (decodeFrame f) s = .next s := by
  cases hd : decodeFrame f with
  | accept i => exact absurd (length_le_of_decodeFrame_accept hd) (by omega)
  | reject why => rfl

/-- The bytes of the frame in progress while F7 can still make an accepted frame of them. -/
def openFrame (s : State) : List Byte := if s.rxLen < 16 then candidate s else []

/-- A buffer that holds its build's bytes and has room for every frame (00_scope.md R7; 10_state.md R29, R30). -/
structure BufferHoldsFrames (s : State) : Prop where
  length : s.rxBuf.length = s.cfg.rxBufCap
  rxLen_le : s.rxLen ≤ s.cfg.rxBufCap
  room : 16 ≤ s.cfg.rxBufCap

theorem BufferHoldsFrames.of_eq {s t : State} (h : BufferHoldsFrames s) (hcfg : t.cfg = s.cfg) (hbuf : t.rxBuf = s.rxBuf)
    (hlen : t.rxLen = s.rxLen) : BufferHoldsFrames t where
  length := by rw [hbuf, hcfg, h.length]
  rxLen_le := by rw [hlen, hcfg]; exact h.rxLen_le
  room := by rw [hcfg]; exact h.room

theorem bufferHoldsFrames_of_sound {s : State} (hsound : bufferSound s = true) (hroom : 16 ≤ s.cfg.rxBufCap) :
    BufferHoldsFrames s := by
  obtain ⟨hlength, hle, -⟩ := (bufferSound_iff s).mp hsound
  exact ⟨hlength, hle, hroom⟩

theorem BufferHoldsFrames.length_pos {s : State} (h : BufferHoldsFrames s) : 0 < s.rxBuf.length := by
  rw [h.length]
  exact Nat.lt_of_lt_of_le (by decide) h.room

theorem BufferHoldsFrames.length_candidate {s : State} (h : BufferHoldsFrames s) : (candidate s).length = s.rxLen :=
  List.length_take_of_le (h.rxLen_le.trans_eq h.length.symm)

theorem openFrame_of_outside {s : State} (h : s.rxLen = 0) : openFrame s = [] := by simp [openFrame, candidate, h]

theorem openFrame_of_long {s : State} (h : 16 ≤ s.rxLen) : openFrame s = [] := if_neg (Nat.not_lt.mpr h)

theorem rxLen_eq_of_candidate_eq {s1 s2 : State} (hs1 : BufferHoldsFrames s1) (hs2 : BufferHoldsFrames s2)
    (h : candidate s1 = candidate s2) : s1.rxLen = s2.rxLen := by
  rw [← hs1.length_candidate, h, hs2.length_candidate]

theorem openFrame_eq_of_sameFrameInProgress {s1 s2 : State} (hs1 : BufferHoldsFrames s1) (hs2 : BufferHoldsFrames s2)
    (h : sameFrameInProgress s1 s2) : openFrame s1 = openFrame s2 := by
  rcases h with ⟨h1, h2⟩ | ⟨-, -, hsame⟩ | ⟨h1, h2⟩ | ⟨h1, h2⟩
  · rw [openFrame_of_outside h1, openFrame_of_outside h2]
  · rw [openFrame, openFrame, rxLen_eq_of_candidate_eq hs1 hs2 hsame, hsame]
  · rw [openFrame_of_outside h1, openFrame_of_long h2]
  · rw [openFrame_of_long h1, openFrame_of_outside h2]

/-! ### Received bytes -/

/-- F7 in any state leaves the frame, and the codec's answer on the frame that can still be accepted runs. -/
theorem execRxF7_eq_runDecoded {s : State} (hs : BufferHoldsFrames s) :
    ∃ buf, execRxF7 s =
      runDecoded (decodeFrame (openFrame s ++ [0xF7])) (withBuffer s.cfg.rxBufCap buf 0 (stampRx s)) := by
  have ⟨hlength, hle, hroom⟩ := hs
  by_cases hout : s.rxLen = 0
  · refine ⟨s.rxBuf, ?_⟩
    rw [execRxF7_of_outside hout, openFrame_of_outside hout]
    exact (congrArg (fun len => Host.Outcome.next (withBuffer s.cfg.rxBufCap s.rxBuf len (stampRx s))) hout :)
  by_cases hfull : s.rxLen = s.cfg.rxBufCap
  · refine ⟨s.rxBuf, ?_⟩
    rw [execRxF7_of_full hout hfull, openFrame_of_long (by omega)]
    rfl
  refine ⟨s.rxBuf.set s.rxLen 0xF7, ?_⟩
  rw [execRxF7_of_room hout (by omega) hlength]
  by_cases hshort : s.rxLen < 16
  · rw [openFrame, if_pos hshort]
    rfl
  · have hlong : 16 < (candidate s ++ [0xF7]).length := by
      rw [List.length_append, hs.length_candidate, List.length_singleton]
      omega
    rw [openFrame_of_long (by omega), runDecoded_of_long hlong]
    rfl

theorem withoutBuffer_storeOrDrop (b : Byte) (s : State) : withoutBuffer (storeOrDrop b s) = withoutBuffer s := by
  rcases storeOrDrop_cases b s with ⟨-, h⟩ | ⟨-, -, h⟩ | ⟨-, -, h⟩ <;> rw [h] <;> rfl

theorem storeOrDrop_of_outside (b : Byte) {s : State} (hout : s.rxLen = 0) : storeOrDrop b s = s := if_pos hout

theorem storeOrDrop_of_full (b : Byte) {s : State} (hin : s.rxLen ≠ 0) (hfull : s.rxLen = s.cfg.rxBufCap) :
    storeOrDrop b s = leaveFrame s := (if_neg hin).trans (if_pos hfull)

theorem storeOrDrop_of_room (b : Byte) {s : State} (hin : s.rxLen ≠ 0) (hroom : s.rxLen ≠ s.cfg.rxBufCap) :
    storeOrDrop b s = storeByte b s := (if_neg hin).trans (if_neg hroom)

/-- A frame already too long stays so, or is dropped (R142, R145). -/
theorem rxLen_storeOrDrop_of_long (b : Byte) {s : State} (h : 16 ≤ s.rxLen) :
    (storeOrDrop b s).rxLen = 0 ∨ 16 ≤ (storeOrDrop b s).rxLen := by
  rcases storeOrDrop_cases b s with ⟨-, e⟩ | ⟨-, -, e⟩ | ⟨-, -, e⟩ <;> rw [e]
  · exact .inr h
  · exact .inl rfl
  · exact .inr (Nat.le_succ_of_le h)

theorem sameFrameInProgress_storeOrDrop_of_dropped (b : Byte) {s1 s2 : State} (h1 : s1.rxLen = 0) (h2 : 16 ≤ s2.rxLen) :
    sameFrameInProgress (storeOrDrop b s1) (storeOrDrop b s2) := by
  rw [storeOrDrop_of_outside b h1]
  rcases rxLen_storeOrDrop_of_long b h2 with h | h
  · exact .inl ⟨h1, h⟩
  · exact .inr (.inr (.inl ⟨h1, h⟩))

/-- In the same frame both store the byte, or the smaller buffer is full and its block alone drops the frame (R148). -/
theorem sameFrameInProgress_storeOrDrop_of_candidate_eq (b : Byte) {s1 s2 : State} (hs1 : BufferHoldsFrames s1)
    (hs2 : BufferHoldsFrames s2) (hin1 : s1.rxLen ≠ 0) (hin2 : s2.rxLen ≠ 0) (h : candidate s1 = candidate s2) :
    sameFrameInProgress (storeOrDrop b s1) (storeOrDrop b s2) := by
  have hlen := rxLen_eq_of_candidate_eq hs1 hs2 h
  obtain ⟨hlength1, hle1, hroom1⟩ := hs1
  obtain ⟨hlength2, hle2, hroom2⟩ := hs2
  by_cases hfull1 : s1.rxLen = s1.cfg.rxBufCap <;> by_cases hfull2 : s2.rxLen = s2.cfg.rxBufCap
  · rw [storeOrDrop_of_full b hin1 hfull1, storeOrDrop_of_full b hin2 hfull2]
    exact .inl ⟨rfl, rfl⟩
  · rw [storeOrDrop_of_full b hin1 hfull1, storeOrDrop_of_room b hin2 hfull2]
    exact .inr (.inr (.inl ⟨rfl, by rw [storeByte_rxLen]; omega⟩))
  · rw [storeOrDrop_of_room b hin1 hfull1, storeOrDrop_of_full b hin2 hfull2]
    exact .inr (.inr (.inr ⟨by rw [storeByte_rxLen]; omega, rfl⟩))
  · rw [storeOrDrop_of_room b hin1 hfull1, storeOrDrop_of_room b hin2 hfull2]
    refine .inr (.inl ⟨Nat.succ_ne_zero _, Nat.succ_ne_zero _, ?_⟩)
    rw [candidate_storeByte b s1 (by omega), candidate_storeByte b s2 (by omega), h]

theorem sameFrameInProgress_storeOrDrop (b : Byte) {s1 s2 : State} (hs1 : BufferHoldsFrames s1)
    (hs2 : BufferHoldsFrames s2) (h : sameFrameInProgress s1 s2) :
    sameFrameInProgress (storeOrDrop b s1) (storeOrDrop b s2) := by
  rcases h with ⟨h1, h2⟩ | ⟨h1, h2, hsame⟩ | ⟨h1, h2⟩ | ⟨h1, h2⟩
  · rw [storeOrDrop_of_outside b h1, storeOrDrop_of_outside b h2]
    exact .inl ⟨h1, h2⟩
  · exact sameFrameInProgress_storeOrDrop_of_candidate_eq b hs1 hs2 h1 h2 hsame
  · exact sameFrameInProgress_storeOrDrop_of_dropped b h1 h2
  · exact sameFrameInProgress_symm (sameFrameInProgress_storeOrDrop_of_dropped b h2 h1)

section
variable {s1 s2 t1 t2 : State}

/-- Every received byte keeps states alike but for the buffer. -/
theorem sameButCapacity_exec_decodeByte {b : Byte} (h : sameButCapacity s1 s2) (hs1 : BufferHoldsFrames s1)
    (hs2 : BufferHoldsFrames s2) (h1 : exec (decodeByte b) s1 = .next t1) (h2 : exec (decodeByte b) s2 = .next t2) :
    sameButCapacity t1 t2 := by
  obtain ⟨hrest, hframe⟩ := sameButCapacity_map (g := stampRx) (fun _ _ _ _ => rfl) h
  by_cases hF0 : b = 0xF0
  · subst hF0
    cases h1
    cases h2
    refine ⟨hrest, .inr (.inl ⟨one_ne_zero, one_ne_zero, ?_⟩)⟩
    rw [candidate_startFrame (stampRx s1) hs1.length_pos, candidate_startFrame (stampRx s2) hs2.length_pos]
  by_cases hF7 : b = 0xF7
  · subst hF7
    obtain ⟨buf1, hend1⟩ := execRxF7_eq_runDecoded hs1
    obtain ⟨buf2, hend2⟩ := execRxF7_eq_runDecoded hs2
    rw [exec_decodeByte_F7, hend1, openFrame_eq_of_sameFrameInProgress hs1 hs2 h.2] at h1
    rw [exec_decodeByte_F7, hend2] at h2
    have hclosed : sameButCapacity (withBuffer s1.cfg.rxBufCap buf1 0 (stampRx s1))
        (withBuffer s2.cfg.rxBufCap buf2 0 (stampRx s2)) := sameButCapacity_of_outside hrest rfl rfl
    exact (bufferBlind_runDecoded _).sameButCapacity hclosed h1 h2
  · rw [exec_decodeByte_of_body hF0 hF7] at h1 h2
    cases h1
    cases h2
    refine ⟨by rw [withoutBuffer_storeOrDrop, withoutBuffer_storeOrDrop, hrest], ?_⟩
    exact sameFrameInProgress_storeOrDrop b (hs1.of_eq rfl rfl rfl) (hs2.of_eq rfl rfl rfl) hframe

theorem sameButCapacity_rxPhase {taken : Bool} {b : Byte} (h : sameButCapacity s1 s2) (hs1 : BufferHoldsFrames s1)
    (hs2 : BufferHoldsFrames s2) (h1 : rxPhase taken b s1 = .next t1) (h2 : rxPhase taken b s2 = .next t2) :
    sameButCapacity t1 t2 := by
  cases taken
  · cases h1
    cases h2
    exact h
  · exact sameButCapacity_exec_decodeByte h hs1 hs2 h1 h2

/-! ### The step -/

theorem sameButCapacity_phases {p : PortSample} (h : sameButCapacity s1 s2) (hs1 : BufferHoldsFrames s1)
    (hs2 : BufferHoldsFrames s2) (h1 : phases p s1 = .next t1) (h2 : phases p s2 = .next t2) : sameButCapacity t1 t2 := by
  have hrx : rxReady s1 = rxReady s2 := (congrArg rxReady h.1 :)
  have hcmd : cmdReady s1 = cmdReady s2 := (congrArg cmdReady h.1 :)
  rw [phases, hrx, hcmd] at h1
  obtain ⟨u1, hrx1, hrest1⟩ := (andThen_eq_next _ _ _).mp h1
  obtain ⟨u2, hrx2, hrest2⟩ := (andThen_eq_next _ _ _).mp h2
  have hbegin := sameButCapacity_map
    (g := beginStep p.nowMs (p.rxValid && rxReady s2) (p.cmdValid && cmdReady s2)) (fun _ _ _ _ => rfl) h
  have hafter : sameButCapacity u1 u2 :=
    sameButCapacity_rxPhase hbegin (hs1.of_eq rfl rfl rfl) (hs2.of_eq rfl rfl rfl) hrx1 hrx2
  exact (bufferBlind_andThen bufferBlind_seqTime (bufferBlind_cmdPhase _ _)).sameButCapacity hafter hrest1 hrest2

/-- A reset and a stall do not read the buffer, and the phases see the same readiness on both sides. -/
theorem sameButCapacity_stepOn {p : PortSample} (h : sameButCapacity s1 s2) (hs1 : BufferHoldsFrames s1)
    (hs2 : BufferHoldsFrames s2) (h1 : stepOn p s1 = .next t1) (h2 : stepOn p s2 = .next t2) : sameButCapacity t1 t2 := by
  have hspace : space s1 = space s2 := (congrArg space h.1 :)
  unfold stepOn at h1 h2
  by_cases hrst : p.rst = true
  · rw [if_pos hrst] at h1 h2
    cases h1
    cases h2
    have hreset : withoutBuffer (resetStep s1) = withoutBuffer (resetStep s2) :=
      (congrArg (fun s => withoutBuffer (resetStep s)) h.1 :)
    exact sameButCapacity_of_outside hreset rfl rfl
  rw [if_neg hrst] at h1 h2
  rw [hspace] at h1
  by_cases hfull : (!space s2) = true
  · rw [if_pos hfull] at h1 h2
    cases h1
    cases h2
    exact sameButCapacity_map (fun _ _ _ _ => rfl) h
  rw [if_neg hfull] at h1 h2
  obtain ⟨u1, hran1, hfifo1⟩ := (andThen_eq_next _ _ _).mp h1
  obtain ⟨u2, hran2, hfifo2⟩ := (andThen_eq_next _ _ _).mp h2
  cases hfifo1
  cases hfifo2
  have hran : sameButCapacity u1 u2 := sameButCapacity_phases h hs1 hs2 hran1 hran2
  exact sameButCapacity_map (g := fun u => pushFifo (popFifo p.evReady u)) (fun _ _ _ _ => rfl) hran

end

/-- Settles O57: both blocks use up the same sample, and each part of the step on it keeps them alike. -/
theorem bufferCapacityDoesNotMatter : Obligations.BufferCapacityDoesNotMatter := by
  unfold Obligations.BufferCapacityDoesNotMatter
  intro s1 s2 t1 t2 hsound1 hsound2 hroom1 hroom2 h h1 h2
  have hdrop : sameButCapacity (dropSample s1) (dropSample s2) := sameButCapacity_map dropSample_withBuffer h
  have hsample : currentSample s1 = currentSample s2 := (congrArg currentSample h.1 :)
  rw [step, hsample] at h1
  have hholds {s : State} (hsound : bufferSound s = true) (hroom : 16 ≤ s.cfg.rxBufCap) :
      BufferHoldsFrames (dropSample s) :=
    (bufferHoldsFrames_of_sound hsound hroom).of_eq (dropSample_cfg s) (dropSample_rxBuf s) (dropSample_rxLen s)
  exact sameButCapacity_stepOn hdrop (hholds hsound1 hroom1) (hholds hsound2 hroom2) h1 h2

end Sys2Proof.Machine
end

section
/-! PROOF. A step with room in the FIFO is its three phases in order, each on the state the one before it leaves
(43_engine_common.md R160). -/

namespace Sys2Proof.Machine

theorem stepOn_of_space {p : PortSample} {s : State} (hrst : p.rst = false) (hspace : space s = true) :
    stepOn p s = andThen (phases p s) (fun t => .next (pushFifo (popFifo p.evReady t))) := by
  simp [stepOn, hrst, hspace]

/-- With room in the FIFO, `SETTLE` alone holds bytes back (10_state.md R41). -/
theorem rxReady_of_space {s : State} (hspace : space s = true) : rxReady s = (s.seqState != .settle) := by
  rw [rxReady, hspace, Bool.true_and]

/-- With room in the FIFO, a negotiation in progress alone holds commands back (10_state.md R41). -/
theorem cmdReady_of_space {s : State} (hspace : space s = true) : cmdReady s = (s.seqState == .idle) := by
  rw [cmdReady, hspace, Bool.true_and]

/-- Settles O36: the decoded instructions are those the phases run, and readiness reads no input. -/
theorem stepRunsTheDecodedInstructions : Obligations.StepRunsTheDecodedInstructions := by
  unfold Obligations.StepRunsTheDecodedInstructions
  intro s p rest byteInstr cmdInstr hin hrst hspace hbyte hcmd rx cmd hrx hcmdTaken
  obtain rfl : decodeByte p.rxData = byteInstr := Decoded.accept.inj hbyte
  obtain rfl : decodeCommand p.cmdWord = cmdInstr := Decoded.accept.inj hcmd
  have hroom : space { s with inputs := rest } = true := hspace
  rw [step, currentSample_of_cons s p rest hin, dropSample_of_cons s p rest hin, stepOn_of_space hrst hroom, phases,
    rxReady_of_space hroom, cmdReady_of_space hroom, ← hrx, ← hcmdTaken]
  simp only [andThen_assoc]
  rfl

end Sys2Proof.Machine
end

section
/-! PROOF. Every effect leaves a listener of the output stream at the current speed: a commit tells it both the speed and the
rate, whatever it believed before, and nothing else that is emitted tells it anything (43_engine_common.md R164). -/

namespace Sys2Proof.Machine

/-! ### Events that announce no speed -/

/-- The listener and the transport pass over these events. -/
structure AnnouncesNothing (es : List Event) : Prop where
  speed : ∀ v, speedAfter v es = v
  rate : ∀ r, rateAfter r es = r

theorem announcesNothing_map_tx (bs : List Byte) : AnnouncesNothing (bs.map Event.tx) :=
  ⟨fun v => speedAfter_map_tx v bs, fun r => rateAfter_map_tx r bs⟩

theorem announcesNothing_replicate_tx (n : Nat) (b : Byte) : AnnouncesNothing (List.replicate n (.tx b)) := by
  rw [← List.map_replicate]
  exact announcesNothing_map_tx _

theorem announcesNothing_speedRequested : AnnouncesNothing [.speedRequested] := ⟨fun _ => rfl, fun _ => rfl⟩

theorem announcesNothing_negDone (ok : Bool) (c : Cause) : AnnouncesNothing [.negDone ok c] :=
  ⟨fun _ => rfl, fun _ => rfl⟩

theorem announcesNothing_cmdRejected (op : BitVec 3) (r : Reason) : AnnouncesNothing [.cmdRejected op r] :=
  ⟨fun _ => rfl, fun _ => rfl⟩

/-! ### A listener that knows the current speed -/

/-- Who started at speed `v` and followed the step's events so far knows the current speed and its rate. -/
structure AnnouncedFrom (v : Speed) (s : State) : Prop where
  speed : speedAfter v s.events = s.currentSpeed
  rate : rateAfter (baudFor v) s.events = baudFor s.currentSpeed

section
variable {v : Speed} {s t : State}

theorem announcedFrom_of_no_events (hempty : s.events = []) : AnnouncedFrom s.currentSpeed s := by
  constructor <;> rw [hempty] <;> rfl

theorem announcedFrom_beginStep (nowMs : Ms) (rx cmd : Bool) (s : State) :
    AnnouncedFrom s.currentSpeed (beginStep nowMs rx cmd s) :=
  announcedFrom_of_no_events (s := beginStep nowMs rx cmd s) rfl

theorem announcedFrom_stall (evReady : Bool) (s : State) : AnnouncedFrom s.currentSpeed (stall evReady s) :=
  announcedFrom_of_no_events (s := stall evReady s) rfl

/-- A commit announces its speed whatever was announced before it. -/
theorem announcedFrom_commit (v w : Speed) (s : State) : AnnouncedFrom v (commit w s) where
  speed := by rw [commit_events, speedAfter_append]; rfl
  rate := by rw [commit_events, rateAfter_append]; rfl

theorem AnnouncedFrom.of_eq (h : AnnouncedFrom v s) (hevents : t.events = s.events)
    (hspeed : t.currentSpeed = s.currentSpeed) : AnnouncedFrom v t where
  speed := by rw [hevents, hspeed, h.speed]
  rate := by rw [hevents, hspeed, h.rate]

theorem AnnouncedFrom.emitAll {es : List Event} (h : AnnouncedFrom v s) (hes : AnnouncesNothing es) :
    AnnouncedFrom v (emitAll es s) where
  speed := by rw [emitAll_events, speedAfter_append, h.speed, hes.speed, emitAll_currentSpeed]
  rate := by rw [emitAll_events, rateAfter_append, h.rate, hes.rate, emitAll_currentSpeed]

theorem AnnouncedFrom.emitFrame (h : AnnouncedFrom v s) (c : Command) (p : List Byte) :
    AnnouncedFrom v (emitFrame c p s) :=
  h.emitAll (announcesNothing_map_tx _)

theorem AnnouncedFrom.finish (h : AnnouncedFrom v s) (ok : Bool) (c : Cause) : AnnouncedFrom v (finish ok c s) :=
  (h.emitAll (announcesNothing_negDone ok c)).of_eq rfl rfl

/-! ### The parts of a step -/

theorem AnnouncedFrom.of_frameEffect (h : AnnouncedFrom v s) (heffect : FrameEffect s t) : AnnouncedFrom v t := by
  cases heffect with
  | ignored => exact h
  | answered => exact (h.emitFrame _ _).emitAll announcesNothing_speedRequested
  | accepted g => exact (announcedFrom_commit v g _).of_eq rfl rfl
  | testAccepted => exact (h.emitFrame .speedAck []).of_eq rfl rfl
  | testPassed => exact ((announcedFrom_commit v s.pendingTest s).emitFrame _ _).of_eq rfl rfl
  | testFailed => exact (announcedFrom_commit v .x1 s).of_eq rfl rfl
  | test2Passed => exact (announcedFrom_commit v s.pendingTarget _).of_eq rfl rfl
  | pushed w => exact announcedFrom_commit v w s
  | answerRefused => exact h.finish _ _
  | negotiationRequested w => exact (h.emitFrame .speedNegotiate [idByte w, idByte s.seqTarget]).of_eq rfl rfl
  | ackedWithoutTest => exact (announcedFrom_commit v _ s).finish _ _
  | ackedForTest => exact (h.emitAll (announcesNothing_replicate_tx s.cfg.breathBytes 0x00)).of_eq rfl rfl
  | resultGood => exact (h.emitFrame .speedTest2 []).of_eq rfl rfl
  | resultBad => exact (announcedFrom_commit v _ s).finish _ _
  | result2 => exact (announcedFrom_commit v _ s).finish _ _

theorem AnnouncedFrom.of_rxEffect {taken : Bool} (h : AnnouncedFrom v s) (heffect : rxEffect taken s t) :
    AnnouncedFrom v t := by
  cases taken with
  | false => exact (show t = s from heffect) ▸ h
  | true =>
    cases (heffect : ByteEffect s t) with
    | ended _ _ _ hframe =>
      have hclosed : AnnouncedFrom v (leaveFrame (storeByte 0xF7 (stampRx s))) := h.of_eq rfl rfl
      exact hclosed.of_frameEffect hframe
    | _ => exact h.of_eq rfl rfl

theorem AnnouncedFrom.of_seqEffect (h : AnnouncedFrom v s) (heffect : SeqEffect s t) : AnnouncedFrom v t := by
  cases heffect with
  | waits => exact h
  | noAnswer => exact h.finish _ _
  | noAck => exact h.finish _ _
  | settled => exact ((announcedFrom_commit v s.seqTest s).emitFrame .speedTest testPattern).of_eq rfl rfl
  | testTimeout => exact (announcedFrom_commit v _ s).finish _ _
  | test2Timeout => exact (announcedFrom_commit v _ s).finish _ _

theorem AnnouncedFrom.of_cmdEffect {taken : Bool} {op : BitVec 3} (h : AnnouncedFrom v s)
    (heffect : cmdEffect taken op s t) : AnnouncedFrom v t := by
  cases taken with
  | false => exact (show t = s from heffect) ▸ h
  | true =>
    cases (heffect : CommandEffect s op t) with
    | nothing => exact h
    | rejected r => exact h.emitAll (announcesNothing_cmdRejected op r)
    | capabilityAdded => exact h.of_eq rfl rfl
    | negotiationStarted => exact (h.emitFrame .speedRequest []).of_eq rfl rfl
    | pushSent w => exact announcedFrom_commit v w _
    | linkLost => exact (announcedFrom_commit v .x1 s).of_eq rfl rfl
    | keptAlive => exact (h.emitAll (announcesNothing_map_tx [0xFE])).of_eq rfl rfl

end

/-- Settles O47: the step begins with no events, at the speed the listener knows. -/
theorem speedFollowsTheOutputStream : Obligations.SpeedFollowsTheOutputStream := by
  unfold Obligations.SpeedFollowsTheOutputStream
  intro s t hstep hrst
  have hannounced : AnnouncedFrom (dropSample s).currentSpeed t := by
    cases effect_of_step s t hstep with
    | reset hreset => simp [hrst] at hreset
    | stalled => exact announcedFrom_stall _ _
    | ran s1 s2 s3 _ _ hrx hseq hcmd =>
      have hafterRx := (announcedFrom_beginStep _ _ _ _).of_rxEffect hrx
      exact ((hafterRx.of_seqEffect hseq).of_cmdEffect hcmd).of_eq rfl rfl
  rw [dropSample_currentSpeed] at hannounced
  exact ⟨hannounced.speed, hannounced.rate⟩

end Sys2Proof.Machine
end

section
/-! PROOF. The longest event lists of the phases (43_engine_common.md R169): 18 in RX, 18 in SEQ, 11 in CMD. Readiness keeps them
from adding up: a command is taken in IDLE only, where SEQ emits nothing; and SEQ emits more than 3 only at the end of
`SETTLE`, which no byte runs in and which a byte enters with the 16 breathing bytes alone. So the largest sum is 16 + 18. -/

namespace Sys2Proof.Machine

theorem length_testPattern : testPattern.length = 8 := rfl

theorem length_capsBytes (c : Caps) : (capsBytes c).length = 4 := rfl

section
variable {s t : State}

theorem length_events_of_frameEffect (hbreath : s.cfg.breathBytes = 16) (h : FrameEffect s t) :
    t.events.length ≤ s.events.length + 18 := by
  cases h with
  | answered => simp [length_capsBytes]
  | testPassed => simp [length_testPattern]
  | ackedForTest => simp [hbreath]
  | _ => simp

/-- The Ack of a negotiation with a live test is the one way into `SETTLE` (44_master.md R195). -/
theorem length_events_of_frameEffect_to_settle (hbreath : s.cfg.breathBytes = 16) (h : FrameEffect s t)
    (hs : s.seqState ≠ .settle) (ht : t.seqState = .settle) : t.events.length = s.events.length + 16 := by
  cases h with
  | ackedForTest => simp [hbreath]
  | _ => simp_all

theorem length_events_of_rxEffect {taken : Bool} (hbreath : s.cfg.breathBytes = 16) (h : rxEffect taken s t) :
    t.events.length ≤ s.events.length + 18 := by
  cases taken with
  | false => simp [show t = s from h]
  | true =>
    cases (h : ByteEffect s t) with
    | ended _ _ _ hframe =>
      have hclosed : (leaveFrame (storeByte 0xF7 (stampRx s))).cfg.breathBytes = 16 := hbreath
      exact (length_events_of_frameEffect hclosed hframe :)
    | _ => simp

theorem length_events_of_rxEffect_to_settle {taken : Bool} (hbreath : s.cfg.breathBytes = 16) (h : rxEffect taken s t)
    (hs : taken = true → s.seqState ≠ .settle) (ht : t.seqState = .settle) :
    t.events.length ≤ s.events.length + 16 := by
  cases taken with
  | false => simp [show t = s from h]
  | true =>
    cases (h : ByteEffect s t) with
    | ended _ _ _ hframe =>
      have hclosed : (leaveFrame (storeByte 0xF7 (stampRx s))).cfg.breathBytes = 16 := hbreath
      exact (length_events_of_frameEffect_to_settle hclosed hframe (hs rfl) ht).le
    | _ => simp

theorem length_events_of_seqEffect (h : SeqEffect s t) : t.events.length ≤ s.events.length + 18 := by
  cases h with
  | settled => simp [length_testPattern]
  | _ => simp

theorem length_events_of_seqEffect_not_settle (h : SeqEffect s t) (hs : s.seqState ≠ .settle) :
    t.events.length ≤ s.events.length + 3 := by
  cases h with
  | settled hsettle => exact absurd hsettle hs
  | _ => simp

theorem length_events_of_cmdEffect {taken : Bool} {op : BitVec 3} (h : cmdEffect taken op s t) :
    t.events.length ≤ s.events.length + 11 := by
  cases taken with
  | false => simp [show t = s from h]
  | true => cases (h : CommandEffect s op t) <;> simp

/-- From IDLE a byte and a command run and no time rule between them; in a negotiation a byte, which `SETTLE` does not take,
and a time rule (10_state.md R41). -/
theorem length_events_of_phases {s1 s2 : State} {rx cmd : Bool} {op : BitVec 3} (hbreath : s.cfg.breathBytes = 16)
    (hrxReady : rx = true → s.seqState ≠ .settle) (hcmdReady : cmd = true → s.seqState = .idle) (hrx : rxEffect rx s s1)
    (hseq : SeqEffect s1 s2) (hcmd : cmdEffect cmd op s2 t) : t.events.length ≤ s.events.length + 34 := by
  have hrxLength := length_events_of_rxEffect hbreath hrx
  by_cases hidle : s.seqState = .idle
  · obtain rfl : s2 = s1 := eq_of_seqEffect_idle hseq (idle_of_rxEffect hrx hidle)
    have hcmdLength := length_events_of_cmdEffect hcmd
    omega
  obtain rfl : cmd = false := Bool.eq_false_of_not_eq_true (hidle ∘ hcmdReady)
  obtain rfl : t = s2 := hcmd
  by_cases hsettle : s1.seqState = .settle
  · have hsettleLength := length_events_of_rxEffect_to_settle hbreath hrx hrxReady hsettle
    have hseqLength := length_events_of_seqEffect hseq
    omega
  · have hseqLength := length_events_of_seqEffect_not_settle hseq hsettle
    omega

end

/-- Settles O43: the phases start from an empty event list, with the readiness of the step's start. -/
theorem stepEmitsAtMost34Events : Obligations.StepEmitsAtMost34Events := by
  unfold Obligations.StepEmitsAtMost34Events
  intro s t hbreath hstep
  cases effect_of_step s t hstep with
  | reset => simp
  | stalled => simp
  | ran s1 s2 s3 _ _ hrx hseq hcmd =>
    have hlength := length_events_of_phases (by simpa using hbreath) (by simp [rxReady]) (by simp [cmdReady]) hrx hseq hcmd
    simpa using hlength

end Sys2Proof.Machine
end

section
/-! PROOF. The speed table lists the speeds by rising id, so the first one found above a target is the smallest
(44_master.md R183). -/

namespace Sys2Proof.Machine

theorem allSpeeds_pairwise_lt : allSpeeds.Pairwise fun v w => idFor v < idFor w := by decide

/-- In a list that rises in `f`, the first element that satisfies `p` is the one that is smallest in `f`. -/
theorem find?_eq_some_iff_smallest {α : Type} {f : α → Nat} {p : α → Bool} {l : List α} {v : α}
    (hrising : l.Pairwise fun a b => f a < f b) :
    l.find? p = some v ↔ v ∈ l ∧ p v = true ∧ ∀ w ∈ l, p w = true → f v ≤ f w := by
  induction l with
  | nil => simp
  | cons a rest ih =>
    obtain ⟨hfirst, hrest⟩ := List.pairwise_cons.mp hrising
    cases ha : p a with
    | false =>
      rw [List.find?_cons_of_neg (by simp [ha]), ih hrest, List.mem_cons, List.forall_mem_cons]
      grind
    | true =>
      rw [List.find?_cons_of_pos ha, Option.some_inj]
      constructor
      · rintro rfl
        exact ⟨List.mem_cons_self, ha, List.forall_mem_cons.mpr ⟨fun _ => le_rfl, fun w hw _ => (hfirst w hw).le⟩⟩
      · rintro ⟨hv, -, hleast⟩
        rcases List.mem_cons.mp hv with rfl | hlater
        · rfl
        · exact absurd (hleast a List.mem_cons_self ha) (Nat.not_le.mpr (hfirst v hlater))

theorem smallestAbove_eq_some_iff (t v : Speed) (ok : Speed → Bool) :
    smallestAbove t ok = some v ↔
      idFor t < idFor v ∧ ok v = true ∧ ∀ w, idFor t < idFor w → ok w = true → idFor v ≤ idFor w := by
  simp [smallestAbove, find?_eq_some_iff_smallest allSpeeds_pairwise_lt, mem_allSpeeds, and_assoc]

/-! ### The ways of `select_test` -/

section
variable {rc : Caps} {t : Speed}

theorem selectTest_x1 (policy : ProbePolicy) (rc : Caps) : selectTest policy rc .x1 = some .x1 := if_pos rfl

theorem selectTest_of_certified (policy : ProbePolicy) (hx1 : t ≠ .x1) (hcert : isCertified rc (some t) = true) :
    selectTest policy rc t = some t :=
  (if_neg hx1).trans (if_pos hcert)

theorem selectTest_successor (hx1 : t ≠ .x1) (hcert : isCertified rc (some t) = false) :
    selectTest .successor rc t = nextHigher t :=
  (if_neg hx1).trans (if_neg (Bool.eq_false_iff.mp hcert))

theorem selectTest_nextSupported (hx1 : t ≠ .x1) (hcert : isCertified rc (some t) = false) :
    selectTest .nextSupported rc t = smallestAbove t (fun v => has rc (some v)) :=
  (if_neg hx1).trans (if_neg (Bool.eq_false_iff.mp hcert))

theorem selectTest_nextCertified (hx1 : t ≠ .x1) (hcert : isCertified rc (some t) = false) :
    selectTest .nextCertified rc t = smallestAbove t (fun v => has rc (some v) && isCertified rc (some v)) :=
  (if_neg hx1).trans (if_neg (Bool.eq_false_iff.mp hcert))

end

theorem nextHigher_eq_some_iff (t v : Speed) : nextHigher t = some v ↔ idFor v = idFor t + 1 :=
  (speedOfId_eq_some_iff _ _).trans eq_comm

/-- Settles O12: 1× and a certified target are answered before the policy is asked. -/
theorem probeSpeedIsTheSmallestAllowed : Obligations.ProbeSpeedIsTheSmallestAllowed := by
  unfold Obligations.ProbeSpeedIsTheSmallestAllowed
  intro policy rc t v
  by_cases hx1 : t = .x1
  · subst hx1
    simp [selectTest_x1, @eq_comm _ v]
  cases hcert : isCertified rc (some t) with
  | true => simp [selectTest_of_certified policy hx1 hcert, hx1, @eq_comm _ v]
  | false =>
    cases policy with
    | successor => simp [selectTest_successor hx1 hcert, hx1, nextHigher_eq_some_iff]
    | nextSupported => simp [selectTest_nextSupported hx1 hcert, hx1, smallestAbove_eq_some_iff]
    | nextCertified => simp [selectTest_nextCertified hx1 hcert, hx1, smallestAbove_eq_some_iff, and_assoc]

end Sys2Proof.Machine
end

section
/-! PROOF. The responses a master handles, the sequencer's time rules, and NEGOTIATE and PUSH (44_master.md R180 to R191): each
condition as the statements write it, and the next state of each branch written out. -/

namespace Sys2Proof.Machine

/-! ### The conditions -/

/-- A response is handled by an originating build in its own wait state, and ignored elsewhere (43_engine_common.md R167;
44_master.md R192). -/
theorem handled_iff (r : Role) (q w : SeqState) : (mayOriginate r && q == w) = true ↔ ¬ (r = .slave ∨ q ≠ w) := by
  simp [mayOriginate_iff]

/-- The two branches of a response, with the ignored one first. -/
theorem ite_handled_eq {s : State} {w : SeqState} {r r' : Result} (h : r = r') :
    (if mayOriginate s.cfg.role && s.seqState == w then r else .next s) =
      if s.cfg.role = .slave ∨ s.seqState ≠ w then .next s else r' := by
  rw [← h, ← ite_not]
  exact ite_congr (by rw [handled_iff, not_not]) (fun _ => rfl) (fun _ => rfl)

/-- The two branches of a command that only an originating build carries out (46_host_ops.md R235). -/
theorem ite_originates_eq {c : Role} {rejected r rejected' r' : Result} (hrejected : rejected = rejected') (h : r = r') :
    (if !mayOriginate c then rejected else r) = if c = .slave then rejected' else r' := by
  cases c <;> [exact h; exact hrejected; exact h]

/-! ### The next states -/

/-- A negotiation that ends with a commit announces the speed, then its outcome (R184, R186, R187, R190, R191). -/
theorem finish_commit (ok : Bool) (c : Cause) (v : Speed) (s : State) :
    finish ok c (commit v s) =
      { s with
        currentSpeed := v, seqState := .idle, events := s.events ++ [.baud (baudFor v), .speedChanged v, .negDone ok c] } := by
  simp [finish, commit, emit, emitAll]

/-- A negotiation that a frame or a deadline ends at 1× (R186, R190, R191). -/
theorem finish_commit_x1 (c : Cause) (s : State) :
    finish false c (commit .x1 s) =
      { s with
        currentSpeed := .x1, seqState := .idle, events := s.events ++ [.baud 31250, .speedChanged .x1, .negDone false c] } :=
  finish_commit false c .x1 s

/-- A frame sent right after a commit follows its events (R185). -/
theorem emitFrame_commit (c : Command) (p : List Byte) (v : Speed) (s : State) :
    emitFrame c p (commit v s) =
      { s with
        currentSpeed := v,
        events := s.events ++ ([.baud (baudFor v), .speedChanged v] ++ (frameBytes c p).map Event.tx) } := by
  simp [emitFrame, commit, emitAll]

/-- A commit right after a frame adds its events to the frame's (R181). -/
theorem commit_emitFrame (v : Speed) (c : Command) (p : List Byte) (s : State) :
    commit v (emitFrame c p s) =
      { s with
        currentSpeed := v,
        events := s.events ++ ((frameBytes c p).map Event.tx ++ [.baud (baudFor v), .speedChanged v]) } := by
  simp [emitFrame, commit, emitAll]

/-- The id that a host word's field names is the field itself (40_speed_caps.md R101, R111). -/
theorem idByte_of_speedOfId {v : BitVec 4} {w : Speed} (h : speedOfId v.toNat = some w) : idByte w = v.setWidth 8 := by
  rw [idByte, ← (speedOfId_eq_some_iff _ _).mp h, BitVec.ofNat_toNat]

/-! ### The responses -/

/-- Settles O24. -/
theorem speedAnswerOutcome : Obligations.SpeedAnswerOutcome := by
  unfold Obligations.SpeedAnswerOutcome
  intro m1 m2 c1 c2 s
  refine ite_handled_eq (ite_congr ?hasTarget (fun _ => rfl) fun _ => ?probe)
  case hasTarget => simp [capsFromBytes]
  case probe =>
    rw [capsFromBytes]
    cases selectTest s.cfg.probePolicy ⟨m1, m2, c1, c2⟩ s.seqTarget <;> rfl

/-- Settles O25. -/
theorem speedAckOutcome : Obligations.SpeedAckOutcome := by
  unfold Obligations.SpeedAckOutcome
  intro s
  refine ite_handled_eq (ite_congr (by simp) (fun _ => ?committed) fun _ => rfl)
  case committed => exact congrArg Host.Outcome.next (finish_commit _ _ _ _)

/-- Settles O26. -/
theorem speedResultOutcome : Obligations.SpeedResultOutcome := by
  unfold Obligations.SpeedResultOutcome
  intro p s
  refine ite_handled_eq (ite_congr rfl (fun _ => rfl) fun _ => ?badPattern)
  case badPattern => exact congrArg Host.Outcome.next (finish_commit_x1 _ _)

/-- Settles O27. -/
theorem speedResult2Outcome : Obligations.SpeedResult2Outcome := by
  unfold Obligations.SpeedResult2Outcome
  exact fun s => ite_handled_eq (congrArg Host.Outcome.next (finish_commit _ _ _ _))

/-! ### The SEQ phase -/

theorem seqTime_settling {s : State} (hseq : s.seqState = .settle) (htime : elapsed s.now s.seqT0 < s.cfg.settleMs) :
    seqTime s = .next s := by
  simp [seqTime, hseq, Nat.not_le.mpr htime]

/-- Settles O28: the rule waits where the elapsed time is not yet `SETTLE_MS`. -/
theorem settleEndsWithSpeedTest : Obligations.SettleEndsWithSpeedTest := by
  unfold Obligations.SettleEndsWithSpeedTest
  intro s hsettle
  split
  case isTrue hearly => exact seqTime_settling hsettle hearly
  case isFalse hover =>
    rw [seqTime_settled hsettle (Nat.not_lt.mp hover), endSettle, emitFrame_commit]
    rfl

/-- Settles O29, a wait at a time. -/
theorem deadlinesEndTheirWait : Obligations.DeadlinesEndTheirWait := by
  unfold Obligations.DeadlinesEndTheirWait
  intro s
  refine ⟨seqTime_of_idle s, fun h => ?waitAnswer, fun h => ?waitAck, fun h => ?waitResult, fun h => ?waitResult2⟩
  all_goals rw [seqTime, h]
  case waitAnswer => rfl
  case waitAck => rfl
  case waitResult => exact ite_congr rfl (fun _ => congrArg Host.Outcome.next (finish_commit_x1 _ _)) fun _ => rfl
  case waitResult2 => exact ite_congr rfl (fun _ => congrArg Host.Outcome.next (finish_commit_x1 _ _)) fun _ => rfl

/-! ### NEGOTIATE and PUSH -/

/-- Settles O31. -/
theorem negotiateOutcome : Obligations.NegotiateOutcome := by
  unfold Obligations.NegotiateOutcome
  intro v timeout s
  refine ite_originates_eq rfl ?_
  rw [fromField]
  cases speedOfId v.toNat <;> rfl

/-- Settles O32: the id that is sent is the command's own field. -/
theorem pushOutcome : Obligations.PushOutcome := by
  unfold Obligations.PushOutcome
  intro v s
  refine ite_originates_eq rfl ?_
  rw [fromField]
  cases hv : speedOfId v.toNat with
  | none => rfl
  | some w =>
    simp only [commit_emitFrame, idByte_of_speedOfId hv]
    rfl

end Sys2Proof.Machine
end

section
/-! PROOF. How a negotiation ends: each phase of a step either lets it go on, with no NEG_DONE, or ends it in one of three
ways (44_master.md R193). Only one phase of a step can end it, since an IDLE sequencer has no reply and no time rule, and
a command is taken only in a step that starts in IDLE. -/

namespace Sys2Proof.Machine

/-! ### Counting `NEG_DONE` -/

theorem not_mem_of_negDoneCount_eq_zero {es : List Event} (h : negDoneCount es = 0) (ok : Bool) (c : Cause) :
    Event.negDone ok c ∉ es :=
  fun hmem => List.countP_eq_zero.mp h _ hmem rfl

/-! ### What a part of a step does to a negotiation -/

/-- The causes after which the negotiation leaves the speed alone (44_master.md R182, R188, R189). -/
def leavesSpeed (c : Cause) : Prop := c = .noAnswer ∨ c = .speedUnsupported ∨ c = .noProbeSpeed ∨ c = .noAck

/-- The causes of a test that failed (44_master.md R186, R190, R191). -/
def failsTest (c : Cause) : Prop := c = .testTimeout ∨ c = .test2Timeout ∨ c = .testBadPattern

/-- The causes that a deadline gives (44_master.md R188 to R191). -/
def isDeadline (c : Cause) : Prop := c = .noAnswer ∨ c = .noAck ∨ c = .testTimeout ∨ c = .test2Timeout

/-- The sequencer waits for a reply that it needs before the first commit of a negotiation. -/
def awaitsReply (s : State) : Prop := s.seqState = .waitAnswer ∨ s.seqState = .waitAck

/-- What the end of a negotiation commits, and the events it adds, from `s` to `t`. -/
inductive NegotiationResult (s t : State) : Bool → Cause → Prop
  | success : t.currentSpeed = s.seqTarget →
      t.events = s.events ++ [.baud (baudFor s.seqTarget), .speedChanged s.seqTarget, .negDone true .ok] →
      NegotiationResult s t true .ok
  | speedLeft {c : Cause} : leavesSpeed c → awaitsReply s → t.currentSpeed = s.currentSpeed →
      t.events = s.events ++ [.negDone false c] → NegotiationResult s t false c
  | reverted {c : Cause} : failsTest c → t.currentSpeed = .x1 →
      t.events = s.events ++ [.baud 31250, .speedChanged .x1, .negDone false c] → NegotiationResult s t false c

/-- The negotiation in progress in `s` ends in `t`. -/
structure EndsNegotiation (s t : State) (ok : Bool) (c : Cause) : Prop where
  wasBusy : s.seqState ≠ .idle
  isIdle : t.seqState = .idle
  result : NegotiationResult s t ok c

/-- No negotiation ends from `s` to `t`; one may begin. -/
structure KeepsNegotiation (s t : State) : Prop where
  negDoneCount : negDoneCount t.events = negDoneCount s.events
  staysBusy : s.seqState ≠ .idle → t.seqState ≠ .idle

theorem ne_idle_of_awaitsReply {s : State} (h : awaitsReply s) : s.seqState ≠ .idle := by
  rcases h with h | h <;> simp [h]

section
variable {s t u : State} {ok : Bool} {c : Cause}

theorem KeepsNegotiation.refl (s : State) : KeepsNegotiation s s := ⟨rfl, id⟩

theorem KeepsNegotiation.trans (h : KeepsNegotiation s t) (k : KeepsNegotiation t u) : KeepsNegotiation s u :=
  ⟨k.negDoneCount.trans h.negDoneCount, k.staysBusy ∘ h.staysBusy⟩

/-! ### The ways to end -/

theorem endsNegotiation_success (hbusy : s.seqState ≠ .idle) :
    EndsNegotiation s (finish true .ok (commit s.seqTarget s)) true .ok :=
  ⟨hbusy, rfl, .success rfl (by simp)⟩

theorem endsNegotiation_speedLeft (hc : leavesSpeed c) (hwaits : awaitsReply s) :
    EndsNegotiation s (finish false c s) false c :=
  ⟨ne_idle_of_awaitsReply hwaits, rfl, .speedLeft hc hwaits rfl rfl⟩

theorem endsNegotiation_reverted (hc : failsTest c) (hbusy : s.seqState ≠ .idle) :
    EndsNegotiation s (finish false c (commit .x1 s)) false c :=
  ⟨hbusy, rfl, .reverted hc rfl (by simp [baudFor])⟩

/-! ### The phases -/

theorem negotiation_of_frameEffect (h : FrameEffect s t) :
    KeepsNegotiation s t ∨ ∃ ok c, EndsNegotiation s t ok c := by
  cases h with
  | answerRefused c _ hq hc =>
    exact .inr ⟨_, _, endsNegotiation_speedLeft (by rcases hc with rfl | rfl <;> simp [leavesSpeed]) (.inl hq)⟩
  | ackedWithoutTest _ hq => exact .inr ⟨_, _, endsNegotiation_success (by simp [hq])⟩
  | resultBad _ hq => exact .inr ⟨_, _, endsNegotiation_reverted (by simp [failsTest]) (by simp [hq])⟩
  | result2 _ hq => exact .inr ⟨_, _, endsNegotiation_success (by simp [hq])⟩
  | _ => exact .inl ⟨by simp [negDoneCount], by simp⟩

/-- A byte outside the end of a frame does nothing to a negotiation. -/
theorem negotiation_of_rxEffect {rx : Bool} (h : rxEffect rx s t) :
    KeepsNegotiation s t ∨ ∃ ok c, EndsNegotiation s t ok c := by
  cases rx with
  | false => exact .inl ((show t = s from h) ▸ .refl s)
  | true =>
    cases (h : ByteEffect s t) with
    | ended _ _ _ hframe =>
      refine (negotiation_of_frameEffect hframe).imp (fun hkeeps => ⟨hkeeps.negDoneCount, hkeeps.staysBusy⟩) ?_
      rintro ⟨ok, c, hbusy, hidle, hresult⟩
      refine ⟨ok, c, hbusy, hidle, ?_⟩
      cases hresult with
      | success hspeed hevents => exact .success hspeed hevents
      | speedLeft hc hwaits hspeed hevents => exact .speedLeft hc hwaits hspeed hevents
      | reverted hc hspeed hevents => exact .reverted hc hspeed hevents
    | _ => exact .inl ⟨by simp, by simp⟩

theorem negotiation_of_seqEffect (h : SeqEffect s t) :
    KeepsNegotiation s t ∨ ∃ ok c, isDeadline c ∧ EndsNegotiation s t ok c := by
  cases h with
  | waits => exact .inl (.refl s)
  | noAnswer hq =>
    exact .inr ⟨_, _, by simp [isDeadline], endsNegotiation_speedLeft (by simp [leavesSpeed]) (.inl hq)⟩
  | noAck hq => exact .inr ⟨_, _, by simp [isDeadline], endsNegotiation_speedLeft (by simp [leavesSpeed]) (.inr hq)⟩
  | settled => exact .inl ⟨by simp [negDoneCount], by simp⟩
  | testTimeout hq =>
    exact .inr ⟨_, _, by simp [isDeadline], endsNegotiation_reverted (by simp [failsTest]) (by simp [hq])⟩
  | test2Timeout hq =>
    exact .inr ⟨_, _, by simp [isDeadline], endsNegotiation_reverted (by simp [failsTest]) (by simp [hq])⟩

theorem keepsNegotiation_of_cmdEffect {cmd : Bool} {op : BitVec 3} (h : cmdEffect cmd op s t) : KeepsNegotiation s t := by
  cases cmd with
  | false => exact (show t = s from h) ▸ .refl s
  | true => cases (h : CommandEffect s op t) <;> exact ⟨by simp [negDoneCount], by simp⟩

/-! ### The three phases -/

/-- What the phases of a step do to a negotiation, from `s` to `t`, where `s1` is the state after the RX phase. -/
inductive PhasesOutcome (s s1 t : State) : Prop
  | goesOn : KeepsNegotiation s t → PhasesOutcome s s1 t
  | endedByFrame {ok : Bool} {c : Cause} : EndsNegotiation s t ok c → PhasesOutcome s s1 t
  | endedByDeadline {ok : Bool} {c : Cause} : s.seqState ≠ .idle → KeepsNegotiation s s1 → isDeadline c →
      EndsNegotiation s1 t ok c → PhasesOutcome s s1 t

theorem eq_of_rxEffect_not_taken {rx : Bool} (h : rxEffect rx s t) (hrx : rx = false) : t = s := by
  subst hrx
  exact h

/-- A negotiation in progress keeps commands back (10_state.md R41). -/
theorem eq_of_cmdEffect_busy {cmd : Bool} {op : BitVec 3} {s0 : State} (hready : cmd = true → s0.seqState = .idle)
    (hbusy : s0.seqState ≠ .idle) (h : cmdEffect cmd op s t) : t = s := by
  obtain rfl : cmd = false := Bool.eq_false_of_not_eq_true (hbusy ∘ hready)
  exact h

theorem phasesOutcome {s1 s2 : State} {rx cmd : Bool} {op : BitVec 3} (hready : cmd = true → s.seqState = .idle)
    (hrx : rxEffect rx s s1) (hseq : SeqEffect s1 s2) (hcmd : cmdEffect cmd op s2 t) : PhasesOutcome s s1 t := by
  rcases negotiation_of_rxEffect hrx with hrxKeeps | ⟨ok, c, hends⟩
  · rcases negotiation_of_seqEffect hseq with hseqKeeps | ⟨ok, c, hc, hends⟩
    · exact .goesOn ((hrxKeeps.trans hseqKeeps).trans (keepsNegotiation_of_cmdEffect hcmd))
    · have hbusy : s.seqState ≠ .idle := mt (idle_of_rxEffect hrx) hends.wasBusy
      obtain rfl : t = s2 := eq_of_cmdEffect_busy hready hbusy hcmd
      exact .endedByDeadline hbusy hrxKeeps hc hends
  · obtain rfl : s2 = s1 := eq_of_seqEffect_idle hseq hends.isIdle
    obtain rfl : t = s2 := eq_of_cmdEffect_busy hready hends.wasBusy hcmd
    exact .endedByFrame hends

end

/-! ### The end of a negotiation, read off its events -/

section
variable {s t : State} {ok : Bool} {c : Cause}

theorem NegotiationResult.negDoneCount_eq (h : NegotiationResult s t ok c) :
    negDoneCount t.events = negDoneCount s.events + 1 := by
  cases h with
  | success _ hevents => rw [hevents, negDoneCount_append]; rfl
  | speedLeft _ _ _ hevents => rw [hevents, negDoneCount_append]; rfl
  | reverted _ _ hevents => rw [hevents, negDoneCount_append]; rfl

/-- The one NEG_DONE is that of the result. -/
theorem NegotiationResult.eq_of_mem (h : NegotiationResult s t ok c)
    (hnone : negDoneCount s.events = 0) {ok' : Bool} {c' : Cause}
    (hmem : Event.negDone ok' c' ∈ t.events) : ok' = ok ∧ c' = c := by
  have hold : Event.negDone ok' c' ∉ s.events := not_mem_of_negDoneCount_eq_zero hnone ok' c'
  cases h with
  | success _ hevents => simpa [hevents, hold] using hmem
  | speedLeft _ _ _ hevents => simpa [hevents, hold] using hmem
  | reverted _ _ hevents => simpa [hevents, hold] using hmem

theorem not_leavesSpeed_ok : ¬ leavesSpeed .ok := by simp [leavesSpeed]

theorem not_failsTest_ok : ¬ failsTest .ok := by simp [failsTest]

theorem not_failsTest_of_leavesSpeed (h : leavesSpeed c) : ¬ failsTest c := by
  rcases h with rfl | rfl | rfl | rfl <;> simp [failsTest]

theorem NegotiationResult.ok_iff (h : NegotiationResult s t ok c) : ok = true ↔ c = .ok := by
  cases h with
  | success => simp
  | speedLeft hc => simpa using fun h : c = .ok => not_leavesSpeed_ok (h ▸ hc)
  | reverted hc => simpa using fun h : c = .ok => not_failsTest_ok (h ▸ hc)

theorem NegotiationResult.currentSpeed_of_ok (h : NegotiationResult s t ok c) (hok : c = .ok) :
    t.currentSpeed = s.seqTarget := by
  cases h with
  | success hspeed => exact hspeed
  | speedLeft hc => exact absurd (hok ▸ hc) not_leavesSpeed_ok
  | reverted hc => exact absurd (hok ▸ hc) not_failsTest_ok

theorem NegotiationResult.reverts (h : NegotiationResult s t ok c) (hfails : failsTest c) :
    t.currentSpeed = .x1 ∧ [.baud 31250, .speedChanged .x1, .negDone false c] <:+ t.events := by
  cases h with
  | success => exact absurd hfails not_failsTest_ok
  | speedLeft hc => exact absurd hfails (not_failsTest_of_leavesSpeed hc)
  | reverted _ hspeed hevents => exact ⟨hspeed, s.events, hevents.symm⟩

theorem NegotiationResult.leaves (h : NegotiationResult s t ok c) (hleaves : leavesSpeed c) :
    awaitsReply s ∧ t.currentSpeed = s.currentSpeed := by
  cases h with
  | success => exact absurd hleaves not_leavesSpeed_ok
  | speedLeft _ hwaits hspeed => exact ⟨hwaits, hspeed⟩
  | reverted hc => exact absurd hc (not_failsTest_of_leavesSpeed hleaves)

end

/-! ### The obligations -/

theorem busy_eq_false_iff (s : State) : busy s = false ↔ s.seqState = .idle := bne_eq_false_iff_eq

/-- Settles O55: the step begins with no events, and one phase at most ends the negotiation. -/
theorem negotiationEndsInOneNegDone : Obligations.NegotiationEndsInOneNegDone := by
  unfold Obligations.NegotiationEndsInOneNegDone
  intro s t hstep hrst
  simp only [busy_iff, busy_eq_false_iff]
  cases effect_of_step s t hstep with
  | reset hreset => simp [hrst] at hreset
  | stalled => simp [negDoneCount]
  | ran s1 s2 s3 _ _ hrx hseq hcmd =>
    rcases phasesOutcome (by simp [cmdReady]) hrx hseq hcmd with hkeeps | hends | ⟨hbusy, hkeeps, -, hends⟩
    · have hgoesOn : ¬ (s.seqState ≠ .idle ∧ s3.seqState = .idle) := by simpa using hkeeps.staysBusy
      exact hkeeps.negDoneCount.trans (if_neg hgoesOn).symm
    · have hended : s.seqState ≠ .idle ∧ s3.seqState = .idle := ⟨by simpa using hends.wasBusy, hends.isIdle⟩
      exact hends.result.negDoneCount_eq.trans (if_pos hended).symm
    · have hended : s.seqState ≠ .idle ∧ s3.seqState = .idle := ⟨by simpa using hbusy, hends.isIdle⟩
      have hcount : negDoneCount s3.events = 1 := by rw [hends.result.negDoneCount_eq, hkeeps.negDoneCount]; rfl
      exact hcount.trans (if_pos hended).symm

/-- Settles O54: the event tells which result the negotiation had, and which phase ended it. -/
theorem negotiationOutcomeFixesTheSpeed : Obligations.NegotiationOutcomeFixesTheSpeed := by
  unfold Obligations.NegotiationOutcomeFixesTheSpeed
  intro s t ok c hstep hrst hmem
  cases effect_of_step s t hstep with
  | reset hreset => simp [hrst] at hreset
  | stalled => simp at hmem
  | ran s1 s2 s3 _ _ hrx hseq hcmd =>
    rw [pushFifo_events, popFifo_events] at hmem
    rcases phasesOutcome (by simp [cmdReady]) hrx hseq hcmd with hkeeps | hends | ⟨hbusy, hkeeps, hdeadline, hends⟩
    · exact absurd hmem (not_mem_of_negDoneCount_eq_zero hkeeps.negDoneCount ok c)
    · obtain ⟨rfl, rfl⟩ := hends.result.eq_of_mem rfl hmem
      refine ⟨hends.isIdle, hends.result.ok_iff, fun hc => ?_, hends.result.reverts, fun hc => ?_⟩
      · simpa using hends.result.currentSpeed_of_ok hc
      · have hleaves : leavesSpeed c := by unfold leavesSpeed; tauto
        simpa using (hends.result.leaves hleaves).2
    · obtain ⟨rfl, rfl⟩ := hends.result.eq_of_mem hkeeps.negDoneCount hmem
      refine ⟨hends.isIdle, hends.result.ok_iff, fun hc => ?_, hends.result.reverts, fun hc => ?_⟩
      · simp [hc, isDeadline] at hdeadline
      · rcases hc with rfl | rfl | ⟨hc, hnotTaken⟩
        · simp [isDeadline] at hdeadline
        · simp [isDeadline] at hdeadline
        · obtain ⟨-, -, -, htaken, -⟩ := frame_of_phases hrx hseq hcmd
          obtain rfl := eq_of_rxEffect_not_taken hrx (htaken.symm.trans hnotTaken)
          have hleaves : leavesSpeed c := by unfold leavesSpeed; tauto
          simpa using (hends.result.leaves hleaves).2

end Sys2Proof.Machine
end

section
/-! PROOF. The sequencer's moves (44_master.md R195): each phase makes at most one, and a wait that the RX phase has just
entered is not ended by the SEQ phase, since no time has passed in it. -/

namespace Sys2Proof.Machine

theorem sequencerPath_self (q : SeqState) : sequencerPath q q = true := by simp [sequencerPath]

/-- The sequencer is in IDLE, or in a wait that starts now (10_state.md R32). -/
def entersWaitOrIdle (s : State) : Prop := s.seqState = .idle ∨ s.seqT0 = s.now

/-- A phase's move: none, or one of the drawn ones, into IDLE or into a wait that starts now. -/
def MovesOnce (s t : State) : Prop :=
  t.seqState = s.seqState ∨ (sequencerPath s.seqState t.seqState = true ∧ entersWaitOrIdle t)

section
variable {s t : State}

theorem sequencerPath_of_movesOnce (h : MovesOnce s t) : sequencerPath s.seqState t.seqState = true := by
  rcases h with h | ⟨h, -⟩
  · rw [h, sequencerPath_self]
  · exact h

theorem movesOnce_of_frameEffect (h : FrameEffect s t) : MovesOnce s t := by
  cases h with
  | answerRefused _ _ hq => exact .inr ⟨by rw [hq]; rfl, .inl rfl⟩
  | negotiationRequested _ _ _ hq => exact .inr ⟨by rw [hq]; rfl, .inr rfl⟩
  | ackedWithoutTest _ hq => exact .inr ⟨by rw [hq]; rfl, .inl rfl⟩
  | ackedForTest _ hq => exact .inr ⟨by rw [hq]; rfl, .inr rfl⟩
  | resultGood _ hq => exact .inr ⟨by rw [hq]; rfl, .inr rfl⟩
  | resultBad _ hq => exact .inr ⟨by rw [hq]; rfl, .inl rfl⟩
  | result2 _ hq => exact .inr ⟨by rw [hq]; rfl, .inl rfl⟩
  | _ => exact .inl rfl

theorem movesOnce_of_rxEffect {rx : Bool} (h : rxEffect rx s t) : MovesOnce s t := by
  cases rx with
  | false => exact .inl (congrArg State.seqState (show t = s from h))
  | true =>
    cases (h : ByteEffect s t) with
    | ended _ _ _ hframe => exact (movesOnce_of_frameEffect hframe :)
    | _ => exact .inl (by simp)

theorem sequencerPath_of_seqEffect (h : SeqEffect s t) : sequencerPath s.seqState t.seqState = true := by
  cases h with
  | waits => exact sequencerPath_self _
  | noAnswer hq => rw [hq]; rfl
  | noAck hq => rw [hq]; rfl
  | settled hq => rw [hq]; rfl
  | testTimeout hq => rw [hq]; rfl
  | test2Timeout hq => rw [hq]; rfl

/-- No time rule acts where nothing is awaited, or where the wait starts now (44_master.md R185, R188 to R191). -/
theorem eq_of_seqEffect_entered (h : SeqEffect s t) (hsettle : 0 < s.cfg.settleMs) (hs : entersWaitOrIdle s) : t = s := by
  rcases hs with hidle | hnow
  · exact eq_of_seqEffect_idle h hidle
  · have helapsed : elapsed s.now s.seqT0 = 0 := by rw [hnow, elapsed_self]
    cases h with
    | waits => rfl
    | _ => omega

/-- A command moves the sequencer out of IDLE only by NEGOTIATE, which a slave rejects (44_master.md R180). -/
theorem seqState_of_cmdEffect {cmd : Bool} {op : BitVec 3} (h : cmdEffect cmd op s t) :
    t.seqState = s.seqState ∨ (t.seqState = .waitAnswer ∧ s.cfg.role ≠ .slave) := by
  cases cmd with
  | false => exact .inl (congrArg State.seqState (show t = s from h))
  | true =>
    cases (h : CommandEffect s op t) with
    | negotiationStarted v n _ hrole => exact .inr ⟨rfl, (mayOriginate_iff _).mp hrole⟩
    | _ => exact .inl rfl

/-- From IDLE only the CMD phase can move, else only the other two, of which one moves. -/
theorem sequencer_of_phases {s1 s2 : State} {rx cmd : Bool} {op : BitVec 3} (hsettle : 0 < s.cfg.settleMs)
    (hready : cmd = true → s.seqState = .idle) (hrx : rxEffect rx s s1) (hseq : SeqEffect s1 s2)
    (hcmd : cmdEffect cmd op s2 t) :
    sequencerPath s.seqState t.seqState = true ∧ (s.cfg.role = .slave → s.seqState = .idle → t.seqState = .idle) := by
  obtain ⟨hcfg1, -⟩ := frame_of_rxEffect hrx
  by_cases hidle : s.seqState = .idle
  · have hidle1 := idle_of_rxEffect hrx hidle
    obtain rfl : s2 = s1 := eq_of_seqEffect_idle hseq hidle1
    rw [hidle]
    rcases seqState_of_cmdEffect hcmd with hsame | ⟨hstarted, hrole⟩
    · rw [hsame, hidle1]
      exact ⟨rfl, fun _ _ => rfl⟩
    · rw [hstarted]
      exact ⟨rfl, fun hslave => absurd (hcfg1 ▸ hslave) hrole⟩
  · obtain rfl : t = s2 := eq_of_cmdEffect_busy hready hidle hcmd
    refine ⟨?_, fun _ h => absurd h hidle⟩
    rcases movesOnce_of_rxEffect hrx with hsame | ⟨hpath, hentered⟩
    · rw [← hsame]
      exact sequencerPath_of_seqEffect hseq
    · obtain rfl : t = s1 := eq_of_seqEffect_entered hseq (hcfg1 ▸ hsettle) hentered
      exact hpath

end

/-- Settles O52; a stall moves nothing. -/
theorem sequencerMovesOnlyAlongItsPaths : Obligations.SequencerMovesOnlyAlongItsPaths := by
  unfold Obligations.SequencerMovesOnlyAlongItsPaths
  intro s t hstep hrst hsettle
  cases effect_of_step s t hstep with
  | reset hreset => simp [hrst] at hreset
  | stalled => simp [sequencerPath_self]
  | ran s1 s2 s3 _ _ hrx hseq hcmd =>
    simpa using sequencer_of_phases (by simpa using hsettle) (by simp [cmdReady]) hrx hseq hcmd

end Sys2Proof.Machine
end

section
/-! PROOF. A negotiation that fails with cause 1 to 4 has committed nothing, unless a frame of 45_slave.md did. Read backwards:
a state that awaits a reply, or has just failed so, comes by an undisturbed step from one that awaits a reply at the same
speed; and so on back to the first state. -/

namespace Sys2Proof.Machine

/-! ### What an undisturbed RX phase commits -/

/-- Of the frames whose rules are not in 45_slave.md, those that commit end the negotiation (44_master.md R184, R186, R187). -/
theorem currentSpeed_or_idle_of_dispatchFrame {i : Instr} {s t : State} (hi : slaveRuleCommits i = false)
    (h : dispatchFrame i s = .next t) : t.currentSpeed = s.currentSpeed ∨ t.seqState = .idle := by
  cases i with
  | speedNegotiate => cases hi
  | speedTest => cases hi
  | speedTest2 => cases hi
  | speedPush => cases hi
  | speedRequest =>
    simp only [dispatchFrame, execSpeedRequest] at h
    split at h <;> cases h <;> exact .inl rfl
  | speedAnswer m1 m2 c1 c2 =>
    simp only [dispatchFrame, execSpeedAnswer] at h
    split at h
    · split at h
      · cases h; exact .inl rfl
      · split at h <;> cases h <;> exact .inl rfl
    · cases h; exact .inl rfl
  | speedAck =>
    simp only [dispatchFrame, execSpeedAck] at h
    split at h
    · split at h
      · cases h; exact .inr rfl
      · cases h; exact .inl rfl
    · cases h; exact .inl rfl
  | speedResult p =>
    simp only [dispatchFrame, execSpeedResult] at h
    split at h
    · split at h
      · cases h; exact .inl rfl
      · cases h; exact .inr rfl
    · cases h; exact .inl rfl
  | speedResult2 =>
    simp only [dispatchFrame, execSpeedResult2] at h
    split at h
    · cases h; exact .inr rfl
    · cases h; exact .inl rfl
  | _ => cases h; exact .inl rfl

/-- The byte completes no frame whose rule in 45_slave.md can commit (log 19). -/
def QuietByte (b : Byte) (s : State) : Prop :=
  ∀ i, b = 0xF7 → s.rxLen ≠ 0 → s.rxLen ≠ s.cfg.rxBufCap →
    decodeFrame (candidate (storeByte 0xF7 s)) = .accept i → slaveRuleCommits i = false

section
variable {s t : State}

theorem currentSpeed_or_idle_of_byte {b : Byte} (hquiet : QuietByte b s) (h : exec (decodeByte b) s = .next t) :
    t.currentSpeed = s.currentSpeed ∨ t.seqState = .idle := by
  by_cases hF0 : b = 0xF0
  · subst hF0
    cases h
    exact .inl rfl
  by_cases hF7 : b = 0xF7
  · subst hF7
    rw [exec_decodeByte_F7] at h
    by_cases hout : s.rxLen = 0
    · rw [execRxF7_of_outside hout] at h
      cases h
      exact .inl rfl
    by_cases hfull : s.rxLen = s.cfg.rxBufCap
    · rw [execRxF7_of_full hout hfull] at h
      cases h
      exact .inl rfl
    rw [execRxF7, if_neg hout, if_neg hfull, endFrame] at h
    split at h
    case h_1 i haccept => exact (currentSpeed_or_idle_of_dispatchFrame (hquiet i rfl hout hfull haccept) h :)
    case h_2 =>
      cases h
      exact .inl rfl
  · rw [exec_decodeByte_of_body hF0 hF7] at h
    cases h
    simp

theorem currentSpeed_or_idle_of_rxPhase {rx : Bool} {b : Byte} (hquiet : rx = true → QuietByte b s)
    (h : rxPhase rx b s = .next t) : t.currentSpeed = s.currentSpeed ∨ t.seqState = .idle := by
  cases rx with
  | false =>
    cases h
    exact .inl rfl
  | true => exact currentSpeed_or_idle_of_byte (hquiet rfl) h

/-! ### The step before -/

/-- No commit of a negotiation that fails with cause 1 to 4 can lie behind the state. -/
def beforeAnyCommit (s : State) : Prop := awaitsReply s ∨ ∃ c, leavesSpeed c ∧ Event.negDone false c ∈ s.events

/-- Replies are awaited only from NEGOTIATE on (44_master.md R195). -/
theorem awaitsReply_of_sequencerPath (hpath : sequencerPath s.seqState t.seqState = true) (hbusy : s.seqState ≠ .idle)
    (ht : awaitsReply t) : awaitsReply s := by
  unfold awaitsReply at ht ⊢
  cases hs : s.seqState with
  | idle => exact absurd hs hbusy
  | waitAnswer => exact .inl rfl
  | waitAck => exact .inr rfl
  | _ => rcases ht with ht | ht <;> simp [hs, ht, sequencerPath] at hpath

theorem eq_of_seqEffect_awaitsReply (h : SeqEffect s t) (ht : awaitsReply t) : t = s := by
  cases h with
  | waits => rfl
  | _ => simp [awaitsReply] at ht

/-- Whichever phase brought `t` about, the state it acted on awaited a reply at the same speed. -/
theorem awaitsReply_of_phases {s1 s2 : State} {rx cmd : Bool} {op : BitVec 3} (hempty : s.events = [])
    (hbusy : s.seqState ≠ .idle) (hready : cmd = true → s.seqState = .idle)
    (hquiet : s1.currentSpeed = s.currentSpeed ∨ s1.seqState = .idle) (hrx : rxEffect rx s s1) (hseq : SeqEffect s1 s2)
    (hcmd : cmdEffect cmd op s2 t) (ht : beforeAnyCommit t) : awaitsReply s ∧ t.currentSpeed = s.currentSpeed := by
  have hafterRx (h1 : awaitsReply s1) : awaitsReply s ∧ s1.currentSpeed = s.currentSpeed :=
    ⟨awaitsReply_of_sequencerPath (sequencerPath_of_movesOnce (movesOnce_of_rxEffect hrx)) hbusy h1,
      hquiet.resolve_right (ne_idle_of_awaitsReply h1)⟩
  have hnone : negDoneCount s.events = 0 := by rw [hempty]; rfl
  rcases phasesOutcome hready hrx hseq hcmd with hkeeps | hends | ⟨-, hkeeps, -, hends⟩
  · obtain rfl : t = s2 := eq_of_cmdEffect_busy hready hbusy hcmd
    rcases ht with ht | ⟨c, -, hmem⟩
    · obtain rfl : t = s1 := eq_of_seqEffect_awaitsReply hseq ht
      exact hafterRx ht
    · exact absurd hmem (not_mem_of_negDoneCount_eq_zero (hkeeps.negDoneCount.trans hnone) _ _)
  · rcases ht with ht | ⟨c, hc, hmem⟩
    · exact absurd hends.isIdle (ne_idle_of_awaitsReply ht)
    · obtain ⟨-, rfl⟩ := hends.result.eq_of_mem hnone hmem
      exact hends.result.leaves hc
  · rcases ht with ht | ⟨c, hc, hmem⟩
    · exact absurd hends.isIdle (ne_idle_of_awaitsReply ht)
    · obtain ⟨-, rfl⟩ := hends.result.eq_of_mem (hkeeps.negDoneCount.trans hnone) hmem
      obtain ⟨hwaits1, hspeed⟩ := hends.result.leaves hc
      obtain ⟨hwaits, hspeed1⟩ := hafterRx hwaits1
      exact ⟨hwaits, hspeed.trans hspeed1⟩

theorem quietByte_of_completedFrame (hquiet : (completedFrame s).any slaveRuleCommits = false)
    (hrst : (currentSample s).rst = false)
    (htaken : ((currentSample s).rxValid && rxReady s) = true) : QuietByte (currentSample s).rxData s := by
  intro i hF7 hin hroom haccept
  obtain ⟨hvalid, hready⟩ := Bool.and_eq_true_iff.mp htaken
  have hcompleted : completedFrame s = some i := by
    rw [completedFrame, haccept, if_pos (by simp [rxReadyPort, hrst, hvalid, hready, hF7, hin, hroom])]
  rw [hcompleted] at hquiet
  exact hquiet

theorem QuietByte.beginStep {b : Byte} (h : QuietByte b s) (n : Ms) (rx cmd : Bool) :
    QuietByte b (beginStep n rx cmd (dropSample s)) := by
  simpa [QuietByte, candidate] using h

/-- The effect of a part of a step is that of the state it answers. -/
theorem holds_of_eq_next {P : State → Prop} {r : Result} (hanswers : ∃ u, r = .next u ∧ P u) (h : r = .next t) : P t := by
  obtain ⟨u, hu, hP⟩ := hanswers
  rw [h] at hu
  cases hu
  exact hP

/-- A stall changes neither the sequencer nor the speed; any other step is its phases. -/
theorem awaitsReply_of_step (hstep : step s = .next t) (hrst : (currentSample s).rst = false)
    (hbusy : s.seqState ≠ .idle) (hquiet : (completedFrame s).any slaveRuleCommits = false) (ht : beforeAnyCommit t) :
    awaitsReply s ∧ t.currentSpeed = s.currentSpeed := by
  cases hspace : space (dropSample s) with
  | false =>
    rw [step, stepOn_of_no_space hrst hspace] at hstep
    cases hstep
    simpa [beforeAnyCommit, awaitsReply] using ht
  | true =>
    rw [step, stepOn_of_space hrst hspace] at hstep
    obtain ⟨s3, hphases, hfifo⟩ := (andThen_eq_next _ _ _).mp hstep
    obtain ⟨s1, hrx, hrest⟩ := (andThen_eq_next _ _ _).mp hphases
    obtain ⟨s2, hseq, hcmd⟩ := (andThen_eq_next _ _ _).mp hrest
    cases hfifo
    have hbyte := currentSpeed_or_idle_of_rxPhase
      (fun htaken => (quietByte_of_completedFrame hquiet hrst (by simpa using htaken)).beginStep _ _ _) hrx
    have hkept := awaitsReply_of_phases rfl (by simpa using hbusy) (by simp [cmdReady]) hbyte
      (holds_of_eq_next (rxPhase_effect _ _ _) hrx) (holds_of_eq_next (seqTime_effect s1) hseq)
      (holds_of_eq_next (cmdPhase_effect _ _ _) hcmd) ht
    simpa [awaitsReply] using hkept

end

/-! ### The run -/

theorem undisturbed_succ {k : Nat} {s t : State} (hstep : step s = .next t) (h : undisturbed (k + 1) s = true) :
    s.seqState ≠ .idle ∧ (currentSample s).rst = false ∧ (completedFrame s).any slaveRuleCommits = false ∧
      undisturbed k t = true := by
  simpa [undisturbed, hstep, busy_iff, and_assoc] using h

/-- The step before, as many times as there are steps. -/
theorem currentSpeed_of_undisturbed {k : Nat} {s t : State} (hquiet : undisturbed k s = true)
    (hrun : runSteps k s = .next t) (ht : beforeAnyCommit t) : beforeAnyCommit s ∧ t.currentSpeed = s.currentSpeed := by
  induction k generalizing s with
  | zero =>
    cases hrun
    exact ⟨ht, rfl⟩
  | succ k ih =>
    obtain ⟨u, hstep, hrest⟩ := (andThen_eq_next _ _ _).mp hrun
    obtain ⟨hbusy, hrst, hframe, hquietRest⟩ := undisturbed_succ hstep hquiet
    obtain ⟨hu, hspeedRest⟩ := ih hquietRest hrest
    obtain ⟨hwaits, hspeed⟩ := awaitsReply_of_step hstep hrst hbusy hframe hu
    exact ⟨.inl hwaits, hspeedRest.trans hspeed⟩

/-- Settles O56, from the last step back to the first state. -/
theorem failedNegotiationLeavesTheSpeed : Obligations.FailedNegotiationLeavesTheSpeed := by
  unfold Obligations.FailedNegotiationLeavesTheSpeed
  intro k s t c _ hquiet hrun hmem hc
  exact (currentSpeed_of_undisturbed hquiet hrun (.inr ⟨c, hc, hmem⟩)).2

end Sys2Proof.Machine
end

section
/-! PROOF. The moves of `test_state` (45_slave.md R216). Only a frame of 45_slave.md, in the RX phase, and the watchdog, in the
CMD phase, move it. A step begins with no events and its phases only append to them, so what a frame's rule emits stands
first. -/

namespace Sys2Proof.Machine

/-! ### What commits, and what only appends -/

/-- The events of a commit (43_engine_common.md R164). -/
def commitEvents (v : Speed) : List Event := [.baud (baudFor v), .speedChanged v]

theorem commitEvents_isInfix_commit (v : Speed) (s : State) : commitEvents v <:+: (commit v s).events :=
  (List.suffix_append s.events (commitEvents v)).isInfix

section
variable {s t u : State}

theorem events_isPrefix_of_seqEffect (h : SeqEffect s t) : s.events <+: t.events := by
  cases h <;> simp

theorem events_isPrefix_of_commandEffect {op : BitVec 3} (h : CommandEffect s op t) : s.events <+: t.events := by
  cases h <;> simp [rejectCommand]

theorem testState_of_seqEffect (h : SeqEffect s t) : t.testState = s.testState := by
  cases h <;> rfl

/-! ### The moves -/

/-- How `test_state` moves from `s`, where a step begins, to `t`, where `rx` says whether the step takes a byte (45_slave.md
R216). -/
inductive TestStateMove (rx : Bool) (s t : State) : Prop
  | stays : t.testState = s.testState → TestStateMove rx s t
  | toAwaitingTest : rx = true → mayAnswer s.cfg.role = true → t.testState = .awaitingTest →
      (frameBytes .speedAck []).map Event.tx <+: t.events → TestStateMove rx s t
  | toAwaitingTest2 : mayAnswer s.cfg.role = true → s.testState = .awaitingTest → t.testState = .awaitingTest2 →
      commitEvents s.pendingTest <+: t.events → TestStateMove rx s t
  | toIdle (v : Speed) : t.testState = .idle → commitEvents v <:+: t.events → TestStateMove rx s t

/-- Of the state where the step begins a move reads the role, `test_state` and the pending test speed only. -/
theorem TestStateMove.of_start {rx : Bool} (h : TestStateMove rx s t) (hcfg : s.cfg = u.cfg)
    (htest : s.testState = u.testState) (hpending : s.pendingTest = u.pendingTest) : TestStateMove rx u t := by
  cases h with
  | stays hstays => exact .stays (hstays.trans htest)
  | toAwaitingTest htaken hrole hto hack => exact .toAwaitingTest htaken (hcfg ▸ hrole) hto hack
  | toAwaitingTest2 hrole hfrom hto hcommit =>
    exact .toAwaitingTest2 (hcfg ▸ hrole) (htest.symm.trans hfrom) hto (hpending ▸ hcommit)
  | toIdle v hto hcommit => exact .toIdle v hto hcommit

/-- What follows a move without another one leaves its events where they stand. -/
theorem TestStateMove.of_append {rx : Bool} (h : TestStateMove rx s t) (htest : u.testState = t.testState)
    (hevents : t.events <+: u.events) : TestStateMove rx s u := by
  cases h with
  | stays hstays => exact .stays (htest.trans hstays)
  | toAwaitingTest htaken hrole hto hack => exact .toAwaitingTest htaken hrole (htest.trans hto) (hack.trans hevents)
  | toAwaitingTest2 hrole hfrom hto hcommit =>
    exact .toAwaitingTest2 hrole hfrom (htest.trans hto) (hcommit.trans hevents)
  | toIdle v hto hcommit => exact .toIdle v (htest.trans hto) (hcommit.trans hevents.isInfix)

/-! ### The phases -/

theorem testStateMove_of_frameEffect (hempty : s.events = []) (h : FrameEffect s t) : TestStateMove true s t := by
  cases h with
  | accepted g => exact .toIdle g rfl (commitEvents_isInfix_commit g _)
  | testAccepted v g hrole => exact .toAwaitingTest rfl hrole rfl (by simp [hempty])
  | testPassed hrole hfrom => exact .toAwaitingTest2 hrole hfrom rfl (by simp [hempty, commitEvents])
  | testFailed => exact .toIdle .x1 rfl (commitEvents_isInfix_commit .x1 _)
  | test2Passed => exact .toIdle s.pendingTarget rfl (commitEvents_isInfix_commit _ _)
  | _ => exact .stays rfl

theorem testStateMove_of_rxEffect {rx : Bool} (hempty : s.events = []) (h : rxEffect rx s t) : TestStateMove rx s t := by
  cases rx with
  | false => exact .stays (congrArg State.testState (show t = s from h))
  | true =>
    cases (h : ByteEffect s t) with
    | ended _ _ _ hframe => exact (testStateMove_of_frameEffect (by simpa using hempty) hframe).of_start rfl rfl rfl
    | _ => exact .stays rfl

theorem TestStateMove.of_seqEffect {rx : Bool} (h : TestStateMove rx s t) (hseq : SeqEffect t u) : TestStateMove rx s u :=
  h.of_append (testState_of_seqEffect hseq) (events_isPrefix_of_seqEffect hseq)

/-- Of the commands only TICK moves `test_state`, where the link is lost (46_host_ops.md R231). -/
theorem TestStateMove.of_cmdEffect {rx cmd : Bool} {op : BitVec 3} (h : TestStateMove rx s t)
    (hcmd : cmdEffect cmd op t u) : TestStateMove rx s u := by
  cases cmd with
  | false => exact (show u = t from hcmd) ▸ h
  | true =>
    have hevents := events_isPrefix_of_commandEffect hcmd
    cases (hcmd : CommandEffect t op u) with
    | linkLost => exact .toIdle .x1 rfl (commitEvents_isInfix_commit .x1 t)
    | _ => exact h.of_append rfl hevents

/-! ### The step -/

theorem testStateMove_of_step (hstep : step s = .next t) (hrst : (currentSample s).rst = false) :
    TestStateMove t.takenRx s t := by
  cases effect_of_step s t hstep with
  | reset hreset => simp [hrst] at hreset
  | stalled => exact .stays (by simp)
  | ran s1 s2 s3 _ _ hrx hseq hcmd =>
    obtain ⟨-, -, -, htaken, -⟩ := frame_of_phases hrx hseq hcmd
    have hphases := ((testStateMove_of_rxEffect rfl hrx).of_seqEffect hseq).of_cmdEffect hcmd
    rw [pushFifo_takenRx, popFifo_takenRx, htaken, beginStep_takenRx]
    have hstart : TestStateMove _ s s3 := hphases.of_start (by simp) (by simp) (by simp)
    exact hstart.of_append rfl (by simp)

theorem testState_eq_idle_of_roleSound (hsound : roleSound s = true) (hmaster : s.cfg.role = .master) :
    s.testState = .idle := by
  simpa [roleSound, hmaster, mayAnswer, mayOriginate] using hsound

end

/-- Settles O53: a move enters one state and has that state's clause; a master can only go back to Idle, where `roleSound`
has it already. -/
theorem testStateMovesOnlyAlongItsPaths : Obligations.TestStateMovesOnlyAlongItsPaths := by
  unfold Obligations.TestStateMovesOnlyAlongItsPaths
  intro s t hstep hrst
  cases testStateMove_of_step hstep hrst with
  | stays hstays => exact ⟨fun hmoves => absurd hstays.symm hmoves, fun _ _ => hstays⟩
  | toAwaitingTest htaken hrole hto hack =>
    have hanswers := (mayAnswer_iff _).mp hrole
    exact ⟨fun _ => ⟨fun _ => ⟨htaken, hanswers, hack⟩, by simp [hto], by simp [hto], (absurd · hanswers)⟩,
      (absurd · hanswers)⟩
  | toAwaitingTest2 hrole hfrom hto hcommit =>
    have hanswers := (mayAnswer_iff _).mp hrole
    exact ⟨fun _ => ⟨by simp [hto], fun _ => ⟨hfrom, hcommit⟩, by simp [hto], (absurd · hanswers)⟩,
      (absurd · hanswers)⟩
  | toIdle v hto hcommit =>
    exact ⟨fun _ => ⟨by simp [hto], by simp [hto], fun _ => ⟨v, hcommit⟩, fun _ => hto⟩,
      fun hmaster hsound => hto.trans (testState_eq_idle_of_roleSound hsound hmaster).symm⟩

end Sys2Proof.Machine
end

section
/-! PROOF. The frames a slave answers, and SpeedPush (45_slave.md R210 to R214): each condition as the statements write it, and
the next state of each branch written out. -/

namespace Sys2Proof.Machine

/-! ### The conditions -/

/-- A master ignores what a slave answers (43_engine_common.md R167; 45_slave.md R215). -/
theorem ite_answers_eq {c : Role} {ignored r r' : Result} (h : r = r') :
    (if mayAnswer c then r else ignored) = if c = .master then ignored else r' := by
  cases c <;> [rfl; exact h; exact h]

/-- A test frame is handled by an answering build in its own test state, and ignored elsewhere (45_slave.md R215). -/
theorem awaited_iff (r : Role) (q w : TestState) : (mayAnswer r && q == w) = true ↔ ¬ (r = .master ∨ q ≠ w) := by
  simp [mayAnswer_iff]

/-- The two branches of a test frame, with the ignored one first. -/
theorem ite_awaited_eq {s : State} {w : TestState} {r r' : Result} (h : r = r') :
    (if mayAnswer s.cfg.role && s.testState == w then r else .next s) =
      if s.cfg.role = .master ∨ s.testState ≠ w then .next s else r' := by
  rw [← h, ← ite_not]
  exact ite_congr (by rw [awaited_iff, not_not]) (fun _ => rfl) (fun _ => rfl)

/-! ### The next states -/

/-- An event right after a frame follows its bytes (R210). -/
theorem emit_emitFrame (e : Event) (c : Command) (p : List Byte) (s : State) :
    emit e (emitFrame c p s) = { s with events := s.events ++ ((frameBytes c p).map Event.tx ++ [e]) } := by
  simp [emit, emitFrame, emitAll]

/-- The Ack, then the commit (R211). -/
theorem acceptDirectly_eq (v : Speed) (s : State) :
    acceptDirectly v s =
      { s with
        currentSpeed := v, testState := .idle,
        events := s.events ++ ((frameBytes .speedAck []).map Event.tx ++ [.baud (baudFor v), .speedChanged v]) } := by
  rw [acceptDirectly, commit_emitFrame]
  rfl

/-! ### The obligations -/

/-- Settles O19. -/
theorem speedRequestIsAnswered : Obligations.SpeedRequestIsAnswered := by
  unfold Obligations.SpeedRequestIsAnswered
  exact fun s => ite_answers_eq (congrArg Host.Outcome.next (emit_emitFrame _ _ _ _))

/-- Settles O20: the target decides first, the test id only on the test path. -/
theorem speedNegotiateOutcome : Obligations.SpeedNegotiateOutcome := by
  unfold Obligations.SpeedNegotiateOutcome
  intro a g s
  refine ite_answers_eq ?_
  cases fromId g with
  | none => rfl
  | some target =>
    refine ite_congr (by simp) (fun _ => rfl) fun _ => ite_congr (by simp) (fun _ => ?direct) fun _ => ?onTestPath
    case direct => exact congrArg Host.Outcome.next (acceptDirectly_eq target s)
    case onTestPath => cases fromId a <;> rfl

/-- Settles O21: the frame of a passed test follows its commit. -/
theorem speedTestOutcome : Obligations.SpeedTestOutcome := by
  unfold Obligations.SpeedTestOutcome
  intro p s
  refine ite_awaited_eq (ite_congr rfl (fun _ => ?passed) fun _ => rfl)
  case passed =>
    rw [emitFrame_commit]
    rfl

/-- Settles O22: the frame of a passed second test precedes its commit. -/
theorem speedTest2Outcome : Obligations.SpeedTest2Outcome := by
  unfold Obligations.SpeedTest2Outcome
  intro s
  refine ite_awaited_eq ?_
  rw [commit_emitFrame]
  rfl

/-- Settles O23: an id that decodes is committed where it is supported. -/
theorem speedPushOutcome : Obligations.SpeedPushOutcome := by
  unfold Obligations.SpeedPushOutcome
  intro x s
  rw [exec, execSpeedPush]
  cases fromId x <;> rfl

end Sys2Proof.Machine
end

section
/-! PROOF. SET_SUPPORTED, TICK, SEND_ACTIVE_SENSE and the reserved operations (46_host_ops.md R230 to R234): the next state of
each operation that changes more than one register or emits, then the checks of each command in their order. -/

namespace Sys2Proof.Machine

/-! ### The next states -/

/-- A rejection is its event alone (R233, R234). -/
theorem rejectCommand_eq (op : BitVec 3) (r : Reason) (s : State) :
    rejectCommand op r s = { s with events := s.events ++ [.cmdRejected op r] } := rfl

/-- The Active Sensing byte and its timestamp, the same for the watchdog and the host's command (R231, R232). -/
theorem emitActiveSense_eq (s : State) :
    emitActiveSense s = { s with lastAsTxTime := s.now, events := s.events ++ [.tx 0xFE] } := rfl

/-- The watchdog's revert: a commit of 1× that also ends a test (R231). -/
theorem setTestState_idle_commit_x1 (s : State) :
    setTestState .idle (commit .x1 s) =
      { s with
        currentSpeed := .x1, testState := .idle, events := s.events ++ [.baud 31250, .speedChanged .x1] } := rfl

/-! ### The obligations -/

/-- Settles O30: the field decodes to the speed that is added, or to none and is rejected. -/
theorem setSupportedOutcome : Obligations.SetSupportedOutcome := by
  unfold Obligations.SetSupportedOutcome
  intro v cert s
  rw [exec, execSetSupported, fromField]
  cases speedOfId v.toNat with
  | none => exact congrArg Host.Outcome.next (rejectCommand_eq 1 .badSpeedId s)
  | some w => rfl

/-- Settles O33: at 1× nothing, and the revert excludes the keep-alive byte. -/
theorem tickOutcome : Obligations.TickOutcome := by
  unfold Obligations.TickOutcome
  intro s
  refine ite_congr rfl (fun _ => rfl) fun _ => ite_congr rfl (fun _ => ?reverts) fun _ =>
    ite_congr rfl (fun _ => ?keepsAlive) fun _ => rfl
  case reverts => exact congrArg Host.Outcome.next (setTestState_idle_commit_x1 s)
  case keepsAlive => exact congrArg Host.Outcome.next (emitActiveSense_eq s)

/-- Settles O34. -/
theorem sendActiveSenseOutcome : Obligations.SendActiveSenseOutcome := by
  unfold Obligations.SendActiveSenseOutcome
  intro s
  refine ite_congr rfl (fun _ => rfl) fun _ => ?away
  case away => exact congrArg Host.Outcome.next (emitActiveSense_eq s)

/-- Settles O35: each reserved operation is its own rejection. -/
theorem reservedOpsAreRejected : Obligations.ReservedOpsAreRejected := by
  unfold Obligations.ReservedOpsAreRejected
  intro s
  have hrejects (op : BitVec 3) := congrArg (Host.Outcome.next : State → Result) (rejectCommand_eq op .reservedOp s)
  exact ⟨hrejects 0, hrejects 6, hrejects 7⟩

end Sys2Proof.Machine
end

section
/-! PROOF. No instruction and no step stops the block (60_exceptions.md R250, R258); and the two steps that run no meaning: a
reset (70_reset_and_hazards.md R280), and a step with nothing offered and nothing awaited (60_exceptions.md R265). -/

namespace Sys2Proof.Machine

/-! ### Completion -/

section
variable {i : Instr}

/-- A frame's instruction runs where its frame is dispatched. -/
theorem exec_next_of_frame {f : List Byte} (h : encode i = .frame f) (s : State) : ∃ t, exec i s = .next t := by
  obtain ⟨t, ht, -⟩ := dispatchFrame_effect i s
  exact ⟨t, (exec_eq_dispatchFrame h s).trans ht⟩

/-- Of the byte classes only F7 does more than write the buffer: it may end a frame. -/
theorem exec_next_of_byte {b : Byte} (h : encode i = .byte b) (s : State) : ∃ t, exec i s = .next t := by
  cases i <;> cases h
  case rxF7 =>
    obtain ⟨t, ht, -⟩ := exec_decodeByte_effect 0xF7 s
    exact ⟨t, ht⟩
  all_goals exact ⟨_, rfl⟩

/-- A host operation is that of its own command word. -/
theorem exec_next_of_command {w : CmdWord} (h : encode i = .command w) (s : State) : ∃ t, exec i s = .next t := by
  obtain ⟨t, ht, -⟩ := exec_decodeCommand_effect w s
  exact ⟨t, decodeCommand_of_encode h ▸ ht⟩

end

/-- Settles O39, by the format of the instruction's encoding. -/
theorem everyInstructionCompletes : Obligations.EveryInstructionCompletes := by
  unfold Obligations.EveryInstructionCompletes
  intro i s
  cases hcode : encode i with
  | frame f => exact exec_next_of_frame hcode s
  | byte b => exact exec_next_of_byte hcode s
  | command w => exact exec_next_of_command hcode s

/-- Settles O40. -/
theorem everyStepCompletes : Obligations.EveryStepCompletes := by
  unfold Obligations.EveryStepCompletes
  intro s
  obtain ⟨t, ht, -⟩ := stepOn_effect (currentSample s) (dropSample s)
  exact ⟨t, ht⟩

/-! ### The two steps that run no meaning -/

theorem stepOn_of_rst {p : PortSample} (hrst : p.rst = true) (s : State) : stepOn p s = .next (resetStep s) := by
  rw [stepOn, if_pos hrst]

/-- Settles O37. -/
theorem resetStepLoadsTheTable : Obligations.ResetStepLoadsTheTable := by
  unfold Obligations.ResetStepLoadsTheTable
  intro s p rest hin hrst
  rw [step, currentSample_of_cons s p rest hin, dropSample_of_cons s p rest hin, stepOn_of_rst hrst]
  rfl

/-- The abstract model never lacks room (10_state.md R41). -/
theorem space_of_no_fifo {s : State} (hdepth : s.cfg.evFifoDepth = none) : space s = true := by
  rw [space, hdepth]

/-- Nothing offered and nothing awaited: the phases do nothing after the start of the step. -/
theorem phases_of_idle {p : PortSample} {s : State} (hrx : p.rxValid = false) (hcmd : p.cmdValid = false)
    (hidle : s.seqState = .idle) : phases p s = .next (beginStep p.nowMs false false s) := by
  rw [phases, hrx, hcmd, Bool.false_and, Bool.false_and, rxPhase, if_neg Bool.false_ne_true, andThen_next,
    seqTime_of_idle (beginStep p.nowMs false false s) hidle]
  rfl

theorem pushFifo_of_no_fifo {s : State} (hdepth : s.cfg.evFifoDepth = none) : pushFifo s = s := by
  rw [pushFifo, hdepth]
  rfl

theorem stepOn_of_idle {p : PortSample} {s : State} (hrst : p.rst = false) (hrx : p.rxValid = false)
    (hcmd : p.cmdValid = false) (hdepth : s.cfg.evFifoDepth = none) (hidle : s.seqState = .idle) :
    stepOn p s = .next (popFifo p.evReady (beginStep p.nowMs false false s)) := by
  have hend : (popFifo p.evReady (beginStep p.nowMs false false s)).cfg.evFifoDepth = none := hdepth
  rw [stepOn_of_space hrst (space_of_no_fifo hdepth), phases_of_idle hrx hcmd hidle, andThen_next,
    pushFifo_of_no_fifo hend]

/-- Settles O42. -/
theorem idleStepChangesNoRegister : Obligations.IdleStepChangesNoRegister := by
  unfold Obligations.IdleStepChangesNoRegister
  intro s p rest hin hrst hrx hcmd hdepth hidle
  rw [step, currentSample_of_cons s p rest hin, dropSample_of_cons s p rest hin]
  exact stepOn_of_idle (s := { s with inputs := rest }) hrst hrx hcmd hdepth hidle

end Sys2Proof.Machine
end

section
/-! PROOF. The block's invariants (70_reset_and_hazards.md R281). Each part of the state has few writers: SET_SUPPORTED the
capabilities, the received bytes the buffer, the frame handlers and time rules the two state registers, the step itself the
FIFO. A part's invariant is shown at its writers, each under the role or wait state that its rule asks for. -/

namespace Sys2Proof.Machine

/-! ### The capabilities (10_state.md R22, R23) -/

/-- A mask of zero says that no bit is common to both bytes. -/
theorem and_eq_zero_iff_getLsbD (a b : Byte) : a &&& b = 0 ↔ ∀ k, a.getLsbD k = true → b.getLsbD k = false := by
  constructor
  · intro h k ha
    simpa [ha] using congrArg (fun x : Byte => x.getLsbD k) h
  · intro h
    apply BitVec.eq_of_getLsbD_eq
    intro k _
    cases ha : a.getLsbD k with
    | false => simp [ha]
    | true => simp [h k ha]

/-- The reserved bits of a byte pair: those of no speed. -/
def reservedBits (p : CapPair) : Byte :=
  match p with
  | .first => 0x80
  | .second => 0xF8

theorem not_reserved_of_capBit {v : Speed} {p : CapPair} {k : Nat} (h : capBit v = some (p, k)) :
    (reservedBits p).getLsbD k = false := by
  cases v <;> cases h <;> rfl

/-- `capsSound`, bit by bit. -/
structure CapsBitsSound (c : Caps) : Prop where
  supported : ∀ p k, (certByte c p).getLsbD k = true → (supByte c p).getLsbD k = true
  not_reserved : ∀ p k, (supByte c p).getLsbD k = true → (reservedBits p).getLsbD k = false

theorem capsSound_iff_masks (c : Caps) :
    capsSound c = true ↔ ∀ p, certByte c p &&& ~~~supByte c p = 0 ∧ supByte c p &&& reservedBits p = 0 ∧
      certByte c p &&& reservedBits p = 0 := by
  have hpairs (P : CapPair → Prop) : (∀ p, P p) ↔ P .first ∧ P .second :=
    ⟨fun h => ⟨h _, h _⟩, fun ⟨hfirst, hsecond⟩ p => by cases p <;> assumption⟩
  rw [hpairs]
  simp only [capsSound, Bool.and_eq_true, beq_iff_eq, certByte, supByte, reservedBits]
  tauto

theorem capsSound_iff_bits (c : Caps) : capsSound c = true ↔ CapsBitsSound c := by
  simp only [capsSound_iff_masks, and_eq_zero_iff_getLsbD]
  constructor
  · intro h
    refine ⟨fun p k hcert => ?supported, fun p => ?not_reserved⟩
    case supported =>
      obtain ⟨hsup, -, -⟩ := h p
      simpa [BitVec.lt_of_getLsbD hcert] using hsup k hcert
    case not_reserved =>
      obtain ⟨-, hfree, -⟩ := h p
      exact hfree
  · rintro ⟨hsup, hfree⟩ p
    refine ⟨fun k hcert => ?_, hfree p, fun k hcert => hfree p k (hsup p k hcert)⟩
    simp [hsup p k hcert]

/-- `add` sets a speed's own bits only, the support bit with the certification bit (40_speed_caps.md R107). -/
theorem capsSound_addCap {c : Caps} (h : capsSound c = true) (v : Speed) (cert : Bool) :
    capsSound (addCap c v cert) = true := by
  rw [capsSound_iff_bits] at h ⊢
  refine ⟨fun p k hcert => ?supported, fun p k hsup => ?not_reserved⟩
  case supported =>
    rw [getLsbD_certByte_addCap, Bool.or_eq_true, Bool.and_eq_true] at hcert
    rw [getLsbD_supByte_addCap, Bool.or_eq_true]
    exact hcert.imp (h.supported p k) And.right
  case not_reserved =>
    rw [getLsbD_supByte_addCap, Bool.or_eq_true, decide_eq_true_eq] at hsup
    exact hsup.elim (h.not_reserved p k) not_reserved_of_capBit

/-! ### The receive buffer (10_state.md R29, R30) -/

section
variable {s t : State}

theorem bufferSound_startFrame (hcap : 0 < s.cfg.rxBufCap) (h : bufferSound s = true) :
    bufferSound (startFrame s) = true := by
  rw [bufferSound_iff] at h ⊢
  obtain ⟨hlength, -, -⟩ := h
  have hfirst : (s.rxBuf.set 0 0xF0)[0]? = some 0xF0 := List.getElem?_set_self (by omega)
  exact ⟨List.length_set.trans hlength, hcap, .inr hfirst⟩

/-- A byte stored inside a frame is not its first (42_reassembler.md R142). -/
theorem bufferSound_storeByte (b : Byte) (hin : s.rxLen ≠ 0) (hroom : s.rxLen ≠ s.cfg.rxBufCap)
    (h : bufferSound s = true) : bufferSound (storeByte b s) = true := by
  rw [bufferSound_iff] at h ⊢
  obtain ⟨hlength, hle, hfirst⟩ := h
  have hfits : s.rxLen + 1 ≤ s.cfg.rxBufCap := by omega
  have hkept : (storeByte b s).rxBuf[0]? = some 0xF0 :=
    (storeByte_read_other b s 0 hin.symm).trans (hfirst.resolve_left hin)
  exact ⟨List.length_set.trans hlength, hfits, .inr hkept⟩

theorem bufferSound_leaveFrame (h : bufferSound s = true) : bufferSound (leaveFrame s) = true := by
  rw [bufferSound_iff] at h ⊢
  obtain ⟨hlength, -, -⟩ := h
  exact ⟨hlength, Nat.zero_le _, .inl rfl⟩

theorem bufferSound_of_frameEffect (h : bufferSound s = true) (heffect : FrameEffect s t) : bufferSound t = true := by
  cases heffect <;> exact h

theorem bufferSound_of_byteEffect (hcap : 0 < s.cfg.rxBufCap) (h : bufferSound s = true) (heffect : ByteEffect s t) :
    bufferSound t = true := by
  have hstamped : bufferSound (stampRx s) = true := h
  cases heffect with
  | started => exact bufferSound_startFrame hcap hstamped
  | stored b hin hroom => exact bufferSound_storeByte b hin hroom hstamped
  | ignored => exact hstamped
  | overflowed => exact bufferSound_leaveFrame hstamped
  | ended _ hin hroom hframe =>
    have hstored : bufferSound (storeByte 0xF7 (stampRx s)) = true := bufferSound_storeByte 0xF7 hin hroom hstamped
    exact bufferSound_of_frameEffect (bufferSound_leaveFrame hstored) hframe

theorem bufferSound_of_seqEffect (h : bufferSound s = true) (heffect : SeqEffect s t) : bufferSound t = true := by
  cases heffect <;> exact h

theorem bufferSound_of_commandEffect {op : BitVec 3} (h : bufferSound s = true) (heffect : CommandEffect s op t) :
    bufferSound t = true := by
  cases heffect <;> exact h

/-! ### The roles (10_state.md R27, R31) -/

/-- `roleSound` as a proposition. -/
theorem roleSound_iff (s : State) :
    roleSound s = true ↔
      (mayAnswer s.cfg.role = true ∨ s.testState = .idle) ∧ (mayOriginate s.cfg.role = true ∨ s.seqState = .idle) := by
  simp [roleSound]

/-- A slave's handlers alone start a test, a master's alone enter a wait (43_engine_common.md R166). -/
theorem roleSound_of_frameEffect (h : roleSound s = true) (heffect : FrameEffect s t) : roleSound t = true := by
  rw [roleSound_iff] at h ⊢
  obtain ⟨htest, hseq⟩ := h
  cases heffect with
  | accepted => exact ⟨.inr rfl, hseq⟩
  | testAccepted _ _ hanswers => exact ⟨.inl hanswers, hseq⟩
  | testPassed hanswers => exact ⟨.inl hanswers, hseq⟩
  | testFailed => exact ⟨.inr rfl, hseq⟩
  | test2Passed => exact ⟨.inr rfl, hseq⟩
  | answerRefused => exact ⟨htest, .inr rfl⟩
  | negotiationRequested _ _ horiginates => exact ⟨htest, .inl horiginates⟩
  | ackedWithoutTest => exact ⟨htest, .inr rfl⟩
  | ackedForTest horiginates => exact ⟨htest, .inl horiginates⟩
  | resultGood horiginates => exact ⟨htest, .inl horiginates⟩
  | resultBad => exact ⟨htest, .inr rfl⟩
  | result2 => exact ⟨htest, .inr rfl⟩
  | _ => exact ⟨htest, hseq⟩

/-- A time rule acts only in a wait, which a slave never enters. -/
theorem roleSound_of_seqEffect (h : roleSound s = true) (heffect : SeqEffect s t) : roleSound t = true := by
  rw [roleSound_iff] at h ⊢
  obtain ⟨htest, hseq⟩ := h
  cases heffect with
  | waits => exact ⟨htest, hseq⟩
  | settled hsettle => exact ⟨htest, hseq.imp_right fun hidle => absurd (hsettle.symm.trans hidle) (by decide)⟩
  | _ => exact ⟨htest, .inr rfl⟩

theorem roleSound_of_commandEffect {op : BitVec 3} (h : roleSound s = true) (heffect : CommandEffect s op t) :
    roleSound t = true := by
  rw [roleSound_iff] at h ⊢
  obtain ⟨htest, hseq⟩ := h
  cases heffect with
  | negotiationStarted _ _ _ horiginates => exact ⟨htest, .inl horiginates⟩
  | linkLost => exact ⟨.inr rfl, hseq⟩
  | _ => exact ⟨htest, hseq⟩

/-! ### The probe speed (44_master.md R183, R184) -/

theorem probeSound_waitAck_iff (hseq : s.seqState = .waitAck) :
    probeSound s = true ↔ s.seqTarget = .x1 → s.seqTest = .x1 := by
  simp [probeSound, hseq, imp_iff_not_or]

/-- A live test, from `SETTLE` to the last result. -/
def inLiveTest (q : SeqState) : Prop := q = .settle ∨ q = .waitResult ∨ q = .waitResult2

theorem probeSound_liveTest_iff (hlive : inLiveTest s.seqState) :
    probeSound s = true ↔ s.seqTarget ≠ .x1 ∧ s.seqTest ≠ s.seqTarget := by
  rcases hlive with hseq | hseq | hseq <;> simp [probeSound, hseq]

/-- A live test that goes on keeps its target and its probe. -/
theorem probeSound_of_liveTest (h : probeSound s = true) (hs : inLiveTest s.seqState) (ht : inLiveTest t.seqState)
    (htarget : t.seqTarget = s.seqTarget) (htest : t.seqTest = s.seqTest) : probeSound t = true := by
  rw [probeSound_liveTest_iff ht, htarget, htest]
  exact (probeSound_liveTest_iff hs).mp h

/-- The probe is chosen with the request, and a live test starts only where the Ack finds one (44_master.md R184). -/
theorem probeSound_of_frameEffect (h : probeSound s = true) (heffect : FrameEffect s t) : probeSound t = true := by
  cases heffect with
  | answerRefused => rfl
  | negotiationRequested v rc _ _ _ hselect =>
    refine (probeSound_waitAck_iff rfl).mpr fun htarget => ?_
    have htarget : s.seqTarget = .x1 := htarget
    rw [htarget, selectTest_x1] at hselect
    exact (Option.some.inj hselect).symm
  | ackedWithoutTest => rfl
  | ackedForTest _ _ htarget htest => exact (probeSound_liveTest_iff (.inl rfl)).mpr ⟨htarget, htest⟩
  | resultGood _ hseq => exact probeSound_of_liveTest h (.inr (.inl hseq)) (.inr (.inr rfl)) rfl rfl
  | resultBad => rfl
  | result2 => rfl
  | _ => exact h

theorem probeSound_of_seqEffect (h : probeSound s = true) (heffect : SeqEffect s t) : probeSound t = true := by
  cases heffect with
  | waits => exact h
  | settled hseq => exact probeSound_of_liveTest h (.inl hseq) (.inr (.inl rfl)) rfl rfl
  | _ => rfl

theorem probeSound_of_commandEffect {op : BitVec 3} (h : probeSound s = true) (heffect : CommandEffect s op t) :
    probeSound t = true := by
  cases heffect with
  | negotiationStarted => rfl
  | _ => exact h

/-! ### The phases -/

/-- The invariants on registers that more than one phase of a step writes. -/
structure RegistersSound (s : State) : Prop where
  buffer : bufferSound s = true
  role : roleSound s = true
  probe : probeSound s = true

theorem RegistersSound.of_rxEffect {taken : Bool} (h : RegistersSound s) (hcap : 0 < s.cfg.rxBufCap)
    (heffect : rxEffect taken s t) : RegistersSound t := by
  cases taken with
  | false => exact (show t = s from heffect) ▸ h
  | true =>
    have hbuffer := bufferSound_of_byteEffect hcap h.buffer heffect
    cases (heffect : ByteEffect s t) with
    | ended _ _ _ hframe =>
      have hrole : roleSound (leaveFrame (storeByte 0xF7 (stampRx s))) = true := h.role
      have hprobe : probeSound (leaveFrame (storeByte 0xF7 (stampRx s))) = true := h.probe
      exact ⟨hbuffer, roleSound_of_frameEffect hrole hframe, probeSound_of_frameEffect hprobe hframe⟩
    | _ => exact ⟨hbuffer, h.role, h.probe⟩

theorem RegistersSound.of_seqEffect (h : RegistersSound s) (heffect : SeqEffect s t) : RegistersSound t :=
  ⟨bufferSound_of_seqEffect h.buffer heffect, roleSound_of_seqEffect h.role heffect,
    probeSound_of_seqEffect h.probe heffect⟩

theorem RegistersSound.of_cmdEffect {taken : Bool} {op : BitVec 3} (h : RegistersSound s)
    (heffect : cmdEffect taken op s t) : RegistersSound t := by
  cases taken with
  | false => exact (show t = s from heffect) ▸ h
  | true =>
    exact ⟨bufferSound_of_commandEffect h.buffer heffect, roleSound_of_commandEffect h.role heffect,
      probeSound_of_commandEffect h.probe heffect⟩

theorem registersSound_dropSample (h : RegistersSound s) : RegistersSound (dropSample s) := by
  unfold dropSample
  split <;> exact ⟨h.buffer, h.role, h.probe⟩

/-! ### The step -/

theorem registersSound_of_step (hstep : step s = .next t) (hrst : (currentSample s).rst = false)
    (hcap : 0 < s.cfg.rxBufCap) (h : RegistersSound s) : RegistersSound t := by
  have hdrop := registersSound_dropSample h
  cases effect_of_step s t hstep with
  | reset hreset => simp [hrst] at hreset
  | stalled => exact ⟨hdrop.buffer, hdrop.role, hdrop.probe⟩
  | ran s1 s2 s3 _ _ hrx hseq hcmd =>
    have hbegin : RegistersSound (beginStep (currentSample s).nowMs ((currentSample s).rxValid && rxReady (dropSample s))
        ((currentSample s).cmdValid && cmdReady (dropSample s)) (dropSample s)) :=
      ⟨hdrop.buffer, hdrop.role, hdrop.probe⟩
    have hend := ((hbegin.of_rxEffect (by simpa using hcap) hrx).of_seqEffect hseq).of_cmdEffect hcmd
    exact ⟨hend.buffer, hend.role, hend.probe⟩

theorem capsSound_of_step (hstep : step s = .next t) (hrst : (currentSample s).rst = false)
    (h : capsSound s.localCaps = true) : capsSound t.localCaps = true := by
  rcases localCaps_of_step hstep hrst with hsame | ⟨-, v, cert, hadded⟩
  · rwa [hsame]
  · rw [hadded]
    exact capsSound_addCap h v cert

/-! ### The FIFO (10_state.md R40; 43_engine_common.md R169) -/

/-- A step without room emits nothing (10_state.md R41). -/
theorem space_or_no_events_of_step (hstep : step s = .next t) : space s = true ∨ t.events = [] := by
  cases effect_of_step s t hstep with
  | reset => exact .inr rfl
  | stalled => exact .inr rfl
  | ran s1 s2 s3 _ hspace => exact .inl ((space_dropSample s).symm.trans hspace)

/-- In the abstract model no event enters the FIFO. -/
theorem fifo_of_step_no_fifo (hstep : step s = .next t) (hrst : (currentSample s).rst = false)
    (hdepth : s.cfg.evFifoDepth = none) : t.fifo = if (currentSample s).evReady then s.fifo.tail else s.fifo := by
  cases effect_of_step s t hstep with
  | reset hreset => simp [hrst] at hreset
  | stalled => simp
  | ran s1 s2 s3 _ _ hrx hseq hcmd =>
    obtain ⟨hcfg, hfifo, -⟩ := frame_of_phases hrx hseq hcmd
    simp [hcfg, hfifo, hdepth]

/-- A step emits at most the 34 events that it finds room for, and a stall none. -/
theorem fifo_length_le_of_step {d : Nat} (hstep : step s = .next t) (hrst : (currentSample s).rst = false)
    (hbreath : s.cfg.breathBytes = 16) (hdepth : s.cfg.evFifoDepth = some d) (h : s.fifo.length ≤ d) :
    t.fifo.length ≤ d := by
  have hpopped : (if (currentSample s).evReady then s.fifo.tail else s.fifo).length ≤ s.fifo.length := by
    split <;> simp
  rw [fifo_of_step hstep hrst (by rw [hdepth]; rfl), List.length_append]
  rcases space_or_no_events_of_step hstep with hspace | hnone
  · have hroom : s.fifo.length + 34 ≤ d := by
      rw [space, hdepth] at hspace
      exact of_decide_eq_true hspace
    have hevents : t.events.length ≤ 34 := stepEmitsAtMost34Events s t hbreath hstep
    omega
  · rw [hnone, List.length_nil]
    omega

theorem fifoSound_of_step (hstep : step s = .next t) (hrst : (currentSample s).rst = false)
    (hbreath : s.cfg.breathBytes = 16) (h : fifoSound s = true) : fifoSound t = true := by
  rw [fifoSound] at h ⊢
  rw [buildNeverChanges s t hstep]
  cases hdepth : s.cfg.evFifoDepth with
  | none =>
    have hempty : s.fifo = [] := by simpa [hdepth] using h
    simp [fifo_of_step_no_fifo hstep hrst hdepth, hempty]
  | some d =>
    have hle : s.fifo.length ≤ d := by simpa [hdepth] using h
    simpa using fifo_length_le_of_step hstep hrst hbreath hdepth hle

/-! ### All of them -/

theorem stateSound_iff (s : State) :
    stateSound s = true ↔
      buildSound s = true ∧ capsSound s.localCaps = true ∧ RegistersSound s ∧ fifoSound s = true := by
  have hregisters : RegistersSound s ↔ bufferSound s = true ∧ roleSound s = true ∧ probeSound s = true :=
    ⟨fun h => ⟨h.buffer, h.role, h.probe⟩, fun ⟨hbuffer, hrole, hprobe⟩ => ⟨hbuffer, hrole, hprobe⟩⟩
  simp only [stateSound, Bool.and_eq_true, hregisters, and_assoc]

/-- A build of R7 has room for a frame's first byte, and the source's 16 breathing bytes. -/
theorem cap_and_breath_of_buildSound (h : buildSound s = true) : 0 < s.cfg.rxBufCap ∧ s.cfg.breathBytes = 16 := by
  simp only [buildSound, Config.legal, Config.literalsAsGiven, Bool.and_eq_true, decide_eq_true_eq, beq_iff_eq] at h
  omega

end

/-- The registers' reset values satisfy their invariants in every build; that of the build is asked for. -/
theorem stateSound_resetOf {c : Config} (hlegal : c.legal = true) (hliterals : c.literalsAsGiven = true) :
    stateSound (State.resetOf c) = true := by
  have hbuild : buildSound (State.resetOf c) = true := Bool.and_eq_true_iff.mpr ⟨hlegal, hliterals⟩
  have hbuffer : bufferSound (State.resetOf c) = true :=
    (bufferSound_iff _).mpr ⟨List.length_replicate, Nat.zero_le _, .inl rfl⟩
  have hcaps : capsSound ⟨0x00, 0x00, 0x00, 0x00⟩ = true := by decide
  have hrole : roleSound (State.resetOf c) = true := (roleSound_iff _).mpr ⟨.inr rfl, .inr rfl⟩
  have hfifo : fifoSound (State.resetOf c) = true := by
    rw [fifoSound]
    split <;> simp [State.resetOf]
  exact (stateSound_iff _).mpr ⟨hbuild, hcaps, ⟨hbuffer, hrole, rfl⟩, hfifo⟩

/-- Settles O45. -/
theorem resetSatisfiesTheInvariants : Obligations.ResetSatisfiesTheInvariants := by
  unfold Obligations.ResetSatisfiesTheInvariants
  exact ⟨stateSound_resetOf (by decide) (by decide), fun _ => stateSound_resetOf⟩

/-- A reset step's state is the reset state of its build, but for fields that no invariant reads. -/
theorem stateSound_resetStep {s : State} (h : buildSound s = true) : stateSound (resetStep s) = true := by
  obtain ⟨hlegal, hliterals⟩ := Bool.and_eq_true_iff.mp h
  exact stateSound_resetOf hlegal hliterals

/-- Settles O46: a reset step loads the reset state, and every other step keeps each invariant. -/
theorem everyStepKeepsTheInvariants : Obligations.EveryStepKeepsTheInvariants := by
  unfold Obligations.EveryStepKeepsTheInvariants
  intro s t hsound hstep
  obtain ⟨hbuild, hcaps, hregisters, hfifo⟩ := (stateSound_iff s).mp hsound
  cases hrst : (currentSample s).rst with
  | true =>
    rw [step, stepOn_of_rst hrst] at hstep
    cases hstep
    exact stateSound_resetStep (by rwa [buildSound, dropSample_cfg])
  | false =>
    obtain ⟨hcap, hbreath⟩ := cap_and_breath_of_buildSound hbuild
    have hbuild' : buildSound t = true := by rwa [buildSound, buildNeverChanges s t hstep]
    exact (stateSound_iff t).mpr ⟨hbuild', capsSound_of_step hstep hrst hcaps,
      registersSound_of_step hstep hrst hcap hregisters, fifoSound_of_step hstep hrst hbreath hfifo⟩

end Sys2Proof.Machine
end
